-- ==== Sys2Proof/Word.lean ====
section
/-! DEFINITION. Words, bytes and the numbers that index registers. `XLEN` is 32 (R5, decision D1). -/

namespace Sys2Proof

/-- A general-purpose register, the program counter, EPCR, EEAR, ESR, FPCSR: `XLEN` = 32 bits (R5, R8; D1). -/
abbrev Word := BitVec 32

/-- The smallest unit memory is addressed in (R70). -/
abbrev Byte := BitVec 8

/-- An SPR number (R49), an instruction's immediate K (R102), or one half of CXR (R40). -/
abbrev Half := BitVec 16

/-- The number of a general-purpose register: 32 are architectural (R20). -/
abbrev RegNum := Fin 32

/-- The number of a context: SR[CID] has 4 bits, so there are at most 16 (R35). -/
abbrev CtxNum := Fin 16

end Sys2Proof
end

