-- ==== Sys2Proof/Config.lean ====
section
/-! DEFINITION. What an implementation fixes (the parameters of R5 and a policy for each point the spec leaves open), and the
free values: constants with no body, for what the spec leaves open each time. -/

namespace Sys2Proof

/-- The classes of instructions the spec describes by an interface only (R105; R170 to R175). -/
inductive InsnClass where
  | loadStore | floatingPoint | arith | jump | plain
  deriving DecidableEq, Repr

/-- What `Classify` says of a word that is none of the six instructions (R105). -/
inductive WordClass where
  | illegal
  | other (c : InsnClass)
  deriving DecidableEq, Repr

/-- What a vector offset is added to (R77, D4): a fixed base, or the base SR[EPH] selects (GK8). -/
inductive VectorBase where
  | fixed (base : Word)
  | eph
  deriving DecidableEq, Repr

/-- `USER_PRIV_POLICY` (R123, R153, D15, GK12): what l.mfspr, l.mtspr and l.rfe do when SR[SM] = 0.
`sumra` is `ignore` where SR[SUMRA] permits the read of an SPR that is not supervisor-only. -/
inductive UserPriv where
  | refuse | illegal | ignore | sumra
  deriving DecidableEq, Repr

/-- What a write of register 0 does (R22, D26, GK13): an ordinary register, one hard-wired to zero, or the spec's
cautious reading, which refuses a value on which the two kinds differ. -/
inductive R0Policy where
  | refuse | ordinary | hardwired
  deriving DecidableEq, Repr

/-- What a jump target or return address that is not a multiple of 4 does (R74, D2, GK15). -/
inductive Misaligned where
  | refuse | ignoreLow | alignment
  deriving DecidableEq, Repr

/-- A policy with the spec's recommended refusal and one effect the spec also names. -/
inductive Caution where
  | refuse | execute
  deriving DecidableEq, Repr

/-- What an access to an SPR number that names no implemented register does (R158, U7, U12, GK12). -/
inductive UnmappedSpr where
  | refuse | zero | free
  deriving DecidableEq, Repr

/-- Whether the immediate of l.trap conditions the trap (R121, D20, GK11). -/
inductive TrapPolicy where
  | always | refuseIfClear | conditional
  deriving DecidableEq, Repr

/-- The configuration of one implementation: R5's parameters, then the policies. It is constant while the machine runs. -/
structure Config where
  /-- implemented general-purpose registers (R20, D32) -/
  ngpr : Nat
  /-- CPUCFGR[ND]: true means no delay slots (R44, D33) -/
  nd : Bool
  /-- register contexts: 1 means no fast context switching (R239, D9) -/
  nctx : Nat
  vectorBase : VectorBase
  /-- byte order of fetch and data (R72, D3) -/
  bigEndian : Bool
  hasImmu : Bool
  hasDmmu : Bool
  hasFpu : Bool
  hasTick : Bool
  hasPic : Bool
  /-- a debug unit that can cause Trap (R217, D7) -/
  hasDebug : Bool
  /-- Illegal Instruction writes EEAR (R229, D11, C4) -/
  illegalWritesEear : Bool
  /-- the SPR number of CXR, which no source gives (R40, N5) -/
  cxrSpr : Option Half
  /-- the shadow GPRs have the SPR numbers of R49 (R157, D14) -/
  shadowGprMap : Bool
  userPriv : UserPriv
  r0 : R0Policy
  misaligned : Misaligned
  /-- a delay-slot instruction writes the register the pending jump read (R144, D16) -/
  slotWrite : Caution
  /-- l.mtspr to SR with other CID or DSX bits than the current ones (R155, U10) -/
  srFields : Caution
  unmappedSpr : UnmappedSpr
  /-- CID overflow at exception entry (R242, D21) -/
  cidOverflow : Caution
  trapPolicy : TrapPolicy
  /-- SR[LEE] = 1: refuse, or little-endian accesses (R72) -/
  littleEndian : Caution
  /-- fetch from a location stored to since launch: refuse, or see the store (R82, D18) -/
  storedFetch : Caution
  /-- `Classify` as a finite table: the first row of a word counts, a word without a row has no class (R105, D39) -/
  classify : List (Word × WordClass)
  deriving DecidableEq, Repr

/-! ## Free values

Each is a `draw` of the spec: a function of the step's number (`State.draws`) with no body, so that nothing can be
proved of its value. -/

/-- Whether entry keeps SR[OVE] (D28, R230) or clears it (GK16). -/
opaque Config.freeOveKept : Nat → Bool

/-- SR[CE] after a write of 1 to it when NCTX = 1: writable or fixed at 0 (U9, R32). -/
opaque Config.freeCe : Nat → Bool

/-- Whether l.mtspr to SR changes SR[DSX] (U10, R155). -/
opaque Config.freeDsxWritten : Nat → Bool

/-- Whether l.mtspr to SR changes SR[CID] (U10, R155). -/
opaque Config.freeCidWritten : Nat → Bool

/-- The bits of CPUCFGR other than ND, as a read finds them (R154). -/
opaque Config.freeCpucfgr : Nat → Word

/-- What a read of an SPR number outside the map returns (R158, U7, U12). -/
opaque Config.freeSpr : Nat → Half → Word

/-- `TICK_EXT_ORDER` at one occurrence: true takes Tick Timer (R221, D6). -/
opaque Config.freeTickFirst : Nat → Bool

/-- Which of a debug unit's Trap and a D-TLB Miss or System Call is taken (R221, D7): true takes the Trap. -/
opaque Config.freeDebugFirst : Nat → Bool

/-- Whether FPCSR flags left set by an earlier instruction count for Floating Point (U14, R171). -/
opaque Config.freeStickyCounts : Nat → Bool

/-- A destination register of an arithmetic instruction that raised Range (U15, R172). -/
opaque Config.freeRangeResult : Nat → RegNum → Word

/-- SR[OV] after an arithmetic instruction raised Range (U15, R172). -/
opaque Config.freeRangeOv : Nat → Bool

/-- Whether the instruction after an untaken branch is a delay-slot instruction (U16, R173). -/
opaque Config.freeUntakenSlot : Nat → Bool

/-- A general-purpose register after a reset of a running machine (U17, R282). -/
opaque Config.freeResetGpr : Nat → CtxNum → RegNum → Word

/-- An EPCR copy after a reset of a running machine (U8, U17, R282). -/
opaque Config.freeResetEpcr : Nat → CtxNum → Word

/-- An EEAR copy after a reset of a running machine (U8, U17, R282). -/
opaque Config.freeResetEear : Nat → CtxNum → Word

/-- An ESR copy after a reset (R281, D29). -/
opaque Config.freeResetEsr : Nat → CtxNum → Word

/-- FPCSR after a reset of a running machine (U17, R282). -/
opaque Config.freeResetFpcsr : Nat → Word

end Sys2Proof
end

