-- ==== Sys2Proof/Syntax.lean ====
section
/-! DEFINITION. The instructions: one constructor per row of spec/opcode_table.json (R104). -/

namespace Sys2Proof

/-- The six instructions the source names (R3, R104). A field has exactly the width its encoding gives it (R102). -/
inductive Instr where
  /-- `l.sys K` (R120) -/
  | lSys (k : Half)
  /-- `l.trap K` (R121) -/
  | lTrap (k : Half)
  /-- `l.rfe` (R122) -/
  | lRfe
  /-- `l.jr rB` (R140) -/
  | lJr (b : RegNum)
  /-- `l.mfspr rD,rA,K` (R150) -/
  | lMfspr (d a : RegNum) (k : Half)
  /-- `l.mtspr rA,rB,K` (R151) -/
  | lMtspr (a b : RegNum) (k : Half)
  deriving DecidableEq, Repr

/-- The register fields an instruction uses, source or destination (R21, D30). -/
def Instr.regFields : Instr → List RegNum
  | .lSys _ => []
  | .lTrap _ => []
  | .lRfe => []
  | .lJr b => [b]
  | .lMfspr d a _ => [d, a]
  | .lMtspr a b _ => [a, b]

/-- Width of a data access in bytes (R76). -/
inductive Width where
  | byte | half | word
  deriving DecidableEq, Repr

def Width.bytes : Width → Nat
  | .byte => 1
  | .half => 2
  | .word => 4

/-- One result write of an instruction of an abstract class: a register and the value it receives. -/
abbrev RegWrite := RegNum × Word

/-- What one executed instruction of an abstract class presents to the exception mechanism. DESIGN CHOICE (log 24): whether
a load or store modifies its base register is not in the source (R170); here none does, so neither presents such a write. -/
inductive Presented where
  /-- a load (R170): its effective address, width, register fields, destination, and whether the value is sign-extended -/
  | load (ea : Word) (width : Width) (regs : List RegNum) (dest : RegNum) (signed : Bool)
  /-- a store (R170): its effective address, width, register fields and the value stored -/
  | store (ea : Word) (width : Width) (regs : List RegNum) (value : Word)
  /-- floating point (R171): result writes and the FPCSR status flags the FPU sets for it (bits 11-3, GK6) -/
  | floatingPoint (regs : List RegNum) (writes : List RegWrite) (flags : BitVec 9)
  /-- flag-setting arithmetic (R172): result writes and the SR flags it gives a value -/
  | arith (regs : List RegNum) (writes : List RegWrite) (ov cy f : Option Bool)
  /-- a jump or branch (R173): whether it transfers control, its target, the register the target came from, result writes -/
  | jump (regs : List RegNum) (taken : Bool) (target : Word) (targetReg : Option RegNum) (writes : List RegWrite)
  /-- plain (R175): result writes -/
  | plain (regs : List RegNum) (writes : List RegWrite)
  deriving DecidableEq, Repr

/-- The class a presentation belongs to. -/
def Presented.insnClass : Presented → InsnClass
  | .load .. => .loadStore
  | .store .. => .loadStore
  | .floatingPoint .. => .floatingPoint
  | .arith .. => .arith
  | .jump .. => .jump
  | .plain .. => .plain

/-- Every register field a presented instruction uses: those it lists and those it writes (R21, D30). -/
def Presented.regFields : Presented → List RegNum
  | .load _ _ regs dest _ => dest :: regs
  | .store _ _ regs _ => regs
  | .floatingPoint regs writes _ => regs ++ writes.map Prod.fst
  | .arith regs writes _ _ _ => regs ++ writes.map Prod.fst
  | .jump regs _ _ targetReg writes => targetReg.toList ++ regs ++ writes.map Prod.fst
  | .plain regs writes => regs ++ writes.map Prod.fst

end Sys2Proof
end

