-- ==== Sys2Proof/WellFormed.lean ====
section
/-! DEFINITION. Which instructions and which configurations are well formed. An instruction's fields have exactly the widths of
its encoding, so the checks are about what an implementation must provide for it, and about the configuration. -/

namespace Sys2Proof

/-- An instruction is well formed for an implementation when each register it names is implemented (R21). One that is
not well formed still decodes and executes: it raises Range (R214). -/
def Instr.wellFormed (cfg : Config) (i : Instr) : Bool :=
  i.regFields.all fun r => decide (r.val < cfg.ngpr)

/-- The vector base leaves the vector addresses at multiples of 0x100 (R74, R77). -/
def VectorBase.wellFormed : VectorBase → Bool
  | .fixed base => decide (base.toNat % 256 = 0)
  | .eph => true

/-- The numbers R49 gives to the registers of group 0: CXR's own number, whatever it is, is none of them. -/
def sprNumberTaken (n : Half) : Bool :=
  decide (n.toNat = 2 ∨ n.toNat = 17 ∨ n.toNat = 20 ∨ (32 ≤ n.toNat ∧ n.toNat < 80) ∨
    (1024 ≤ n.toNat ∧ n.toNat < 1536))

/-- CXR's SPR number, when there is one, collides with no other register's (R40, R49). -/
def cxrSprWellFormed : Option Half → Bool
  | none => true
  | some n => !sprNumberTaken n

/-- The limits the spec puts on the parameters (R5, R20, R35, R74). -/
def Config.wellFormed (cfg : Config) : Bool :=
  decide (1 ≤ cfg.ngpr ∧ cfg.ngpr ≤ 32) && decide (1 ≤ cfg.nctx ∧ cfg.nctx ≤ 16) &&
    cfg.vectorBase.wellFormed && cxrSprWellFormed cfg.cxrSpr

end Sys2Proof
end

