-- ==== Sys2Proof/Decode.lean ====
section
/-! DEFINITION. Decoding (R100 to R108) and, after it, encoding (R104). The encodings are the spec's general-knowledge item
GK3 (log 12). -/

namespace Sys2Proof

/-- Why a word is none of the six instructions (R106, R107; vectors E19 to E24). Such a word goes to `Classify` (R105). -/
inductive DecodeReject where
  /-- the opcode of l.rfe with a reserved bit set (R106) -/
  | rfeReservedBits
  /-- the opcode of l.jr with a reserved bit set (R106) -/
  | jrReservedBits
  /-- opcode 0x08 with a sub-opcode that is neither l.sys nor l.trap (R107) -/
  | otherSubOpcode
  /-- an opcode that is none of the five (R105) -/
  | otherOpcode
  /-- other than four bytes (R100) -/
  | notFourBytes
  deriving DecidableEq, Repr

/-- The five bits of `w` from bit `lo` up, as a register number (R102). -/
def regField (w : Word) (lo : Nat) : RegNum := (w.extractLsb' lo 5).toFin

/-- K of l.sys, l.trap and l.mfspr: `w[15:0]` (R103). -/
def immLow (w : Word) : Half := w.extractLsb' 0 16

/-- K of l.mtspr: `w[25:21] ++ w[10:0]` (R103). -/
def immSplit (w : Word) : Half := w.extractLsb' 21 5 ++ w.extractLsb' 0 11

/-- `Decode` (R108): total on 32-bit words. -/
def decode (w : Word) : Except DecodeReject Instr :=
  if w &&& 0xFFFF0000#32 = 0x20000000#32 then .ok (.lSys (immLow w))
  else if w &&& 0xFFFF0000#32 = 0x21000000#32 then .ok (.lTrap (immLow w))
  else if w = 0x24000000#32 then .ok .lRfe
  else if w &&& 0xFFFF07FF#32 = 0x44000000#32 then .ok (.lJr (regField w 11))
  else if w &&& 0xFC000000#32 = 0xB4000000#32 then .ok (.lMfspr (regField w 21) (regField w 16) (immLow w))
  else if w &&& 0xFC000000#32 = 0xC0000000#32 then .ok (.lMtspr (regField w 16) (regField w 11) (immSplit w))
  else if w &&& 0xFC000000#32 = 0x24000000#32 then .error .rfeReservedBits
  else if w &&& 0xFC000000#32 = 0x44000000#32 then .error .jrReservedBits
  else if w &&& 0xFC000000#32 = 0x20000000#32 then .error .otherSubOpcode
  else .error .otherOpcode

/-- The word of four bytes in the order of their addresses, most significant first (R72). -/
def wordOfFour (b0 b1 b2 b3 : Byte) : Word := b0 ++ b1 ++ b2 ++ b3

/-- Decoding of the bytes at `pc`, in the order of their addresses: an instruction is exactly four bytes (R100). -/
def decodeBytes : List Byte → Except DecodeReject Instr
  | [b0, b1, b2, b3] => decode (wordOfFour b0 b1 b2 b3)
  | _ => .error .notFourBytes

/-! ## Encoding -/

/-- A register number as the five bits of a field (R102), in a word. -/
def regBits (r : RegNum) : Word := (BitVec.ofFin (w := 5) r).setWidth 32

/-- The word of an instruction (R104, "Encoding a word"). -/
def encode : Instr → Word
  | .lSys k => 0x20000000#32 ||| k.setWidth 32
  | .lTrap k => 0x21000000#32 ||| k.setWidth 32
  | .lRfe => 0x24000000#32
  | .lJr b => 0x44000000#32 ||| (regBits b <<< 11)
  | .lMfspr d a k =>
      0xB4000000#32 ||| (regBits d <<< 21) ||| (regBits a <<< 16) ||| k.setWidth 32
  | .lMtspr a b k =>
      0xC0000000#32 ||| ((k.extractLsb' 11 5).setWidth 32 <<< 21) ||| (regBits a <<< 16) |||
        (regBits b <<< 11) ||| (k.extractLsb' 0 11).setWidth 32

/-- The four bytes of a word in the order of their addresses, most significant first (R72). -/
def fourOfWord (w : Word) : List Byte :=
  [w.extractLsb' 24 8, w.extractLsb' 16 8, w.extractLsb' 8 8, w.extractLsb' 0 8]

/-- The bytes of an instruction as memory holds them (R100, R72). -/
def encodeBytes (i : Instr) : List Byte := fourOfWord (encode i)

/-- The row's fixed bits (R104, canonical mask). -/
def encodingMask : Instr → Word
  | .lSys _ => 0xFFFF0000#32
  | .lTrap _ => 0xFFFF0000#32
  | .lRfe => 0xFFFFFFFF#32
  | .lJr _ => 0xFFFF07FF#32
  | .lMfspr _ _ _ => 0xFC000000#32
  | .lMtspr _ _ _ => 0xFC000000#32

/-- The values of the row's fixed bits (R104, match). -/
def encodingMatch : Instr → Word
  | .lSys _ => 0x20000000#32
  | .lTrap _ => 0x21000000#32
  | .lRfe => 0x24000000#32
  | .lJr _ => 0x44000000#32
  | .lMfspr _ _ _ => 0xB4000000#32
  | .lMtspr _ _ _ => 0xC0000000#32

/-- The word a row's number `w` of `nbits` bits stands for: the bits above `nbits` are 0. -/
def tableWord (nbits w : Nat) : Word := BitVec.ofNat 32 (w % 2 ^ nbits)

/-- What the decoder reads from an instruction whose bits, numbered as spec/opcode_table.json numbers them, are `w`. -/
def decodeTableWord (nbits w : Nat) : Option Instr :=
  (decodeBytes (fourOfWord (tableWord nbits w))).toOption

end Sys2Proof
end

