-- ==== Sys2Proof/Machine/Exceptions.lean ====
section
/-! DEFINITION. The fourteen exception types and the table that describes them (R201, R202, R219, R226, R229). -/

namespace Sys2Proof.Machine

/-- The fourteen exception types (R202). -/
inductive Exc where
  | reset | busError | dataPageFault | insnPageFault | tickTimer | alignment | illegalInsn
  | externalInterrupt | dtlbMiss | itlbMiss | range | systemCall | floatingPoint | trap
  deriving DecidableEq, Repr

/-- The four classes (R201). -/
inductive ExcClass where
  | asyncNonmaskable | asyncMaskable | syncPrecise | syncImprecise
  deriving DecidableEq, Repr

/-- Vector offsets (R202, R77). -/
def vectorOffset : Exc → Word
  | .reset => 0x100
  | .busError => 0x200
  | .dataPageFault => 0x300
  | .insnPageFault => 0x400
  | .tickTimer => 0x500
  | .alignment => 0x600
  | .illegalInsn => 0x700
  | .externalInterrupt => 0x800
  | .dtlbMiss => 0x900
  | .itlbMiss => 0xA00
  | .range => 0xB00
  | .systemCall => 0xC00
  | .floatingPoint => 0xD00
  | .trap => 0xE00

/-- Class of a type (R201, first table and its expansion). -/
def excClass : Exc → ExcClass
  | .reset => .asyncNonmaskable
  | .busError => .asyncNonmaskable
  | .externalInterrupt => .asyncMaskable
  | .tickTimer => .asyncMaskable
  | .dataPageFault => .syncPrecise
  | .insnPageFault => .syncPrecise
  | .alignment => .syncPrecise
  | .illegalInsn => .syncPrecise
  | .dtlbMiss => .syncPrecise
  | .itlbMiss => .syncPrecise
  | .range => .syncPrecise
  | .systemCall => .syncPrecise
  | .floatingPoint => .syncPrecise
  | .trap => .syncPrecise

/-- Priority numbers, 1 the highest (R219, R220). Bus Error has one on a fetch and one on a load or store. -/
def priority (onFetch : Bool) : Exc → Nat
  | .reset => 1
  | .itlbMiss => 2
  | .insnPageFault => 3
  | .busError => if onFetch then 4 else 9
  | .illegalInsn => 5
  | .alignment => 6
  | .dtlbMiss => 7
  | .systemCall => 7
  | .trap => 7
  | .dataPageFault => 8
  | .range => 10
  | .floatingPoint => 11
  | .tickTimer => 12
  | .externalInterrupt => 12

/-- The synchronous types whose EPCR class is `next`: the instruction has completed (R226). -/
def savesNext : Exc → Bool
  | .systemCall => true
  | .floatingPoint => true
  | _ => false

/-- The types that write EEAR (R229); Illegal Instruction by the parameter ILLEGAL_WRITES_EEAR (C4, D11). -/
def writesEear (cfg : Config) : Exc → Bool
  | .busError => true
  | .dataPageFault => true
  | .insnPageFault => true
  | .alignment => true
  | .itlbMiss => true
  | .dtlbMiss => true
  | .illegalInsn => cfg.illegalWritesEear
  | _ => false

end Sys2Proof.Machine
end

