-- ==== Sys2Proof/Machine/Params.lean ====
section
/-! DEFINITION. Two named configurations: the one the machine has at reset, and the one whose policies are the spec's
recommended refusals. Every statement holds for every configuration unless it says otherwise (log 1). -/

namespace Sys2Proof.Machine

/-- The spec's instance (R5, column "value taken"), with the policy of every open point at the model outcome the spec
recommends. -/
def specConfig : Config where
  ngpr := 32
  nd := false
  nctx := 1
  vectorBase := .fixed 0
  bigEndian := true
  hasImmu := true
  hasDmmu := true
  hasFpu := true
  hasTick := true
  hasPic := true
  hasDebug := false
  illegalWritesEear := true
  cxrSpr := none
  shadowGprMap := false
  userPriv := .refuse
  r0 := .refuse
  misaligned := .refuse
  slotWrite := .refuse
  srFields := .refuse
  unmappedSpr := .refuse
  cidOverflow := .refuse
  trapPolicy := .always
  littleEndian := .refuse
  storedFetch := .refuse
  classify := []

/-- DESIGN CHOICE (log 1, 3 to 5, 7 to 10): the configuration at reset. R5's values; where the spec recommends a refusal and
also names an effect, the effect; the refusal where it names none (R144, D16). -/
def resetConfig : Config :=
  { specConfig with
    shadowGprMap := true
    userPriv := .illegal
    r0 := .ordinary
    misaligned := .ignoreLow
    srFields := .execute
    unmappedSpr := .free
    cidOverflow := .execute }

end Sys2Proof.Machine
end

