-- ==== Sys2Proof/Machine/State.lean ====
section
/-! DEFINITION. The state of the machine as plain data, the reasons a step can stop, and the state after reset
(10_state.md; INVENTORY.md, State). -/

namespace Sys2Proof.Machine

/-- SR as a record of its fields (R26, R27, D13). FO (reads as 1) and bits 27-17 (read as 0) have no storage: `packSr`
supplies them (log 13). -/
structure SR where
  sm : Bool
  tee : Bool
  iee : Bool
  dce : Bool
  ice : Bool
  dme : Bool
  ime : Bool
  lee : Bool
  ce : Bool
  f : Bool
  cy : Bool
  ov : Bool
  ove : Bool
  dsx : Bool
  eph : Bool
  sumra : Bool
  cid : BitVec 4
  deriving DecidableEq, Repr

/-- One context: the shadowed registers (R240, R23, R36, R37, R39). -/
structure Context where
  gpr : Vector Word 32
  epcr : Word
  esr : Word
  eear : Word
  deriving DecidableEq, Repr

/-- `DS` (R25): the instruction at `pc` is the delay-slot instruction of a jump to `t` exactly when it is `target t r`;
`r` is the register the target came from, where there is one (R141, R144). -/
inductive DelaySlot where
  | none
  | target (t : Word) (r : Option RegNum)
  deriving DecidableEq, Repr

/-- The kinds of access `Translate` distinguishes (R71). -/
inductive AccessKind where
  | fetch | load | store
  deriving DecidableEq, Repr

/-- What a matching entry answers: a physical address, or no PTE or a protection violation (R71). -/
inductive Walk where
  | ok (pa : Word)
  | pageFault
  deriving DecidableEq, Repr

/-- One entry of the MMU state (R46): the answer for one kind of access to one virtual address in one mode. No format is
in the source (N13), so an entry covers one address (log 22). -/
structure MmuEntry where
  kind : AccessKind
  va : Word
  sm : Bool
  answer : Walk
  deriving DecidableEq, Repr

/-- The inputs of one step (R45). `mmu` replaces the MMU state, which only the environment writes (R46, R83); `presented`
is what an instruction of an abstract class presents at this step (43_other_instruction_classes.md). -/
structure Inputs where
  reset : Bool
  tickIrq : Bool
  extIrq : Bool
  debugTrap : Bool
  /-- the bus answers this step's fetch with an error (R75) -/
  fetchBusError : Bool
  /-- the bus answers this step's load or store with an error (R75) -/
  dataBusError : Bool
  mmu : Option (List MmuEntry)
  presented : Option Presented
  deriving DecidableEq, Repr

/-- No input asserted. DESIGN CHOICE (log 2): what a step reads when no input is left in the list. -/
def Inputs.quiet : Inputs :=
  ⟨false, false, false, false, false, false, none, none⟩

/-- Why the machine stops with a fault. -/
inductive Fault where
  /-- Raised by a fetch or a load of a byte nothing has written (R47, R48). Safe: the hardware goes on with some byte. -/
  | unwrittenMemory
  deriving DecidableEq, Repr

/-- Why a step has no meaning. Each is safe: the hardware does something there, the model proves nothing of it. -/
inductive Refusal where
  /-- raised by `exec` for an instruction that has no meaning yet -/
  | notModelled (mnemonic : String)
  /-- raised by the step for a word without a row in `Classify` (R105, D39) -/
  | wordNotClassified
  /-- raised by the step for a class instruction for which no presentation of its class is supplied (R105) -/
  | noSemantics (c : InsnClass)
  /-- raised by l.rfe, l.mfspr, l.mtspr in user mode under the policy `refuse` (R123, R153) -/
  | userPrivilege
  /-- raised by a write of a value other than 0 to register 0 under the policy `refuse` (R22) -/
  | nonZeroWriteToR0
  /-- raised by a jump to an address that is no multiple of 4, under the policy `refuse` (R140) -/
  | misalignedTarget
  /-- raised by l.rfe to an address that is no multiple of 4, under the policy `refuse` (R122) -/
  | misalignedReturn
  /-- raised by the step at a `pc` that is no multiple of 4, which no run reaches (R24, D2) -/
  | misalignedPc
  /-- raised by a jump in a delay slot (R145, D24) -/
  | jumpInDelaySlot
  /-- raised by l.rfe in a delay slot (R124, D24) -/
  | rfeInDelaySlot
  /-- raised by a delay-slot write of the register the pending jump read, under the policy `refuse` (R144) -/
  | slotWritesJumpRegister
  /-- raised by l.rfe with fast context switching on in context 0 (R122, U13) -/
  | cidUnderflow
  /-- raised by l.rfe when the saved CID is not the decremented one (R122, U13) -/
  | esrCidAltered
  /-- raised by l.mtspr to CXR when the new CCID names no context (R41, R156, U11) -/
  | cidOutOfRange
  /-- raised by exception entry in the last context, under the policy `refuse` (R242, D21) -/
  | cidOverflow
  /-- raised by l.mtspr to SR with other CID or DSX bits, under the policy `refuse` (R155, U10) -/
  | srWriteChangesCidOrDsx
  /-- raised by l.mfspr and l.mtspr of an SPR number outside the map, under the policy `refuse` (R154, R158) -/
  | sprOutOfScope
  /-- raised by l.trap when the SR bit K names is 0, under the policy `refuseIfClear` (R121) -/
  | trapConditionUnclear
  /-- raised by the step when SR[LEE] = 1, under the policy `refuse` (R72) -/
  | littleEndianState
  /-- raised by a fetch from a location stored to since launch, under the policy `refuse` (R82) -/
  | fetchAfterStore
  deriving DecidableEq, Repr

/-- The state of the machine. -/
structure State where
  /-- the configuration: constant while the machine runs (R5; log 1) -/
  cfg : Config
  /-- the program counter (R24) -/
  pc : Word
  /-- the delay-slot state (R25) -/
  ds : DelaySlot
  /-- the contexts: general-purpose registers, EPCR, ESR, EEAR; `cfg.nctx` of them are implemented (R23, R240) -/
  ctx : Vector Context 16
  /-- the supervision register (R26) -/
  sr : SR
  /-- CXR's real half (R42); the other half is a view of SR[CID] (R41) -/
  ccrs : Half
  /-- the floating-point control and status register (R43) -/
  fpcsr : Word
  /-- the MMU state (R46) -/
  mmu : List MmuEntry
  /-- memory: the bytes that have been written, addresses strictly rising (R47, R70) -/
  mem : List Host.Cell
  /-- the physical addresses stored to since launch (R82) -/
  stored : List Nat
  /-- the inputs of the steps to come, the next one first (R45) -/
  inputs : List Inputs
  /-- the model's own counter, which numbers the free values (log 33) -/
  draws : Nat
  deriving DecidableEq, Repr

/-- SR after reset: SM = 1, the bits R281 settles 0; CE, OV and the rest 0, PRESUMED (log 11, GK9). -/
def SR.reset : SR where
  sm := true
  tee := false
  iee := false
  dce := false
  ice := false
  dme := false
  ime := false
  lee := false
  ce := false
  f := false
  cy := false
  ov := false
  ove := false
  dsx := false
  eph := false
  sumra := false
  cid := 0

/-- A context nothing has written since power-on: DESIGN CHOICE, zeros (log 11). -/
def Context.reset : Context := ⟨Vector.replicate 32 0, 0, 0, 0⟩

/-- The machine right after a power-on reset (R281, R282, 10_state.md section 9), with the reset configuration. -/
def State.reset : State where
  cfg := resetConfig
  pc := 0x100
  ds := .none
  ctx := Vector.replicate 16 Context.reset
  sr := SR.reset
  ccrs := 0
  fpcsr := 0
  mmu := []
  mem := []
  stored := []
  inputs := []
  draws := 0

end Sys2Proof.Machine
end

