-- ==== Sys2Proof/Machine/Flags.lean ====
section
/-! DEFINITION. SR as a word and every computation of an SR or FPCSR flag (R26 to R35, R43, R155, R171, R172, R227, R230). -/

namespace Sys2Proof.Machine

/-- The SR word in the layout of R27: FO reads as 1, bits 27-17 as 0. -/
def packSr (s : SR) : Word :=
  s.cid ++ 0#11 ++ BitVec.ofBool s.sumra ++ 1#1 ++ BitVec.ofBool s.eph ++ BitVec.ofBool s.dsx ++
    BitVec.ofBool s.ove ++ BitVec.ofBool s.ov ++ BitVec.ofBool s.cy ++ BitVec.ofBool s.f ++
    BitVec.ofBool s.ce ++ BitVec.ofBool s.lee ++ BitVec.ofBool s.ime ++ BitVec.ofBool s.dme ++
    BitVec.ofBool s.ice ++ BitVec.ofBool s.dce ++ BitVec.ofBool s.iee ++ BitVec.ofBool s.tee ++
    BitVec.ofBool s.sm

/-- The fields of a word in the layout of R27; the hard-wired bits are dropped. -/
def unpackSr (w : Word) : SR where
  sm := w.getLsbD 0
  tee := w.getLsbD 1
  iee := w.getLsbD 2
  dce := w.getLsbD 3
  ice := w.getLsbD 4
  dme := w.getLsbD 5
  ime := w.getLsbD 6
  lee := w.getLsbD 7
  ce := w.getLsbD 8
  f := w.getLsbD 9
  cy := w.getLsbD 10
  ov := w.getLsbD 11
  ove := w.getLsbD 12
  dsx := w.getLsbD 13
  eph := w.getLsbD 14
  sumra := w.getLsbD 16
  cid := w.extractLsb' 28 4

/-- Fast context switching is implemented (R239). -/
def hasContexts (cfg : Config) : Bool := decide (1 < cfg.nctx)

/-- SR[CID] is hard-wired to 0 where fast context switching is not implemented (R35). -/
def fixCid (cfg : Config) (s : SR) : SR :=
  if hasContexts cfg then s else { s with cid := 0 }

/-- The new SR of exception entry (R230, R227): `d` says whether the instruction is in a delay slot, `cid` is the new
CID (R241), and SR[OVE] stays or is cleared as `oveKept` says (D28, GK16). Every other bit keeps its value. -/
def entrySr (d : Bool) (cid : BitVec 4) (oveKept : Bool) (s : SR) : SR :=
  { s with
    dme := false
    ime := false
    sm := true
    iee := false
    tee := false
    dsx := d
    ove := s.ove && oveKept
    cid := cid }

/-- A value of which it is open whether a write changes it: the old one, or the new one where `changes` says so. -/
def writtenIf {α : Type} [DecidableEq α] (changes : Bool) (old new : α) : α :=
  if new = old then old else if changes then new else old

/-- SR[CE] after a write of `b`: open when fast context switching is not implemented (U9, R32). -/
def writtenCe (cfg : Config) (n : Nat) (b : Bool) : Bool :=
  if hasContexts cfg then b else b && Config.freeCe n

/-- The CID an SR write may leave: the written one only where it names a context (R35, U10). -/
def writtenCid (cfg : Config) (n : Nat) (old new : BitVec 4) : BitVec 4 :=
  if hasContexts cfg && decide (new.toNat < cfg.nctx) then writtenIf (Config.freeCidWritten n) old new else old

/-- What a write of `v` to SR leaves in it (R155), or the refusal of a write whose CID or DSX bits differ (U10, log 7). -/
def srWrite (cfg : Config) (n : Nat) (old : SR) (v : Word) : Except Refusal SR :=
  let new := unpackSr v
  let ce := writtenCe cfg n new.ce
  match cfg.srFields with
  | .refuse =>
      if new.cid = old.cid ∧ new.dsx = old.dsx then .ok { new with ce := ce }
      else .error .srWriteChangesCidOrDsx
  | .execute =>
      .ok { new with
        ce := ce
        dsx := writtenIf (Config.freeDsxWritten n) old.dsx new.dsx
        cid := writtenCid cfg n old.cid new.cid }

/-- The flags an arithmetic instruction gives a value (R172). -/
def arithSr (ov cy f : Option Bool) (s : SR) : SR :=
  { s with
    ov := ov.getD s.ov
    cy := cy.getD s.cy
    f := f.getD s.f }

/-- The flag cause of Range: the instruction set OV and the enable is programmed (R172, R33, GK10). DESIGN CHOICE (log 24):
which flags besides OV count is open (U15, a parameter of the class); the model lets OV alone count. -/
def rangeByFlag (ov : Option Bool) (s : SR) : Bool := ov == some true && s.ove

/-- FPCSR[FPEE] (R43). -/
def fpee (fpcsr : Word) : Bool := fpcsr.getLsbD 0

/-- FPCSR's status flags, bits 11-3 (R43, GK6). -/
def fpFlags (fpcsr : Word) : BitVec 9 := fpcsr.extractLsb' 3 9

/-- `FPCSR.flags <- FPCSR.flags | flags` (R171). -/
def orFpFlags (flags : BitVec 9) (fpcsr : Word) : Word := fpcsr ||| (flags.setWidth 32 <<< 3)

/-- The condition of Floating Point (R171, R216): FPEE and a flag set by this instruction, or, where `sticky` says that
flags already set count, by an earlier one (U14). -/
def fpRaises (sticky : Bool) (flags : BitVec 9) (fpcsr : Word) : Bool :=
  fpee fpcsr && (decide (flags ≠ 0) || (decide (fpFlags fpcsr ≠ 0) && sticky))

/-- The SR bit that K[4:0] names (R121, GK11). -/
def srBitNamed (k : Half) (s : SR) : Bool := (packSr s).getLsbD (k.toNat % 32)

end Sys2Proof.Machine
end

