-- ==== Sys2Proof/Machine/Operands.lean ====
section
/-! DEFINITION. Operand forms: registers of a context, SPR numbers, jump targets (R20 to R23, R38, R49, R74, R152). -/

namespace Sys2Proof.Machine

/-- `cur` (R38): SR[CID] when fast context switching is implemented, else 0. -/
def cur (s : State) : CtxNum := if hasContexts s.cfg then s.sr.cid.toFin else 0

/-- Context `c` (R240). DESIGN CHOICE (log 28): all sixteen have storage, so that a context that is not implemented but is
current, which only l.rfe can bring about (R122), is read and written like any other, and one that l.rfe then returns through
(`returnContext`) is read like any other. -/
def context (s : State) (c : CtxNum) : Context := s.ctx[c]

/-- `gpr[c][r]` (R23); register 0 reads as 0 where it is hard-wired (R22, GK13). -/
def gprAt (s : State) (c : CtxNum) (r : RegNum) : Word :=
  if r = 0 ∧ s.cfg.r0 = .hardwired then 0 else (context s c).gpr[r]

/-- `x[r]`: register `r` of the current context (R7, R23). -/
def gpr (s : State) (r : RegNum) : Word := gprAt s (cur s) r

/-- No register field is an unimplemented register (R21, D30). -/
def regsImplemented (cfg : Config) (regs : List RegNum) : Bool :=
  regs.all fun r => decide (r.val < cfg.ngpr)

/-- `d`: the instruction at `pc` is in a delay slot (R25). -/
def inDelaySlot (s : State) : Bool :=
  match s.ds with
  | .none => false
  | .target _ _ => true

/-- The register the pending jump read, if there is one (R144). -/
def pendingReg (s : State) : Option RegNum :=
  match s.ds with
  | .none => none
  | .target _ r => r

/-- A 32-bit address is a multiple of 4 (R24, R74). -/
def aligned4 (a : Word) : Bool := decide (a.toNat % 4 = 0)

/-- What becomes of a new program counter taken from a register (R74). -/
inductive Target where
  | goes (t : Word)
  | raises
  | refuses
  deriving DecidableEq, Repr

/-- A target that is a multiple of 4 is taken as it is; another one by the policy (R74, D2, GK15). -/
def checkTarget (cfg : Config) (t : Word) : Target :=
  if aligned4 t then .goes t
  else match cfg.misaligned with
    | .refuse => .refuses
    | .ignoreLow => .goes ((t >>> 2) <<< 2)
    | .alignment => .raises

/-! ## Special-purpose registers -/

/-- The special-purpose registers of R49. -/
inductive Spr where
  | cpucfgr
  | sr
  | fpcsr
  | epcr (c : CtxNum)
  | eear (c : CtxNum)
  | esr (c : CtxNum)
  | gpr (c : CtxNum) (r : RegNum)
  | cxr
  deriving DecidableEq, Repr

/-- `SprNumber(ra, K) = (ra | zext_16(K))[15:0]` (R152). -/
def sprNumber (ra : Word) (k : Half) : Half := (ra ||| k.setWidth 32).setWidth 16

/-- A copy `c` exists when `c < NCTX` (R49, U12). -/
def copyOf (cfg : Config) (c : Nat) (f : CtxNum → Spr) : Option Spr :=
  if c < cfg.nctx then some (f (Fin.ofNat 16 c)) else none

/-- The implemented register an SPR number names (R49, R154, R157); none where it names none (R158, U12). -/
def sprOf (cfg : Config) (n : Half) : Option Spr :=
  let k := n.toNat
  if k = 2 then some .cpucfgr
  else if k = 17 then some .sr
  else if k = 20 then (if cfg.hasFpu then some .fpcsr else none)
  else if 32 ≤ k ∧ k < 48 then copyOf cfg (k - 32) .epcr
  else if 48 ≤ k ∧ k < 64 then copyOf cfg (k - 48) .eear
  else if 64 ≤ k ∧ k < 80 then copyOf cfg (k - 64) .esr
  else if 1024 ≤ k ∧ k < 1536 then
    (if cfg.shadowGprMap ∧ (k - 1024) % 32 < cfg.ngpr then
      copyOf cfg ((k - 1024) / 32) fun c => .gpr c (Fin.ofNat 32 (k - 1024))
    else none)
  else if cfg.cxrSpr = some n ∧ hasContexts cfg then some .cxr
  else none

/-- CXR as a word: `zext_16(SR.CID) ++ CCRS` (R41, R154). -/
def cxrWord (s : State) : Word := s.sr.cid.setWidth 16 ++ s.ccrs

/-- CPUCFGR as a read finds it: bit 10 is ND, the others are open (R44, R154; log 16). -/
def cpucfgrWord (s : State) : Word :=
  if s.cfg.nd then Config.freeCpucfgr s.draws ||| 0x400#32
  else Config.freeCpucfgr s.draws &&& 0xFFFFFBFF#32

/-- `SprRead` of an implemented register (R154). -/
def sprRead (p : Spr) (s : State) : Word :=
  match p with
  | .cpucfgr => cpucfgrWord s
  | .sr => packSr s.sr
  | .fpcsr => s.fpcsr
  | .epcr c => (context s c).epcr
  | .eear c => (context s c).eear
  | .esr c => (context s c).esr
  | .gpr c r => gprAt s c r
  | .cxr => cxrWord s

/-- `SprRead(n)` (R154); a number that names no implemented register is read by the policy (R158, U7, GK12). -/
def sprReadNumber (n : Half) (s : State) : Except Refusal Word :=
  match sprOf s.cfg n with
  | some p => .ok (sprRead p s)
  | none =>
    match s.cfg.unmappedSpr with
    | .refuse => .error .sprOutOfScope
    | .zero => .ok 0
    | .free => .ok (Config.freeSpr s.draws n)

/-- The registers user mode may read where SR[SUMRA] permits it: never CXR and never another context's (R250, GK12). -/
def userReadable (s : State) : Spr → Bool
  | .cpucfgr => true
  | .sr => true
  | .fpcsr => true
  | .epcr c => decide (c = cur s)
  | .eear c => decide (c = cur s)
  | .esr c => decide (c = cur s)
  | .gpr c _ => decide (c = cur s)
  | .cxr => false

/-- What l.mfspr reads in user mode under the policies `ignore` and `sumra` (R153, D15, GK12): 0, but the register
where SR[SUMRA] permits the read. -/
def userSprRead (n : Half) (s : State) : Except Refusal Word :=
  if s.cfg.userPriv = .sumra ∧ s.sr.sumra then
    match sprOf s.cfg n with
    | some p => if userReadable s p then .ok (sprRead p s) else .ok 0
    | none => sprReadNumber n s
  else .ok 0

end Sys2Proof.Machine
end

