-- ==== Sys2Proof/Machine/Ops.lean ====
section
/-! DEFINITION. Named operations over memory, registers and the state: reads and writes of memory, register writes, taking
an exception, reset, the return from an exception, translation. -/

namespace Sys2Proof.Machine

/-! ## Memory (R47, R70) -/

/-- Memory: the bytes written so far. An address not listed holds no value (R48; log 20). -/
abbrev Memory := List Host.Cell

/-- The canonical form: addresses strictly rising and inside the address space of 32 bits. -/
abbrev Memory.wf (m : Memory) : Prop :=
  m.Pairwise (fun x y => x.1 < y.1) ∧ ∀ x ∈ m, x.1 < 2 ^ 32

/-- The byte at an address, if one has been written. -/
def readByte (a : Nat) : Memory → Option Byte
  | [] => none
  | (b, v) :: m => if a = b then some v else readByte a m

/-- Memory with the byte at an address written, in canonical form. -/
def writeByte (a : Nat) (v : Byte) : Memory → Memory
  | [] => [(a, v)]
  | (b, w) :: m =>
    if a < b then (a, v) :: (b, w) :: m
    else if a = b then (a, v) :: m
    else (b, w) :: writeByte a v m

/-- The `n` bytes from `a` up, in the order of their addresses, which wrap at 2^32 (R8); none if one is unwritten. -/
def readBytes (m : Memory) (a : Word) : Nat → Option (List Byte)
  | 0 => some []
  | n + 1 =>
    match readByte a.toNat m, readBytes m (a + 1) n with
    | some b, some bs => some (b :: bs)
    | _, _ => none

/-- Memory with bytes written from `a` up. -/
def writeBytes (a : Word) : List Byte → Memory → Memory
  | [], m => m
  | b :: bs, m => writeBytes (a + 1) bs (writeByte a.toNat b m)

/-- The `n` addresses from `a` up. -/
def addresses (a : Word) : Nat → List Nat
  | 0 => []
  | n + 1 => a.toNat :: addresses (a + 1) n

/-- The value of bytes given most significant first (R72). -/
def wordOfBytes (bs : List Byte) : Word :=
  bs.foldl (fun acc b => (acc <<< 8) ||| b.setWidth 32) 0

/-- The low `n` bytes of a value, most significant first (R72). -/
def bytesOfWord (v : Word) : Nat → List Byte
  | 0 => []
  | n + 1 => (v >>> (8 * n)).setWidth 8 :: bytesOfWord v n

/-- The byte order in force (R72): big-endian, or little-endian by the parameter or by SR[LEE]. -/
def isBigEndian (s : State) : Bool := s.cfg.bigEndian && !s.sr.lee

/-- Bytes in the order of their addresses as bytes most significant first, and back (R72). -/
def inOrder (s : State) (bs : List Byte) : List Byte := if isBigEndian s then bs else bs.reverse

/-! ## Translation (R71) -/

/-- What `Translate` answers. -/
inductive Translation where
  | ok (pa : Word)
  | tlbMiss
  | pageFault
  deriving DecidableEq, Repr

/-- The MMU for a kind of access is present and enabled (R71, R31). -/
def translates (kind : AccessKind) (s : State) : Bool :=
  match kind with
  | .fetch => s.cfg.hasImmu && s.sr.ime
  | .load => s.cfg.hasDmmu && s.sr.dme
  | .store => s.cfg.hasDmmu && s.sr.dme

/-- The first matching entry's answer. -/
def mmuLookup (kind : AccessKind) (a : Word) (sm : Bool) : List MmuEntry → Option Walk
  | [] => none
  | e :: es => if e.kind = kind ∧ e.va = a ∧ e.sm = sm then some e.answer else mmuLookup kind a sm es

/-- `Translate(kind, a, SR)` (R71): the identity where the MMU is absent or disabled, else a TLB miss where no entry
matches, else what the entry answers. -/
def translateAddress (kind : AccessKind) (a : Word) (s : State) : Translation :=
  if translates kind s then
    match mmuLookup kind a s.sr.sm s.mmu with
    | none => .tlbMiss
    | some (.ok pa) => .ok pa
    | some .pageFault => .pageFault
  else .ok a

/-! ## Registers -/

/-- Context `c` changed by `f` (R240). -/
def updateContext (c : CtxNum) (f : Context → Context) (s : State) : State :=
  { s with ctx := s.ctx.set c (f (context s c)) }

/-- The storage of `gpr[c][r]` written. -/
def storeGpr (c : CtxNum) (r : RegNum) (v : Word) (s : State) : State :=
  updateContext c (fun k => { k with gpr := k.gpr.set r v }) s

/-- The write is one R144 forbids: in a delay slot, of the register the pending jump read. -/
def writesPendingReg (c : CtxNum) (r : RegNum) (s : State) : Bool :=
  decide (pendingReg s = some r) && decide (c = cur s)

/-- `gpr[c][r] <- v`, by the policies for the pending jump's register (R144) and for register 0 (R22). -/
def setGprAt (c : CtxNum) (r : RegNum) (v : Word) (s : State) : Except Refusal State :=
  if writesPendingReg c r s && s.cfg.slotWrite == .refuse then .error .slotWritesJumpRegister
  else if r = 0 then
    match s.cfg.r0 with
    | .ordinary => .ok (storeGpr c r v s)
    | .hardwired => .ok s
    | .refuse => if v = 0 then .ok (storeGpr c r v s) else .error .nonZeroWriteToR0
  else .ok (storeGpr c r v s)

/-- `x[r] <- v` (R7, R23). -/
def setGpr (r : RegNum) (v : Word) (s : State) : Except Refusal State := setGprAt (cur s) r v s

/-- Result writes in their order. -/
def setGprs : List RegWrite → State → Except Refusal State
  | [], s => .ok s
  | (r, v) :: ws, s =>
    match setGpr r v s with
    | .ok t => setGprs ws t
    | .error e => .error e

/-- `SprWrite` of an implemented register (R154, R155, R156, R157). -/
def sprWrite (p : Spr) (v : Word) (s : State) : Except Refusal State :=
  match p with
  | .cpucfgr => .ok s
  | .sr =>
    match srWrite s.cfg s.draws s.sr v with
    | .ok sr => .ok { s with sr := sr }
    | .error e => .error e
  | .fpcsr => .ok { s with fpcsr := v }
  | .epcr c => .ok (updateContext c (fun k => { k with epcr := v }) s)
  | .eear c => .ok (updateContext c (fun k => { k with eear := v }) s)
  | .esr c => .ok (updateContext c (fun k => { k with esr := v }) s)
  | .gpr c r => setGprAt c r v s
  | .cxr =>
    if (v.extractLsb' 16 16).toNat < s.cfg.nctx then
      .ok { s with ccrs := v.extractLsb' 0 16, sr := { s.sr with cid := v.extractLsb' 16 4 } }
    else .error .cidOutOfRange

/-- `SprWrite(n, v)` (R154); a write of a number that names no implemented register is refused or ignored by the policy
(R158, GK12). -/
def sprWriteNumber (n : Half) (v : Word) (s : State) : Except Refusal State :=
  match sprOf s.cfg n with
  | some p => sprWrite p v s
  | none =>
    match s.cfg.unmappedSpr with
    | .refuse => .error .sprOutOfScope
    | .zero => .ok s
    | .free => .ok s

/-- The program counter after an instruction that is no jump (R24, R142): the pending target in a delay slot, else the
next word. -/
def advance (s : State) : State :=
  match s.ds with
  | .none => { s with pc := s.pc + 4 }
  | .target t _ => { s with pc := t, ds := .none }

/-! ## Taking an exception (R224 to R232, R241 to R244) -/

/-- Fast context switching is implemented and enabled (R239, R32). -/
def switching (s : State) : Bool := hasContexts s.cfg && s.sr.ce

/-- SR[CID] would leave its range at this entry (R242). DESIGN CHOICE (log 10): so it does where it is out of range already,
which only l.rfe can bring about (R122); R242 names NCTX-1 alone. -/
def cidOverflows (s : State) : Bool := switching s && decide (s.cfg.nctx ≤ s.sr.cid.toNat + 1)

/-- `EpcrValue` (R226). -/
def epcrValue (e : Exc) (s : State) : Word :=
  if inDelaySlot s then s.pc - 4
  else if savesNext e then s.pc + 4
  else s.pc

/-- The vector base (R77, D4, GK8). -/
def vectorBaseOf (cfg : Config) (eph : Bool) : Word :=
  match cfg.vectorBase with
  | .fixed base => base
  | .eph => if eph then 0xF0000000 else 0

/-- The vector address (R231). -/
def vectorAddress (e : Exc) (s : State) : Word := vectorBaseOf s.cfg s.sr.eph + vectorOffset e

/-- The CID after entry: incremented with fast context switching on (R241), but not beyond the last context (R242). -/
def entryCid (s : State) : BitVec 4 :=
  if switching s && !cidOverflows s then s.sr.cid + 1 else s.sr.cid

/-- The three exception registers of the current context as entry leaves them (R226, R228, R229). -/
def savedContext (e : Exc) (ea : Word) (s : State) (k : Context) : Context :=
  { k with
    epcr := epcrValue e s
    esr := packSr s.sr
    eear := if writesEear s.cfg e then ea else k.eear }

/-- `Enter(E, a, d, ea)` at the instruction at `pc` (R224), without the overflow check. -/
def entered (e : Exc) (ea : Word) (s : State) : State :=
  { updateContext (cur s) (savedContext e ea s) s with
    sr := entrySr (inDelaySlot s) (entryCid s) (Config.freeOveKept s.draws) s.sr
    ccrs := if switching s then BitVec.ofNat 16 (cur s).val else s.ccrs
    ds := .none
    pc := vectorAddress e s }

/-- TAKING AN EXCEPTION: `Enter` of R224. On CID overflow the policy decides (R242, D21): refuse, or Range in place of the
exception, saved to the last context, the CID unchanged (log 10). -/
def enterException (e : Exc) (ea : Word) (s : State) : Host.Outcome State Fault Refusal :=
  if cidOverflows s then
    match s.cfg.cidOverflow with
    | .refuse => .refused .cidOverflow
    | .execute => .next (entered .range 0 s)
  else .next (entered e ea s)

/-- A context after a reset of a running machine: reset writes none of its registers, and what it does not write counts as
unwritten, so every one is open (R282, D12, D29, U8, U17; log 26). -/
def resetContext (n : Nat) (c : CtxNum) : Context where
  gpr := Vector.ofFn fun r => Config.freeResetGpr n c r
  epcr := Config.freeResetEpcr n c
  esr := Config.freeResetEsr n c
  eear := Config.freeResetEear n c

/-- `EnterReset` (R281); the registers it does not write are open (R282). CE, OV and the rest of SR as the family resets them
(GK9; log 11). DESIGN CHOICE (log 26): memory, the MMU's contents and the record of stores stay, where U17 leaves open
whether they do. -/
def enterReset (s : State) : State :=
  { s with
    sr := SR.reset
    ccrs := 0
    ds := .none
    pc := vectorBaseOf s.cfg false + vectorOffset .reset
    ctx := Vector.ofFn (resetContext s.draws)
    fpcsr := Config.freeResetFpcsr s.draws }

/-! ## Returning from an exception (R122, R243) -/

/-- The context l.rfe reads: the decremented CID with fast context switching on, else the current one (R122, R243). DESIGN
CHOICE (log 28): so it is, too, where SR[CID] is out of range (R35), and a context CID-1 that is not implemented is read like
any other; the spec is silent there. -/
def returnContext (s : State) : CtxNum :=
  if switching s then (s.sr.cid - 1).toFin else cur s

/-- SR as l.rfe restores it from an ESR word: every field, CID included (R122), the hard-wired bits as they are (log 13). -/
def restoredSr (cfg : Config) (esr : Word) : SR := fixCid cfg (unpackSr esr)

/-- PC and SR restored from context `c`, to the address `t` (R122). -/
def returned (c : CtxNum) (t : Word) (s : State) : State :=
  { s with pc := t, sr := restoredSr s.cfg (context s c).esr, ds := .none }

/-! ## The effect of one instruction -/

/-- What executing one instruction comes to (R9, R223 step 5). -/
inductive Effect where
  /-- it completes: the state after it, the program counter advanced -/
  | completes (t : State)
  /-- it raises `e` with effective address `ea`; entry starts from `t`, which is the state before the instruction
  (`raise`) or that state with the instruction's register writes applied (`raise_after`) -/
  | raises (e : Exc) (ea : Word) (t : State)
  | faults (f : Fault)
  | refuses (r : Refusal)
  deriving DecidableEq, Repr

/-- The outcome of an instruction that no interrupt replaces (R223 steps 5 and 7). -/
def commit : Effect → Host.Outcome State Fault Refusal
  | .completes t => .next t
  | .raises e ea t => enterException e ea t
  | .faults f => .fault f
  | .refuses r => .refused r

/-- A jump to `t`, which came from register `r` (R140, R141, R173), at an instruction that is not in a delay slot. -/
def jumpTo (t : Word) (r : Option RegNum) (s : State) : Effect :=
  match checkTarget s.cfg t with
  | .refuses => .refuses .misalignedTarget
  | .raises => .raises .alignment t s
  | .goes u =>
    if s.cfg.nd then .completes { s with pc := u }
    else .completes { s with pc := s.pc + 4, ds := .target u r }

/-- An instruction in user mode that `USER_PRIV_POLICY` stops (R123, R153): refused, or Illegal Instruction. -/
def privilegeEffect (s : State) : Effect :=
  match s.cfg.userPriv with
  | .refuse => .refuses .userPrivilege
  | _ => .raises .illegalInsn s.pc s

/-- The effect of an operation that may be refused, the program counter advanced after it. -/
def advancing : Except Refusal State → Effect
  | .ok t => .completes (advance t)
  | .error e => .refuses e

end Sys2Proof.Machine
end

