-- ==== Sys2Proof/Machine/ExceptionInsns.lean ====
section
/-! DEFINITION. l.sys, l.trap and l.rfe (40_exception_instructions.md). -/

namespace Sys2Proof.Machine

/-- `l.sys K` (R120): System Call; K is not used (D37). -/
def effectLSys (_k : Half) (s : State) : Effect := .raises .systemCall 0 s

/-- `l.sys K` (R120). -/
def execLSys (k : Half) (s : State) : Host.Outcome State Fault Refusal := commit (effectLSys k s)

/-- `l.trap K` (R121): Trap whatever K is (D20); the other readings of K are policies (GK11). -/
def effectLTrap (k : Half) (s : State) : Effect :=
  match s.cfg.trapPolicy with
  | .always => .raises .trap 0 s
  | .refuseIfClear => if srBitNamed k s.sr then .raises .trap 0 s else .refuses .trapConditionUnclear
  | .conditional => if srBitNamed k s.sr then .raises .trap 0 s else .completes (advance s)

/-- `l.trap K` (R121). -/
def execLTrap (k : Half) (s : State) : Host.Outcome State Fault Refusal := commit (effectLTrap k s)

/-- With fast context switching on, the CID field of the saved ESR is not the decremented CID `c` (R122, U13). -/
def esrCidAltered (c : CtxNum) (s : State) : Bool :=
  switching s && decide ((unpackSr (context s c).esr).cid.toFin ≠ c)

/-- `l.rfe` in supervisor mode (R122), reading context `c`. -/
def returnEffect (c : CtxNum) (s : State) : Effect :=
  match checkTarget s.cfg (context s c).epcr with
  | .refuses => .refuses .misalignedReturn
  | .raises => .raises .alignment (context s c).epcr s
  | .goes t => if esrCidAltered c s then .refuses .esrCidAltered else .completes (returned c t s)

/-- `l.rfe` (R122, R123, R124). -/
def effectLRfe (s : State) : Effect :=
  if s.sr.sm = false then privilegeEffect s
  else if inDelaySlot s then .refuses .rfeInDelaySlot
  else if switching s ∧ s.sr.cid = 0 then .refuses .cidUnderflow
  else returnEffect (returnContext s) s

/-- `l.rfe` (R122). -/
def execLRfe (s : State) : Host.Outcome State Fault Refusal := commit (effectLRfe s)

end Sys2Proof.Machine
end

