-- ==== Sys2Proof/Machine/Jump.lean ====
section
/-! DEFINITION. l.jr (41_jump_and_delay_slot.md). -/

namespace Sys2Proof.Machine

/-- `l.jr rB` (R140, R145). -/
def effectLJr (b : RegNum) (s : State) : Effect :=
  if inDelaySlot s then .refuses .jumpInDelaySlot
  else if regsImplemented s.cfg [b] then jumpTo (gpr s b) (some b) s
  else .raises .range 0 s

/-- `l.jr rB` (R140). -/
def execLJr (b : RegNum) (s : State) : Host.Outcome State Fault Refusal := commit (effectLJr b s)

end Sys2Proof.Machine
end

