-- ==== Sys2Proof/Machine/SprAccess.lean ====
section
/-! DEFINITION. l.mfspr and l.mtspr (42_spr_access.md). -/

namespace Sys2Proof.Machine

/-- User mode stops the instruction outright: the policies `refuse` and `illegal` (R153, D15). -/
def userStops (s : State) : Bool :=
  !s.sr.sm && (s.cfg.userPriv == .refuse || s.cfg.userPriv == .illegal)

/-- The value l.mfspr moves: `SprRead` in supervisor mode, what the policy gives in user mode (R150, R153). -/
def mfsprValue (n : Half) (s : State) : Except Refusal Word :=
  if s.sr.sm then sprReadNumber n s else userSprRead n s

/-- `x[D] <- v` of l.mfspr: the R144 check comes before the read of the SPR (R150). -/
def mfsprWrite (d a : RegNum) (k : Half) (s : State) : Except Refusal State :=
  if writesPendingReg (cur s) d s && s.cfg.slotWrite == .refuse then .error .slotWritesJumpRegister
  else
    match mfsprValue (sprNumber (gpr s a) k) s with
    | .ok v => setGpr d v s
    | .error e => .error e

/-- `l.mfspr rD,rA,K` (R150, R153). -/
def effectLMfspr (d a : RegNum) (k : Half) (s : State) : Effect :=
  if userStops s then privilegeEffect s
  else if regsImplemented s.cfg [d, a] then advancing (mfsprWrite d a k s)
  else .raises .range 0 s

/-- `l.mfspr rD,rA,K` (R150). -/
def execLMfspr (d a : RegNum) (k : Half) (s : State) : Host.Outcome State Fault Refusal :=
  commit (effectLMfspr d a k s)

/-- What l.mtspr writes: `SprWrite` in supervisor mode, nothing in user mode (R151, R153). -/
def mtsprWrite (a b : RegNum) (k : Half) (s : State) : Except Refusal State :=
  if s.sr.sm then sprWriteNumber (sprNumber (gpr s a) k) (gpr s b) s else .ok s

/-- `l.mtspr rA,rB,K` (R151, R153). -/
def effectLMtspr (a b : RegNum) (k : Half) (s : State) : Effect :=
  if userStops s then privilegeEffect s
  else if regsImplemented s.cfg [a, b] then advancing (mtsprWrite a b k s)
  else .raises .range 0 s

/-- `l.mtspr rA,rB,K` (R151). -/
def execLMtspr (a b : RegNum) (k : Half) (s : State) : Host.Outcome State Fault Refusal :=
  commit (effectLMtspr a b k s)

end Sys2Proof.Machine
end

