-- ==== Sys2Proof/Machine/Dispatch.lean ====
section
/-! DEFINITION. The meaning of each instruction, one arm per constructor. -/

namespace Sys2Proof.Machine

def exec (i : Instr) (s : State) : Host.Outcome State Fault Refusal :=
  match i with
  | .lSys k => Sys2Proof.Machine.execLSys k s
  | .lTrap k => Sys2Proof.Machine.execLTrap k s
  | .lRfe => Sys2Proof.Machine.execLRfe s
  | .lJr b => Sys2Proof.Machine.execLJr b s
  | .lMfspr d a k => Sys2Proof.Machine.execLMfspr d a k s
  | .lMtspr a b k => Sys2Proof.Machine.execLMtspr a b k s

end Sys2Proof.Machine
end

