-- ==== Sys2Proof/Machine/OtherClasses.lean ====
section
/-! DEFINITION. The rest of the instruction set as abstract classes (43_other_instruction_classes.md): what each class does
with what one instruction of it presents. -/

namespace Sys2Proof.Machine

/-- What an access of a load or store ends in (R85). -/
inductive Access where
  | reaches (pa : Word)
  | raises (e : Exc)
  deriving DecidableEq, Repr

/-- `MemAccess` up to the access itself (R85): alignment, translation, bus, in the order of their priority numbers. -/
def memAccess (kind : AccessKind) (ea : Word) (n : Nat) (busError : Bool) (s : State) : Access :=
  if ea.toNat % n ≠ 0 then .raises .alignment
  else match translateAddress kind ea s with
    | .tlbMiss => .raises .dtlbMiss
    | .pageFault => .raises .dataPageFault
    | .ok pa => if busError then .raises .busError else .reaches pa

/-- The low `8 * n` bits of a loaded value, sign- or zero-extended (R170). -/
def extendLoaded (width : Width) (signed : Bool) (v : Word) : Word :=
  match width with
  | .byte => if signed then (v.setWidth 8).signExtend 32 else (v.setWidth 8).setWidth 32
  | .half => if signed then (v.setWidth 16).signExtend 32 else (v.setWidth 16).setWidth 32
  | .word => v

/-- Memory after a store of the low bytes of `v` at `pa`; the addresses are recorded (R82, R85). -/
def storeBytes (pa : Word) (width : Width) (v : Word) (s : State) : State :=
  { s with
    mem := writeBytes pa (inOrder s (bytesOfWord v width.bytes)) s.mem
    stored := addresses pa width.bytes ++ s.stored }

/-- A load (R170). DESIGN CHOICE (log 24): it writes its destination and no base register. -/
def effectLoad (busError : Bool) (ea : Word) (width : Width) (regs : List RegNum) (dest : RegNum) (signed : Bool)
    (s : State) : Effect :=
  if regsImplemented s.cfg (dest :: regs) then
    match memAccess .load ea width.bytes busError s with
    | .raises e => .raises e ea s
    | .reaches pa =>
      match readBytes s.mem pa width.bytes with
      | none => .faults .unwrittenMemory
      | some bs => advancing (setGpr dest (extendLoaded width signed (wordOfBytes (inOrder s bs))) s)
  else .raises .range 0 s

/-- A store (R170). DESIGN CHOICE (log 24): it writes no register. -/
def effectStore (busError : Bool) (ea : Word) (width : Width) (regs : List RegNum) (v : Word) (s : State) : Effect :=
  if regsImplemented s.cfg regs then
    match memAccess .store ea width.bytes busError s with
    | .raises e => .raises e ea s
    | .reaches pa => .completes (advance (storeBytes pa width v s))
  else .raises .range 0 s

/-- A floating-point instruction (R171, R233): results and flags are written, then the exception is raised. Without an
FPU no flag is set and nothing is raised (D36). -/
def effectFloatingPoint (regs : List RegNum) (writes : List RegWrite) (flags : BitVec 9) (s : State) : Effect :=
  if regsImplemented s.cfg (regs ++ writes.map Prod.fst) then
    match setGprs writes s with
    | .error e => .refuses e
    | .ok t =>
      if s.cfg.hasFpu then
        let u := { t with fpcsr := orFpFlags flags t.fpcsr }
        if fpRaises (Config.freeStickyCounts s.draws) flags s.fpcsr then .raises .floatingPoint 0 u
        else .completes (advance u)
      else .completes (advance t)
  else .raises .range 0 s

/-- The destination registers of an arithmetic instruction that raised Range hold open values (U15); register 0 is left
alone where a write of it is not an ordinary one. DESIGN CHOICE (log 24); a write that R144 or R22 refuses never comes here. -/
def openResults (writes : List RegWrite) (s : State) : State :=
  writes.foldl
    (fun t w =>
      if w.1 = 0 ∧ s.cfg.r0 ≠ .ordinary then t
      else storeGpr (cur s) w.1 (Config.freeRangeResult s.draws w.1) t)
    s

/-- A flag-setting arithmetic instruction (R172). When it raises Range, its result registers and SR[OV] are open (U15).
DESIGN CHOICE (log 6, 24): a write that the policies for the pending jump's register (R144) or register 0 (R22) refuse is
refused before the flag raises Range, since the write may be made before the exception (U15). -/
def effectArith (regs : List RegNum) (writes : List RegWrite) (ov cy f : Option Bool) (s : State) : Effect :=
  if regsImplemented s.cfg (regs ++ writes.map Prod.fst) then
    match setGprs writes s with
    | .error e => .refuses e
    | .ok t =>
      if rangeByFlag ov s.sr then
        .raises .range 0 { openResults writes s with sr := { s.sr with ov := Config.freeRangeOv s.draws } }
      else .completes (advance { t with sr := arithSr ov cy f t.sr })
  else .raises .range 0 s

/-- Where a branch that does not transfer control goes on (R173): past its delay slot; whether the next instruction counts
as a delay-slot instruction is open (U16). -/
def untakenBranch (s : State) : State :=
  if s.cfg.nd then { s with pc := s.pc + 4 }
  else if Config.freeUntakenSlot s.draws then { s with pc := s.pc + 4, ds := .target (s.pc + 8) none }
  else { s with pc := s.pc + 4 }

/-- A jump or branch (R173, R141, R145). Its result writes (a link register) are made before control passes. -/
def effectJump (regs : List RegNum) (taken : Bool) (target : Word) (targetReg : Option RegNum) (writes : List RegWrite)
    (s : State) : Effect :=
  if inDelaySlot s then .refuses .jumpInDelaySlot
  else if regsImplemented s.cfg (targetReg.toList ++ regs ++ writes.map Prod.fst) then
    match setGprs writes s with
    | .error e => .refuses e
    | .ok t =>
      if taken then
        match jumpTo target targetReg t with
        | .raises e ea _ => .raises e ea s
        | other => other
      else .completes (untakenBranch t)
  else .raises .range 0 s

/-- A plain instruction (R175). -/
def effectPlain (regs : List RegNum) (writes : List RegWrite) (s : State) : Effect :=
  if regsImplemented s.cfg (regs ++ writes.map Prod.fst) then advancing (setGprs writes s)
  else .raises .range 0 s

/-- The effect of an instruction of an abstract class, from what it presents; `busError` is the bus's answer to its
access (R170 to R175). -/
def effectPresented (busError : Bool) (p : Presented) (s : State) : Effect :=
  match p with
  | .load ea width regs dest signed => effectLoad busError ea width regs dest signed s
  | .store ea width regs v => effectStore busError ea width regs v s
  | .floatingPoint regs writes flags => effectFloatingPoint regs writes flags s
  | .arith regs writes ov cy f => effectArith regs writes ov cy f s
  | .jump regs taken target targetReg writes => effectJump regs taken target targetReg writes s
  | .plain regs writes => effectPlain regs writes s

end Sys2Proof.Machine
end

