-- ==== Sys2Proof/Machine/StepOps.lean ====
section
/-! DEFINITION. The parts of one step (R223): the inputs, the fetch, the class of a word, what takes an instruction's place,
their order, and the placing of an instruction to be fetched. -/

namespace Sys2Proof.Machine

/-- The effect of an instruction, which `exec` commits: what a step looks at before it lets an interrupt in (R223). -/
def effect (i : Instr) (s : State) : Effect :=
  match i with
  | .lSys k => effectLSys k s
  | .lTrap k => effectLTrap k s
  | .lRfe => effectLRfe s
  | .lJr b => effectLJr b s
  | .lMfspr d a k => effectLMfspr d a k s
  | .lMtspr a b k => effectLMtspr a b k s

/-- The inputs of the next step (R45); quiet when none is left (log 2). -/
def nextInputs (s : State) : Inputs := s.inputs.headD .quiet

/-- The state the step works on: its inputs taken off the list, the MMU as the environment leaves it, a new number for
the step's free values (log 2, 22, 33). -/
def beginStep (s : State) : State :=
  { s with
    inputs := s.inputs.tail
    mmu := (nextInputs s).mmu.getD s.mmu
    draws := s.draws + 1 }

/-! ## Fetch (R84) -/

/-- What a fetch ends in. -/
inductive Fetched where
  | bytes (bs : List Byte)
  | raises (e : Exc)
  | faults (f : Fault)
  | refuses (r : Refusal)
  deriving DecidableEq, Repr

/-- One of the four bytes at `pa` has been stored to since launch (R82). -/
def storedSinceLaunch (pa : Word) (s : State) : Bool := (addresses pa 4).any fun a => s.stored.contains a

/-- The bytes of the instruction at physical address `pa`, most significant first. -/
def fetchBytes (pa : Word) (s : State) : Fetched :=
  if s.cfg.storedFetch = .refuse ∧ storedSinceLaunch pa s then .refuses .fetchAfterStore
  else match readBytes s.mem pa 4 with
    | none => .faults .unwrittenMemory
    | some bs => .bytes (inOrder s bs)

/-- `Fetch(pc)` (R84); `busError` is the bus's answer. -/
def fetch (busError : Bool) (s : State) : Fetched :=
  match translateAddress .fetch s.pc s with
  | .tlbMiss => .raises .itlbMiss
  | .pageFault => .raises .insnPageFault
  | .ok pa => if busError then .raises .busError else fetchBytes pa s

/-- `Classify(w)` (R105): the first row of the word. -/
def classOf (w : Word) : List (Word × WordClass) → Option WordClass
  | [] => none
  | (v, c) :: rows => if v = w then some c else classOf w rows

/-! ## What takes the place of an instruction (R221, R223 step 6, R217) -/

/-- A debug unit's Trap is asserted (R217, D7). -/
def debugAsserted (inp : Inputs) (s : State) : Bool := s.cfg.hasDebug && inp.debugTrap

/-- The debug unit's Trap wins over a synchronous exception of the instruction: by the priority numbers, at equal numbers
by a draw (R220, R221, D7). -/
def debugWins (e : Exc) (s : State) : Bool :=
  decide (priority false .trap < priority false e) ||
    (decide (priority false e = priority false .trap) && Config.freeDebugFirst s.draws)

/-- The interrupt a step takes, if one is asserted and enabled (R223 step 6, R252, R253); the order of two is open (D6). -/
def interruptTaken (inp : Inputs) (s : State) : Option Exc :=
  let t := s.cfg.hasTick && inp.tickIrq && s.sr.tee
  let x := s.cfg.hasPic && inp.extIrq && s.sr.iee
  if t && x then some (if Config.freeTickFirst s.draws then .tickTimer else .externalInterrupt)
  else if t then some .tickTimer
  else if x then some .externalInterrupt
  else none

/-- The exception entered in place of an instruction with this effect, if one is (R223 steps 5 and 6, R217). DESIGN CHOICE
(log 25): D7 does not say whether the debug unit's Trap takes the place of an instruction that the model refuses or faults
on; it does not here. -/
def replacement (inp : Inputs) (eff : Effect) (s : State) : Option Exc :=
  match eff with
  | .raises e _ _ => if debugAsserted inp s && debugWins e s then some .trap else none
  | .completes _ => if debugAsserted inp s then some .trap else interruptTaken inp s
  | .faults _ => none
  | .refuses _ => none

/-- An instruction of an abstract class, when one of the class is presented (R105). -/
def presentedOfClass (c : InsnClass) (p : Option Presented) : Option Presented :=
  p.filter fun q => decide (q.insnClass = c)

/-! ## The step's parts in order (R223) -/

/-- The outcome of an instruction with effect `eff` whose own outcome is `out`: an interrupt or the debug unit may take
its place (R223 steps 5 to 7). -/
def settleStep (inp : Inputs) (eff : Effect) (out : Host.Outcome State Fault Refusal) (s : State) :
    Host.Outcome State Fault Refusal :=
  match replacement inp eff s with
  | some e => enterException e 0 s
  | none => out

/-- A word that is none of the six instructions (R105, R223 step 4). -/
def stepOther (inp : Inputs) (w : Word) (s : State) : Host.Outcome State Fault Refusal :=
  match classOf w s.cfg.classify with
  | none => .refused .wordNotClassified
  | some .illegal => enterException .illegalInsn s.pc s
  | some (.other c) =>
    match presentedOfClass c inp.presented with
    | none => .refused (.noSemantics c)
    | some p =>
      let eff := effectPresented inp.dataBusError p s
      settleStep inp eff (commit eff) s

/-- The bytes at the program counter, decoded and executed (R223 steps 4 to 7). -/
def stepBytes (inp : Inputs) (bs : List Byte) (s : State) : Host.Outcome State Fault Refusal :=
  match decodeBytes bs with
  | .ok i => settleStep inp (effect i s) (exec i s) s
  | .error _ => stepOther inp (wordOfBytes bs) s

/-- The step with its inputs `inp`, from the state `s` it works on (R223). -/
def stepWith (inp : Inputs) (s : State) : Host.Outcome State Fault Refusal :=
  if inp.reset then .next (enterReset s)
  else if s.sr.lee ∧ s.cfg.littleEndian = .refuse then .refused .littleEndianState
  else if aligned4 s.pc then
    match fetch inp.fetchBusError s with
    | .raises e => enterException e s.pc s
    | .faults f => .fault f
    | .refuses r => .refused r
    | .bytes bs => stepBytes inp bs s
  else .refused .misalignedPc

/-! ## Placing an instruction -/

/-- The physical address at which the next step fetches: the translation of `pc` by the MMU as it is then (R71, R84). -/
def fetchAddress (s : State) : Word :=
  match translateAddress .fetch s.pc (beginStep s) with
  | .ok pa => pa
  | .tlbMiss => s.pc
  | .pageFault => s.pc

/-- `s` with the word `w` as the instruction the next step fetches: its four bytes in memory, and those addresses as part of
the launch image (R82, R283; log 27). -/
def placeInstruction (w : Word) (s : State) : State :=
  let pa := fetchAddress s
  { s with
    mem := writeBytes pa (inOrder s (fourOfWord w)) s.mem
    stored := s.stored.filter fun a => !(addresses pa 4).contains a }

end Sys2Proof.Machine
end

