-- ==== Sys2Proof/Machine/Step.lean ====
section
/-! DEFINITION. One step of the machine (R223), and the placing of an instruction where the step fetches. -/

namespace Sys2Proof.Machine

/-- One step (R223). -/
def step (s : State) : Host.Outcome State Fault Refusal := stepWith (nextInputs s) (beginStep s)

/-- `s` with the instruction whose bits are `w` stored where the next step fetches (log 27). -/
def State.withFetchWord (s : State) (nbits w : Nat) : State := placeInstruction (tableWord nbits w) s

end Sys2Proof.Machine
end

