-- ==== Sys2Proof/Safety.lean ====
section
/-! DEFINITION. What counts as a good state and a safe run, in the terms the statements use. -/

namespace Sys2Proof.Machine

/-- A delay slot exists only where the implementation has them, and its target is a multiple of 4 (R24, R25). -/
abbrev DelaySlot.good (nd : Bool) : DelaySlot → Prop
  | .none => True
  | .target t _ => nd = false ∧ t.toNat % 4 = 0

/-- The invariant of the machine: the configuration is one the spec allows, `pc` is a multiple of 4 (R24), the delay slot
is good (R25), SR[CID] is 0 where there is one context (R35), and memory is in its canonical form. -/
structure Invariant (s : State) : Prop where
  cfg : s.cfg.wellFormed = true
  pc : s.pc.toNat % 4 = 0
  ds : s.ds.good s.cfg.nd
  cid : s.cfg.nctx = 1 → s.sr.cid = 0
  mem : Memory.wf s.mem

/-- SR[CID] names a context that exists: its legal values (R35). -/
abbrev CidLegal (s : State) : Prop := s.sr.cid.toNat < s.cfg.nctx

/-- `END_OF_RUN` at a designated address (R261, D23). -/
def EndOfRun (a : Word) (s : State) : Prop := s.pc = a

/-- Every input of a list leaves reset and the two interrupt lines unasserted and the bus without error: the premises of
the spec's programs (R45, 95_test_vectors.md Part 3). -/
def QuietInputs (l : List Inputs) : Prop :=
  ∀ i ∈ l, i.reset = false ∧ i.tickIrq = false ∧ i.extIrq = false ∧ i.debugTrap = false ∧
    i.fetchBusError = false ∧ i.dataBusError = false

/-- A run of `n` steps that neither faults nor is refused. -/
def SafeRun (n : Nat) (s : State) : Prop :=
  match n with
  | 0 => True
  | n + 1 => ∃ t, step s = .next t ∧ SafeRun n t

end Sys2Proof.Machine
end

