-- ==== Sys2Proof/Certificates/Slice0/Obligations.lean ====
section
/-! DEFINITION. The statements for the provers, one definition each, and the predicates they share. -/

namespace Sys2Proof.Machine

/-- What taking an exception leaves (R224 to R232, R241, R244): `offset` is the vector offset, `epcr` and `eear` are what
the current copies of EPCR and EEAR hold after it; everything not listed is as before. SR[OVE] is not fixed: it may be
cleared (D28). -/
structure EntersAs (offset epcr eear : Word) (s t : State) : Prop where
  pc : t.pc = vectorBaseOf s.cfg s.sr.eph + offset
  ds : t.ds = .none
  epcr : (context t (cur s)).epcr = epcr
  esr : (context t (cur s)).esr = packSr s.sr
  eear : (context t (cur s)).eear = eear
  gpr : (context t (cur s)).gpr = (context s (cur s)).gpr
  otherContexts : ∀ c, c ≠ cur s → context t c = context s c
  newSr : t.sr =
    { s.sr with
      sm := true
      tee := false
      iee := false
      dme := false
      ime := false
      dsx := !decide (s.ds = .none)
      ove := t.sr.ove
      cid := t.sr.cid }
  ove : t.sr.ove = true → s.sr.ove = true
  cid : t.sr.cid = if 1 < s.cfg.nctx ∧ s.sr.ce = true then s.sr.cid + 1 else s.sr.cid
  ccrs : t.ccrs = if 1 < s.cfg.nctx ∧ s.sr.ce = true then s.sr.cid.setWidth 16 else s.ccrs
  memory : ∀ a, readByte a t.mem = readByte a s.mem
  rest : t = { s with pc := t.pc, ds := t.ds, ctx := t.ctx, sr := t.sr, ccrs := t.ccrs }

/-- The EPCR value of a `current`-class exception (R226). -/
def currentEpcr (s : State) : Word := if s.ds = .none then s.pc else s.pc - 4

/-- The EPCR value of a `next`-class synchronous exception (R226). -/
def nextEpcr (s : State) : Word := if s.ds = .none then s.pc + 4 else s.pc - 4

/-- EEAR of the current context. -/
def currentEear (s : State) : Word := (context s (cur s)).eear

/-- The program counter after an instruction that is no jump (R24, R142). -/
structure Advanced (s t : State) : Prop where
  plain : s.ds = .none → t.pc = s.pc + 4
  slot : ∀ a r, s.ds = .target a r → t.pc = a
  ds : t.ds = .none

/-- Register `d` of context `c` is `v` and nothing else is written but `pc` and `DS`. -/
structure OnlyGprWritten (c : CtxNum) (d : RegNum) (v : Word) (s t : State) : Prop where
  value : (context t c).gpr[d] = v
  otherRegs : ∀ r, r ≠ d → (context t c).gpr[r] = (context s c).gpr[r]
  sameContext : context t c = { context s c with gpr := (context t c).gpr }
  otherContexts : ∀ e, e ≠ c → context t e = context s e
  memory : ∀ a, readByte a t.mem = readByte a s.mem
  rest : t = { s with pc := t.pc, ds := t.ds, ctx := t.ctx }

/-- Context `c` is `k` and nothing else is written but `pc` and `DS`. -/
structure OnlyContextWritten (c : CtxNum) (k : Context) (s t : State) : Prop where
  value : context t c = k
  otherContexts : ∀ e, e ≠ c → context t e = context s e
  memory : ∀ a, readByte a t.mem = readByte a s.mem
  rest : t = { s with pc := t.pc, ds := t.ds, ctx := t.ctx }

/-- The value a read of a special-purpose register returns (R154). CPUCFGR's bits other than ND are open. -/
def SprHolds (s : State) (p : Spr) (v : Word) : Prop :=
  match p with
  | .cpucfgr => v.getLsbD 10 = s.cfg.nd
  | .sr => v = packSr s.sr
  | .fpcsr => v = s.fpcsr
  | .epcr c => v = (context s c).epcr
  | .eear c => v = (context s c).eear
  | .esr c => v = (context s c).esr
  | .gpr c r => v = gprAt s c r
  | .cxr => v = s.sr.cid.setWidth 16 ++ s.ccrs

/-- User mode may read the register where SR[SUMRA] permits it (log 4): neither CXR nor another context's. -/
def UserMayRead (s : State) (p : Spr) : Prop :=
  p ≠ .cxr ∧ ∀ c, (p = .epcr c ∨ p = .eear c ∨ p = .esr c ∨ ∃ r, p = .gpr c r) → c = cur s

/-- A write of register `d` of the current context is an ordinary one: R144 does not forbid it, and `d` is not a register 0
that discards or refuses writes (R22). -/
structure OrdinaryWrite (s : State) (d : RegNum) : Prop where
  slot : s.cfg.slotWrite = .refuse → pendingReg s ≠ some d
  r0 : d = 0 → s.cfg.r0 = .ordinary

/-- The result write `w` is not refused: neither as a write of the pending jump's register (R144) nor by the cautious reading
of R22. -/
structure WriteAllowed (s : State) (w : RegWrite) : Prop where
  slot : s.cfg.slotWrite = .refuse → pendingReg s ≠ some w.1
  r0 : w.1 = 0 → s.cfg.r0 = .refuse → w.2 = 0

/-- What register `r` of the current context holds after the result writes `ws` in their order: the last value written to it,
else the old one; a hard-wired register 0 (R22) keeps what it has. -/
def resultOf (s : State) (ws : List RegWrite) (r : RegNum) : Word :=
  let old := (context s (cur s)).gpr[r]
  if r = 0 ∧ s.cfg.r0 = .hardwired then old else (ws.reverse.lookup r).getD old

/-- Nothing is written but registers among `regs` of the current context, and `pc` and `DS`. -/
structure OnlyRegsWritten (regs : List RegNum) (s t : State) : Prop where
  otherRegs : ∀ r, r ∉ regs → (context t (cur s)).gpr[r] = (context s (cur s)).gpr[r]
  sameContext : context t (cur s) = { context s (cur s) with gpr := (context t (cur s)).gpr }
  otherContexts : ∀ e, e ≠ cur s → context t e = context s e
  memory : ∀ a, readByte a t.mem = readByte a s.mem
  rest : t = { s with pc := t.pc, ds := t.ds, ctx := t.ctx }

/-- The result writes `ws` are made and nothing else is written but `pc` and `DS`. -/
structure ResultsWritten (ws : List RegWrite) (s t : State) : Prop where
  values : ∀ r, (context t (cur s)).gpr[r] = resultOf s ws r
  frame : OnlyRegsWritten (ws.map Prod.fst) s t

/-- `out` is what an instruction comes to whose whole effect is the result write `w`: refused by the policies for it, or
completed with it made. -/
structure WritesResult (w : RegWrite) (s : State) (out : Host.Outcome State Fault Refusal) : Prop where
  slot : s.cfg.slotWrite = .refuse → pendingReg s = some w.1 → out = .refused .slotWritesJumpRegister
  r0 : (s.cfg.slotWrite = .refuse → pendingReg s ≠ some w.1) → w.1 = 0 → s.cfg.r0 = .refuse → w.2 ≠ 0 →
    out = .refused .nonZeroWriteToR0
  completes : WriteAllowed s w → ∃ t, out = .next t ∧ ResultsWritten [w] s t ∧ Advanced s t

/-- The SPR number of l.mfspr and l.mtspr (R152). -/
def numberOf (s : State) (a : RegNum) (k : Half) : Half := (gpr s a ||| k.setWidth 32).setWidth 16

/-- The step gets past its fetch: reset is not asserted, SR[LEE] stops nothing, `pc` is a multiple of 4, and the fetch
gives the bytes `bs`. -/
structure FetchGives (s : State) (bs : List Byte) : Prop where
  noReset : (nextInputs s).reset = false
  order : s.sr.lee = false ∨ s.cfg.littleEndian = .execute
  pc : s.pc.toNat % 4 = 0
  fetched : fetch (nextInputs s).fetchBusError (beginStep s) = .bytes bs

/-- The next step fetches an instruction that decodes to `i`. -/
def NextIs (s : State) (i : Instr) : Prop := ∃ bs, FetchGives s bs ∧ decodeBytes bs = .ok i

/-- The next step comes to an instruction with the effect `eff`, whose own outcome is `out`: one of the six, or a word of a
class with what an instruction of that class presents. -/
def NextHas (s : State) (eff : Effect) (out : Host.Outcome State Fault Refusal) : Prop :=
  (∃ i, NextIs s i ∧ eff = effect i (beginStep s) ∧ out = exec i (beginStep s)) ∨
  (∃ b0 b1 b2 b3 p, FetchGives s [b0, b1, b2, b3] ∧ (∀ i, decode (wordOfFour b0 b1 b2 b3) ≠ .ok i) ∧
    classOf (wordOfFour b0 b1 b2 b3) s.cfg.classify = some (.other p.insnClass) ∧ (nextInputs s).presented = some p ∧
    eff = effectPresented (nextInputs s).dataBusError p (beginStep s) ∧ out = commit eff)

/-- The debug unit asserts no trap at the next step. -/
def NoDebugTrap (s : State) : Prop := (s.cfg.hasDebug && (nextInputs s).debugTrap) = false

/-- Tick Timer is asserted and enabled at the next step (R252). -/
def TickPending (s : State) : Prop := s.cfg.hasTick = true ∧ (nextInputs s).tickIrq = true ∧ s.sr.tee = true

/-- External Interrupt is asserted and enabled at the next step (R253). -/
def ExtPending (s : State) : Prop := s.cfg.hasPic = true ∧ (nextInputs s).extIrq = true ∧ s.sr.iee = true

end Sys2Proof.Machine

open Sys2Proof Sys2Proof.Machine

/-! ## Encoding -/

/-- R104, R108: decoding an encoded instruction, as a word and as bytes, gives it back, whatever its operands. -/
def Obligations.DecodeOfEncode : Prop :=
  ∀ i : Instr, decode (encode i) = .ok i ∧ decodeBytes (encodeBytes i) = .ok i

/-- R104, R106: a word that decodes is the encoding of the instruction it decodes to; no bit of it is ignored. -/
def Obligations.EncodeOfDecode : Prop :=
  ∀ (w : Word) (i : Instr), decode w = .ok i → encode i = w

/-- Words of 95_test_vectors.md section 2.7 (E2, E5, E6, E7, E10, E13, E16, E18) decode to the instructions listed there. -/
def Obligations.SpecWordsDecode : Prop :=
  decode 0x20000001 = .ok (.lSys 1) ∧ decode 0x21000001 = .ok (.lTrap 1) ∧ decode 0x24000000 = .ok .lRfe ∧
    decode 0x44004800 = .ok (.lJr 9) ∧ decode 0xB4600020 = .ok (.lMfspr 3 0 0x20) ∧
    decode 0xB7FFFFFF = .ok (.lMfspr 31 31 0xFFFF) ∧ decode 0xC0202011 = .ok (.lMtspr 0 4 0x0811) ∧
    decode 0xC3FFFFFF = .ok (.lMtspr 31 31 0xFFFF)

/-- R105, R106, R107: a word that matches no row of R104 goes to `Classify`: illegal words raise Illegal Instruction,
words of a class execute through what is presented, and a word with no class or no presentation is refused. -/
def Obligations.OtherWordsGoToClassify : Prop :=
  ∀ (inp : Inputs) (s : State) (b0 b1 b2 b3 : Byte),
    let w := wordOfFour b0 b1 b2 b3
    w &&& 0xFFFF0000#32 ≠ 0x20000000#32 → w &&& 0xFFFF0000#32 ≠ 0x21000000#32 → w ≠ 0x24000000#32 →
    w &&& 0xFFFF07FF#32 ≠ 0x44000000#32 → w &&& 0xFC000000#32 ≠ 0xB4000000#32 →
    w &&& 0xFC000000#32 ≠ 0xC0000000#32 →
      (∀ i, decode w ≠ .ok i) ∧
      (classOf w s.cfg.classify = none → stepBytes inp [b0, b1, b2, b3] s = .refused .wordNotClassified) ∧
      (classOf w s.cfg.classify = some .illegal →
        stepBytes inp [b0, b1, b2, b3] s = enterException .illegalInsn s.pc s) ∧
      (∀ c p, classOf w s.cfg.classify = some (.other c) → inp.presented = some p → p.insnClass = c →
        replacement inp (effectPresented inp.dataBusError p s) s = none →
        stepBytes inp [b0, b1, b2, b3] s = commit (effectPresented inp.dataBusError p s)) ∧
      (∀ c, classOf w s.cfg.classify = some (.other c) → (∀ p, inp.presented = some p → p.insnClass ≠ c) →
        stepBytes inp [b0, b1, b2, b3] s = .refused (.noSemantics c))

/-! ## The exception instructions -/

/-- R120: l.sys enters System Call whatever K and the mode are; EPCR is a + 4, or a - 4 in a delay slot. -/
def Obligations.SysEntersSystemCall : Prop :=
  ∀ (k : Half) (s : State), cidOverflows s = false →
    ∃ t, exec (.lSys k) s = .next t ∧ EntersAs 0xC00 (nextEpcr s) (currentEear s) s t

/-- R121: l.trap enters Trap whatever K is; EPCR is a, or a - 4 in a delay slot. The cautious model and the conditional
reading differ from that only where the SR bit that K[4:0] names is 0. -/
def Obligations.TrapEntersTrap : Prop :=
  ∀ (k : Half) (s : State),
    (cidOverflows s = false → (s.cfg.trapPolicy = .always ∨ (packSr s.sr).getLsbD (k.toNat % 32) = true) →
      ∃ t, exec (.lTrap k) s = .next t ∧ EntersAs 0xE00 (currentEpcr s) (currentEear s) s t) ∧
    (s.cfg.trapPolicy = .refuseIfClear → (packSr s.sr).getLsbD (k.toNat % 32) = false →
      exec (.lTrap k) s = .refused .trapConditionUnclear) ∧
    (s.cfg.trapPolicy = .conditional → (packSr s.sr).getLsbD (k.toNat % 32) = false →
      ∃ t, exec (.lTrap k) s = .next t ∧ Advanced s t ∧ t = { s with pc := t.pc, ds := t.ds })

/-- R122, R124: l.rfe in supervisor mode. In a delay slot it is refused; with fast context switching on it reads the
decremented context, refused from context 0 and where the saved CID is not that one; PC is restored from EPCR and SR,
every field, from ESR (CID stays 0 where there is one context, R35); nothing else changes. That a context which is not
implemented is read like any other is the model's choice (log 28; only where SR[CID] is out of range). -/
def Obligations.RfeRestoresPcAndSr : Prop :=
  ∀ s : State, s.sr.sm = true →
    let fast := decide (1 < s.cfg.nctx) && s.sr.ce
    let c : CtxNum := if fast then (s.sr.cid - 1).toFin else cur s
    let saved := unpackSr (context s c).esr
    (s.ds ≠ .none → exec .lRfe s = .refused .rfeInDelaySlot) ∧
    (s.ds = .none → fast = true → s.sr.cid = 0 → exec .lRfe s = .refused .cidUnderflow) ∧
    (s.ds = .none → (fast = true → s.sr.cid ≠ 0) → (context s c).epcr.toNat % 4 ≠ 0 → s.cfg.misaligned = .refuse →
      exec .lRfe s = .refused .misalignedReturn) ∧
    (s.ds = .none → fast = true → s.sr.cid ≠ 0 →
      (context s c).epcr.toNat % 4 = 0 ∨ s.cfg.misaligned = .ignoreLow → saved.cid.toFin ≠ c →
      exec .lRfe s = .refused .esrCidAltered) ∧
    (s.ds = .none → (fast = true → s.sr.cid ≠ 0 ∧ saved.cid.toFin = c) → (context s c).epcr.toNat % 4 = 0 →
      exec .lRfe s = .next
        { s with
          pc := (context s c).epcr
          sr := if 1 < s.cfg.nctx then saved else { saved with cid := 0 }
          ds := .none })

/-- Log 5 (the model's choice), with or without fast context switching on: l.rfe to an address that is no multiple of 4 clears
its low two bits or raises Alignment, by the policy; a context that is not implemented is read like any other (log 28, the
model's choice). -/
def Obligations.RfeOpenPoints : Prop :=
  ∀ s : State, s.sr.sm = true → s.ds = .none →
    let fast := decide (1 < s.cfg.nctx) && s.sr.ce
    let c : CtxNum := if fast then (s.sr.cid - 1).toFin else cur s
    let k := context s c
    let saved := unpackSr k.esr
    k.epcr.toNat % 4 ≠ 0 →
    ((fast = true → s.sr.cid ≠ 0 ∧ saved.cid.toFin = c) → s.cfg.misaligned = .ignoreLow →
      ∃ t, exec .lRfe s = .next t ∧ t.pc.toNat = k.epcr.toNat - k.epcr.toNat % 4 ∧
        t.sr = (if 1 < s.cfg.nctx then saved else { saved with cid := 0 }) ∧ t = { s with pc := t.pc, sr := t.sr }) ∧
    ((fast = true → s.sr.cid ≠ 0) → s.cfg.misaligned = .alignment → cidOverflows s = false →
      ∃ t, exec .lRfe s = .next t ∧ EntersAs 0x600 s.pc k.epcr s t)

/-- Log 4 (the model's choice among D15's): l.rfe in user mode is refused under the policy `refuse` and raises Illegal
Instruction under every other one. -/
def Obligations.RfeInUserMode : Prop :=
  ∀ s : State, s.sr.sm = false →
    (s.cfg.userPriv = .refuse → exec .lRfe s = .refused .userPrivilege) ∧
    (s.cfg.userPriv ≠ .refuse → cidOverflows s = false →
      ∃ t, exec .lRfe s = .next t ∧
        EntersAs 0x700 (currentEpcr s) (if s.cfg.illegalWritesEear then s.pc else currentEear s) s t)

/-- R122, R224, R243: l.rfe right after an exception was taken restores the SR of the interrupted code, whole, and goes to
the saved PC, with or without fast context switching. -/
def Obligations.ReturnUndoesEntry : Prop :=
  ∀ (e : Exc) (ea : Word) (s t : State), Invariant s → cidOverflows s = false → enterException e ea s = .next t →
    exec .lRfe t = .next
      { t with
        pc := if e = .systemCall ∨ e = .floatingPoint then nextEpcr s else currentEpcr s
        sr := s.sr }

/-! ## l.jr -/

/-- R140, R141: l.jr. -/
def Obligations.JrFollowsItsRule : Prop :=
  ∀ (b : RegNum) (s : State),
    (s.ds ≠ .none → exec (.lJr b) s = .refused .jumpInDelaySlot) ∧
    (s.ds = .none → s.cfg.ngpr ≤ b.val → cidOverflows s = false →
      ∃ t, exec (.lJr b) s = .next t ∧ EntersAs 0xB00 s.pc (currentEear s) s t) ∧
    (s.ds = .none → b.val < s.cfg.ngpr → (gpr s b).toNat % 4 ≠ 0 → s.cfg.misaligned = .refuse →
      exec (.lJr b) s = .refused .misalignedTarget) ∧
    (s.ds = .none → b.val < s.cfg.ngpr → (gpr s b).toNat % 4 = 0 → s.cfg.nd = false →
      exec (.lJr b) s = .next { s with pc := s.pc + 4, ds := .target (gpr s b) (some b) }) ∧
    (s.ds = .none → b.val < s.cfg.ngpr → (gpr s b).toNat % 4 = 0 → s.cfg.nd = true →
      exec (.lJr b) s = .next { s with pc := gpr s b })

/-- Log 5 (the model's choice): l.jr to an address that is no multiple of 4 clears its low two bits or raises Alignment,
by the policy. -/
def Obligations.MisalignedJumpPolicies : Prop :=
  ∀ (b : RegNum) (s : State), s.ds = .none → b.val < s.cfg.ngpr → (gpr s b).toNat % 4 ≠ 0 →
    (s.cfg.misaligned = .ignoreLow →
      ∃ t u, exec (.lJr b) s = .next t ∧ u.toNat = (gpr s b).toNat - (gpr s b).toNat % 4 ∧
        t = (if s.cfg.nd then { s with pc := u } else { s with pc := s.pc + 4, ds := .target u (some b) })) ∧
    (s.cfg.misaligned = .alignment → cidOverflows s = false →
      ∃ t, exec (.lJr b) s = .next t ∧ EntersAs 0x600 s.pc (gpr s b) s t)

/-- R142: l.mfspr or l.mtspr that completes in a delay slot goes to the pending target; outside one it goes to the next
word; the delay-slot state is consumed. -/
def Obligations.SlotCompletionTakesJump : Prop :=
  ∀ (i : Instr) (s u : State), (∃ d a k, i = .lMfspr d a k) ∨ (∃ a b k, i = .lMtspr a b k) →
    effect i s = .completes u → exec i s = .next u ∧ Advanced s u

/-! ## l.mfspr and l.mtspr -/

/-- R49, R154, R157: the SPR numbers and the registers they name. Copies of contexts, and shadow registers, that are not
implemented have none (U12); nor has any number outside the table. -/
def Obligations.SprNumbersNameRegisters : Prop :=
  ∀ (cfg : Config) (c : CtxNum) (r : RegNum), cfg.wellFormed = true →
    sprOf cfg 2 = some .cpucfgr ∧ sprOf cfg 17 = some .sr ∧
    sprOf cfg 20 = (if cfg.hasFpu then some .fpcsr else none) ∧
    sprOf cfg (BitVec.ofNat 16 (32 + c.val)) = (if c.val < cfg.nctx then some (.epcr c) else none) ∧
    sprOf cfg (BitVec.ofNat 16 (48 + c.val)) = (if c.val < cfg.nctx then some (.eear c) else none) ∧
    sprOf cfg (BitVec.ofNat 16 (64 + c.val)) = (if c.val < cfg.nctx then some (.esr c) else none) ∧
    sprOf cfg (BitVec.ofNat 16 (1024 + 32 * c.val + r.val)) =
      (if cfg.shadowGprMap = true ∧ c.val < cfg.nctx ∧ r.val < cfg.ngpr then some (.gpr c r) else none) ∧
    (∀ n, cfg.cxrSpr = some n → sprOf cfg n = if 1 < cfg.nctx then some .cxr else none) ∧
    (∀ n : Half, n ≠ 2 → n ≠ 17 → n ≠ 20 → n.toNat < 32 ∨ (80 ≤ n.toNat ∧ n.toNat < 1024) ∨ 1536 ≤ n.toNat →
      cfg.cxrSpr ≠ some n → sprOf cfg n = none)

/-- R150, R152, R154: l.mfspr in supervisor mode, where it is not refused by R144 or R22: rD receives the value of the
register the number names, `pc` advances, nothing else changes. -/
def Obligations.MfsprReadsRegister : Prop :=
  ∀ (d a : RegNum) (k : Half) (s : State) (p : Spr), s.sr.sm = true → d.val < s.cfg.ngpr → a.val < s.cfg.ngpr →
    OrdinaryWrite s d → sprOf s.cfg (numberOf s a k) = some p →
    ∃ t v, exec (.lMfspr d a k) s = .next t ∧ SprHolds s p v ∧ OnlyGprWritten (cur s) d v s t ∧ Advanced s t

/-- Log 3 (R22's reading and GK13's): l.mfspr with rD = 0 in supervisor mode. Where register 0 is hard-wired nothing is
written; under the spec's cautious policy a 0 is written and another value refused. Under it, in either mode, another value is
refused from an instruction of an abstract class as well, its earlier result writes allowed. That this refusal comes before
the Range of an arithmetic flag (R172) and before what a misaligned target of a jump of the class comes to (R74) is the
model's choice (log 24, log 6). (LoadCompletes has the loads.) -/
def Obligations.MfsprIntoR0 : Prop :=
  ∀ s : State, 0 < s.cfg.ngpr → (s.cfg.slotWrite = .refuse → pendingReg s ≠ some 0) →
    (∀ (a : RegNum) (k : Half) (p : Spr), s.sr.sm = true → a.val < s.cfg.ngpr → sprOf s.cfg (numberOf s a k) = some p →
      ∃ v, SprHolds s p v ∧
        (s.cfg.r0 = .hardwired →
          ∃ t, exec (.lMfspr 0 a k) s = .next t ∧ Advanced s t ∧ t = { s with pc := t.pc, ds := t.ds }) ∧
        (s.cfg.r0 = .refuse → v = 0 →
          ∃ t, exec (.lMfspr 0 a k) s = .next t ∧ Advanced s t ∧ OnlyGprWritten (cur s) 0 0 s t) ∧
        (s.cfg.r0 = .refuse → v ≠ 0 → exec (.lMfspr 0 a k) s = .refused .nonZeroWriteToR0)) ∧
    (s.cfg.r0 = .refuse → ∀ (be : Bool) (regs : List RegNum) (first rest : List RegWrite) (v : Word) (flags : BitVec 9)
        (taken : Bool) (target : Word) (tr : Option RegNum) (ov cy f : Option Bool) (p : Presented),
      let ws := first ++ (0, v) :: rest
      (∀ q ∈ p.regFields, q.val < s.cfg.ngpr) → (∀ w ∈ first, WriteAllowed s w) → v ≠ 0 →
      p = .floatingPoint regs ws flags ∨ p = .arith regs ws ov cy f ∨ p = .plain regs ws ∨
        (p = .jump regs taken target tr ws ∧ s.ds = .none) →
      commit (effectPresented be p s) = .refused .nonZeroWriteToR0)

/-- R144, under the spec's policy: in the delay slot of a jump whose target came from register `r`, an l.mfspr into `r` is
refused, and so is a floating-point, arithmetic (whether or not its flag would raise Range, log 6) or plain instruction with
a result register `r`, its earlier result writes allowed, or a load into `r` whose access succeeds. (Under the other policy,
log 6, MfsprReadsRegister says what l.mfspr does.) -/
def Obligations.SlotWriteOfJumpRegister : Prop :=
  ∀ (r a : RegNum) (k : Half) (s : State) (t : Word), s.cfg.slotWrite = .refuse → s.ds = .target t (some r) →
    r.val < s.cfg.ngpr →
    (s.sr.sm = true → a.val < s.cfg.ngpr → exec (.lMfspr r a k) s = .refused .slotWritesJumpRegister) ∧
    (∀ (be : Bool) (regs : List RegNum) (first rest : List RegWrite) (v : Word) (flags : BitVec 9) (ov cy f : Option Bool)
        (p : Presented),
      let ws := first ++ (r, v) :: rest
      (∀ q ∈ p.regFields, q.val < s.cfg.ngpr) → (∀ w ∈ first, WriteAllowed s w) →
      p = .floatingPoint regs ws flags ∨ p = .arith regs ws ov cy f ∨ p = .plain regs ws →
      commit (effectPresented be p s) = .refused .slotWritesJumpRegister) ∧
    (∀ (ea pa : Word) (width : Width) (regs : List RegNum) (signed : Bool) (bs : List Byte),
      (∀ q ∈ regs, q.val < s.cfg.ngpr) → ea.toNat % width.bytes = 0 → translateAddress .load ea s = .ok pa →
      readBytes s.mem pa width.bytes = some bs →
      commit (effectPresented false (.load ea width regs r signed) s) = .refused .slotWritesJumpRegister)

/-- R151, R152, R154: l.mtspr in supervisor mode to EPCR, EEAR, ESR, FPCSR and CPUCFGR: the register named receives rB
(CPUCFGR nothing), `pc` advances, nothing else changes. -/
def Obligations.MtsprWritesRegister : Prop :=
  ∀ (a b : RegNum) (k : Half) (s : State), s.sr.sm = true → a.val < s.cfg.ngpr → b.val < s.cfg.ngpr →
    (∀ c, sprOf s.cfg (numberOf s a k) = some (.epcr c) →
      ∃ t, exec (.lMtspr a b k) s = .next t ∧ Advanced s t ∧
        OnlyContextWritten c { context s c with epcr := gpr s b } s t) ∧
    (∀ c, sprOf s.cfg (numberOf s a k) = some (.eear c) →
      ∃ t, exec (.lMtspr a b k) s = .next t ∧ Advanced s t ∧
        OnlyContextWritten c { context s c with eear := gpr s b } s t) ∧
    (∀ c, sprOf s.cfg (numberOf s a k) = some (.esr c) →
      ∃ t, exec (.lMtspr a b k) s = .next t ∧ Advanced s t ∧
        OnlyContextWritten c { context s c with esr := gpr s b } s t) ∧
    (sprOf s.cfg (numberOf s a k) = some .fpcsr →
      ∃ t, exec (.lMtspr a b k) s = .next t ∧ Advanced s t ∧
        t = { s with pc := t.pc, ds := t.ds, fpcsr := gpr s b }) ∧
    (sprOf s.cfg (numberOf s a k) = some .cpucfgr →
      ∃ t, exec (.lMtspr a b k) s = .next t ∧ Advanced s t ∧ t = { s with pc := t.pc, ds := t.ds })

/-- R155 under the spec's policy for U10: l.mtspr to SR sets every field from the bits of rB (SR[CE] may stay 0 where
there is one context, U9); a write whose CID or DSX bits differ from the current ones is refused. -/
def Obligations.MtsprSrCautious : Prop :=
  ∀ (a b : RegNum) (k : Half) (s : State), s.sr.sm = true → a.val < s.cfg.ngpr → b.val < s.cfg.ngpr →
    numberOf s a k = 17 → s.cfg.srFields = .refuse →
    let new := unpackSr (gpr s b)
    (new.cid = s.sr.cid → new.dsx = s.sr.dsx →
      ∃ t, exec (.lMtspr a b k) s = .next t ∧ Advanced s t ∧ t = { s with pc := t.pc, ds := t.ds, sr := t.sr } ∧
        t.sr = { new with ce := t.sr.ce } ∧ (t.sr.ce = true → new.ce = true) ∧
        (1 < s.cfg.nctx → t.sr.ce = new.ce)) ∧
    (new.cid ≠ s.sr.cid ∨ new.dsx ≠ s.sr.dsx → exec (.lMtspr a b k) s = .refused .srWriteChangesCidOrDsx)

/-- Log 7 (the model's choice for U10): l.mtspr to SR always completes; SR[DSX] and SR[CID] each become the written value
or stay, CID only a context that exists and never where there is one context; every other field is as R155 says. -/
def Obligations.MtsprSrOpenFields : Prop :=
  ∀ (a b : RegNum) (k : Half) (s : State), s.sr.sm = true → a.val < s.cfg.ngpr → b.val < s.cfg.ngpr →
    numberOf s a k = 17 → s.cfg.srFields = .execute →
    let new := unpackSr (gpr s b)
    ∃ t, exec (.lMtspr a b k) s = .next t ∧ Advanced s t ∧ t = { s with pc := t.pc, ds := t.ds, sr := t.sr } ∧
      t.sr = { new with ce := t.sr.ce, dsx := t.sr.dsx, cid := t.sr.cid } ∧
      (t.sr.ce = true → new.ce = true) ∧ (1 < s.cfg.nctx → t.sr.ce = new.ce) ∧
      (t.sr.dsx = new.dsx ∨ t.sr.dsx = s.sr.dsx) ∧
      (t.sr.cid = s.sr.cid ∨ (1 < s.cfg.nctx ∧ t.sr.cid = new.cid ∧ new.cid.toNat < s.cfg.nctx))

/-- R156: l.mtspr to CXR writes CCRS and switches the context at once; a CCID that names no context is refused (U11). -/
def Obligations.MtsprCxrSwitchesContext : Prop :=
  ∀ (a b : RegNum) (k : Half) (s : State), s.sr.sm = true → a.val < s.cfg.ngpr → b.val < s.cfg.ngpr →
    sprOf s.cfg (numberOf s a k) = some .cxr → s.cfg.nctx ≤ 16 →
    let ccid := (gpr s b).toNat / 65536
    (ccid < s.cfg.nctx →
      ∃ t, exec (.lMtspr a b k) s = .next t ∧ Advanced s t ∧
        t.ccrs.toNat = (gpr s b).toNat % 65536 ∧ t.sr = { s.sr with cid := t.sr.cid } ∧
        t.sr.cid.toNat = ccid ∧ (cur t).val = ccid ∧
        t = { s with pc := t.pc, ds := t.ds, sr := t.sr, ccrs := t.ccrs }) ∧
    (s.cfg.nctx ≤ ccid → exec (.lMtspr a b k) s = .refused .cidOutOfRange)

/-- Log 9 (the SPR map of R157 adopted): l.mtspr to a shadow register number writes that register of that context. Into a
register 0 that is hard-wired nothing is written; R144 and the cautious reading of R22 refuse as for l.mfspr. -/
def Obligations.MtsprWritesShadowGpr : Prop :=
  ∀ (a b : RegNum) (k : Half) (s : State) (c : CtxNum) (r : RegNum), s.sr.sm = true → a.val < s.cfg.ngpr →
    b.val < s.cfg.ngpr → sprOf s.cfg (numberOf s a k) = some (.gpr c r) →
    let pending := s.cfg.slotWrite = .refuse ∧ pendingReg s = some r ∧ c = cur s
    (pending → exec (.lMtspr a b k) s = .refused .slotWritesJumpRegister) ∧
    (¬ pending → (r = 0 → s.cfg.r0 = .ordinary ∨ s.cfg.r0 = .refuse ∧ gpr s b = 0) →
      ∃ t, exec (.lMtspr a b k) s = .next t ∧ Advanced s t ∧ OnlyGprWritten c r (gpr s b) s t) ∧
    (¬ pending → r = 0 → s.cfg.r0 = .refuse → gpr s b ≠ 0 →
      exec (.lMtspr a b k) s = .refused .nonZeroWriteToR0) ∧
    (¬ pending → r = 0 → s.cfg.r0 = .hardwired →
      ∃ t, exec (.lMtspr a b k) s = .next t ∧ Advanced s t ∧ t = { s with pc := t.pc, ds := t.ds })

/-- Log 8 (the model's choice for R158): an SPR number that names no implemented register. Under `refuse` both
instructions are refused; otherwise a read gives 0 (`zero`) or any value (`free`) and a write changes nothing. The write of
rD, whatever rD is, is subject to R144, whose check comes first, and to R22. -/
def Obligations.SprNumbersOutsideTheMap : Prop :=
  ∀ (d a b : RegNum) (k : Half) (s : State), s.sr.sm = true → d.val < s.cfg.ngpr → a.val < s.cfg.ngpr →
    b.val < s.cfg.ngpr → sprOf s.cfg (numberOf s a k) = none →
    (s.cfg.unmappedSpr = .refuse →
      exec (.lMtspr a b k) s = .refused .sprOutOfScope ∧
      exec (.lMfspr d a k) s =
        if s.cfg.slotWrite = .refuse ∧ pendingReg s = some d then .refused .slotWritesJumpRegister
        else .refused .sprOutOfScope) ∧
    (s.cfg.unmappedSpr ≠ .refuse →
      (∃ v, WritesResult (d, v) s (exec (.lMfspr d a k) s) ∧ (s.cfg.unmappedSpr = .zero → v = 0)) ∧
      (∃ t, exec (.lMtspr a b k) s = .next t ∧ Advanced s t ∧ t = { s with pc := t.pc, ds := t.ds }))

/-- Log 4 (D15's outcomes, R153): l.mfspr and l.mtspr in user mode: refused, Illegal Instruction, or without effect but for
a 0 in rD; under `sumra`, where SR[SUMRA] is set, rD receives a register that user mode may read, 0 for one it may not, and
for a number that names none what log 8 says. The write of rD, whatever rD is, is subject to R144 and R22. -/
def Obligations.SprAccessInUserMode : Prop :=
  ∀ (d a b : RegNum) (k : Half) (s : State), s.sr.sm = false →
    (s.cfg.userPriv = .refuse →
      exec (.lMfspr d a k) s = .refused .userPrivilege ∧ exec (.lMtspr a b k) s = .refused .userPrivilege) ∧
    (s.cfg.userPriv = .illegal → cidOverflows s = false →
      ∃ t, exec (.lMfspr d a k) s = .next t ∧ exec (.lMtspr a b k) s = .next t ∧
        EntersAs 0x700 (currentEpcr s) (if s.cfg.illegalWritesEear then s.pc else currentEear s) s t) ∧
    (s.cfg.userPriv = .ignore ∨ (s.cfg.userPriv = .sumra ∧ s.sr.sumra = false) → d.val < s.cfg.ngpr →
      a.val < s.cfg.ngpr → WritesResult (d, 0) s (exec (.lMfspr d a k) s)) ∧
    (s.cfg.userPriv = .sumra → s.sr.sumra = true → d.val < s.cfg.ngpr → a.val < s.cfg.ngpr →
      (∀ p, sprOf s.cfg (numberOf s a k) = some p →
        ∃ v, WritesResult (d, v) s (exec (.lMfspr d a k) s) ∧
          (UserMayRead s p → SprHolds s p v) ∧ (¬ UserMayRead s p → v = 0)) ∧
      (sprOf s.cfg (numberOf s a k) = none →
        (s.cfg.unmappedSpr = .refuse → exec (.lMfspr d a k) s =
          if s.cfg.slotWrite = .refuse ∧ pendingReg s = some d then .refused .slotWritesJumpRegister
          else .refused .sprOutOfScope) ∧
        (s.cfg.unmappedSpr ≠ .refuse →
          ∃ v, WritesResult (d, v) s (exec (.lMfspr d a k) s) ∧ (s.cfg.unmappedSpr = .zero → v = 0)))) ∧
    (s.cfg.userPriv = .ignore ∨ s.cfg.userPriv = .sumra → a.val < s.cfg.ngpr → b.val < s.cfg.ngpr →
      ∃ t, exec (.lMtspr a b k) s = .next t ∧ Advanced s t ∧ t = { s with pc := t.pc, ds := t.ds })

/-- R21, D30: an instruction that names an unimplemented register raises Range instead of executing: l.jr outside a delay slot,
l.mfspr and l.mtspr where user mode does not stop them first (log 4), and every instruction of an abstract class, before
any memory access (R170), a jump of the class outside a delay slot. -/
def Obligations.UnimplementedRegisterRaisesRange : Prop :=
  ∀ (x y : RegNum) (k : Half) (s : State), cidOverflows s = false →
    ∃ t, EntersAs 0xB00 (currentEpcr s) (currentEear s) s t ∧
      (s.ds = .none → s.cfg.ngpr ≤ x.val → exec (.lJr x) s = .next t) ∧
      (s.sr.sm = true ∨ s.cfg.userPriv = .ignore ∨ s.cfg.userPriv = .sumra →
        s.cfg.ngpr ≤ x.val ∨ s.cfg.ngpr ≤ y.val →
        exec (.lMfspr x y k) s = .next t ∧ exec (.lMtspr x y k) s = .next t) ∧
      (∀ (be : Bool) (p : Presented), (∃ r ∈ p.regFields, s.cfg.ngpr ≤ r.val) → (p.insnClass = .jump → s.ds = .none) →
        commit (effectPresented be p s) = .next t)

/-! ## Taking an exception, reset -/

/-- R224 to R232, R241, R244: exception entry for every type but Reset: EPCR by the Values table, ESR the whole old SR, EEAR
for the types that write it, the new SR, the vector address, with fast context switching on SR[CID] incremented and CCRS the
old CID, and nothing else. Resting on a choice: the increment is the spec's between contradicting sentences (C3, D9; log 28,
DEDUCED), SR[DSX] = 0 outside a delay slot is D8's, and SR[OVE] kept or cleared is log 14's. -/
def Obligations.EntryFollowsItsRule : Prop :=
  ∀ (e : Exc) (ea : Word) (s : State), e ≠ .reset → cidOverflows s = false →
    ∃ t, enterException e ea s = .next t ∧
      EntersAs (vectorOffset e)
        (if e = .systemCall ∨ e = .floatingPoint then nextEpcr s else currentEpcr s)
        (if e = .busError ∨ e = .dataPageFault ∨ e = .insnPageFault ∨ e = .alignment ∨ e = .itlbMiss ∨
            e = .dtlbMiss ∨ (e = .illegalInsn ∧ s.cfg.illegalWritesEear = true) then ea else currentEear s)
        s t

/-- R202, R219: the fourteen vector offsets, and the priority numbers; Bus Error has 4 on a fetch and 9 on a load or store. -/
def Obligations.VectorsAndPriorities : Prop :=
  [Exc.reset, .busError, .dataPageFault, .insnPageFault, .tickTimer, .alignment, .illegalInsn, .externalInterrupt,
      .dtlbMiss, .itlbMiss, .range, .systemCall, .floatingPoint, .trap].map vectorOffset =
    [0x100, 0x200, 0x300, 0x400, 0x500, 0x600, 0x700, 0x800, 0x900, 0xA00, 0xB00, 0xC00, 0xD00, 0xE00] ∧
  (∀ onFetch : Bool,
    [Exc.reset, .itlbMiss, .insnPageFault, .illegalInsn, .alignment, .dtlbMiss, .systemCall, .trap, .dataPageFault,
        .range, .floatingPoint, .tickTimer, .externalInterrupt].map (priority onFetch) =
      [1, 2, 3, 5, 6, 7, 7, 7, 8, 10, 11, 12, 12]) ∧
  priority true .busError = 4 ∧ priority false .busError = 9

/-- R241, R244, the spec's choice between the source's contradicting sentences (90_conflicts.md C3, D9; log 28, DEDUCED): with
fast context switching on, entry leaves the interrupted registers alone, makes the next context current and keeps the old
CID in CCRS. -/
def Obligations.FastEntrySwitchesContext : Prop :=
  ∀ (e : Exc) (ea : Word) (s t : State), Invariant s → 1 < s.cfg.nctx → s.sr.ce = true → cidOverflows s = false →
    enterException e ea s = .next t →
    (cur t).val = (cur s).val + 1 ∧ t.sr.cid.toNat = s.sr.cid.toNat + 1 ∧ t.ccrs.toNat = s.sr.cid.toNat ∧
      (∀ r, gprAt t (cur s) r = gprAt s (cur s) r) ∧ context t (cur t) = context s (cur t)

/-- Log 10 (the model's choice for R242): where SR[CID] would leave its range, or has left it already, entry is refused, or
Range is entered in its place, saved to the current context, the CID unchanged and kept in CCRS, everything else as on any
entry. -/
def Obligations.CidOverflowPolicies : Prop :=
  ∀ (e : Exc) (ea : Word) (s : State), Invariant s → 1 < s.cfg.nctx → s.sr.ce = true →
    s.cfg.nctx ≤ s.sr.cid.toNat + 1 →
    (s.cfg.cidOverflow = .refuse → enterException e ea s = .refused .cidOverflow) ∧
    (s.cfg.cidOverflow = .execute →
      ∃ t, enterException e ea s = .next t ∧ t.pc = vectorBaseOf s.cfg s.sr.eph + 0xB00 ∧ t.ds = .none ∧
        t.sr =
          { s.sr with
            sm := true
            tee := false
            iee := false
            dme := false
            ime := false
            dsx := !decide (s.ds = .none)
            ove := t.sr.ove } ∧
        (t.sr.ove = true → s.sr.ove = true) ∧ t.ccrs.toNat = s.sr.cid.toNat ∧
        context t (cur s) = { context s (cur s) with epcr := currentEpcr s, esr := packSr s.sr } ∧
        (∀ c, c ≠ cur s → context t c = context s c) ∧ (∀ a, readByte a t.mem = readByte a s.mem) ∧
        t = { s with pc := t.pc, ds := t.ds, ctx := t.ctx, sr := t.sr, ccrs := t.ccrs })

/-- R223, R280, R281, R234: a step with reset asserted enters Reset whatever else is pending and whatever the state is: the
vector address, the five bits of the new SR, DSX and CID 0, CXR 0, no delay slot. Every general-purpose register, EPCR, ESR,
EEAR and FPCSR is open (R282). That memory, the MMU's contents and the record of stores are kept is the model's choice
(log 26: U17 and D12 leave it open). -/
def Obligations.ResetWinsOverEverything : Prop :=
  ∀ s : State, (nextInputs s).reset = true →
    ∃ t, step s = .next t ∧ t.pc = vectorBaseOf s.cfg false + 0x100 ∧ t.ds = .none ∧ t.sr.sm = true ∧
      t.sr.tee = false ∧ t.sr.iee = false ∧ t.sr.dme = false ∧ t.sr.ime = false ∧ t.sr.dsx = false ∧
      t.sr.cid = 0 ∧ t.ccrs = 0 ∧ t.cfg = s.cfg ∧ (∀ a, readByte a t.mem = readByte a s.mem) ∧
      t = { beginStep s with pc := t.pc, ds := t.ds, ctx := t.ctx, sr := t.sr, ccrs := t.ccrs, fpcsr := t.fpcsr }

/-- R24, R25, R28 to R31, R34, R35, R40: what the spec states of the state after reset. -/
def Obligations.ResetStateOfTheSpec : Prop :=
  State.reset.pc = vectorBaseOf State.reset.cfg State.reset.sr.eph + 0x100 ∧ State.reset.ds = .none ∧
    State.reset.sr.sm = true ∧ State.reset.sr.tee = false ∧ State.reset.sr.iee = false ∧
    State.reset.sr.dme = false ∧ State.reset.sr.ime = false ∧ State.reset.sr.dsx = false ∧
    State.reset.sr.cid = 0 ∧ cxrWord State.reset = 0

/-! ## The step -/

/-- R223: when the bytes at `pc` decode to `i`, the step is `exec i` on the state it works on, unless an interrupt or the
debug unit takes the instruction's place. The second clause spells it out for big-endian memory, translation off, no
input left: only the step's number (log 33) differs from the state itself. -/
def Obligations.StepRunsDecodedInstruction : Prop :=
  (∀ (s : State) (i : Instr), NextIs s i →
    (replacement (nextInputs s) (effect i (beginStep s)) (beginStep s) = none → step s = exec i (beginStep s)) ∧
    (∀ e, replacement (nextInputs s) (effect i (beginStep s)) (beginStep s) = some e →
      step s = enterException e 0 (beginStep s))) ∧
  (∀ (s : State) (bs : List Byte) (i : Instr), s.inputs = [] → s.sr.ime = false → s.sr.lee = false →
    s.cfg.bigEndian = true → s.pc.toNat % 4 = 0 → s.stored = [] → readBytes s.mem s.pc 4 = some bs →
    decodeBytes bs = .ok i → step s = exec i { s with draws := s.draws + 1 })

/-- R84, R205, R207, R213: a fetch that misses the ITLB, faults, or meets a bus error enters that exception, EPCR the
instruction's address (the jump's in a delay slot) and EEAR the fetch address, before the word is looked at. -/
def Obligations.FetchFaultsInOrder : Prop :=
  ∀ s : State, (nextInputs s).reset = false → (s.sr.lee = false ∨ s.cfg.littleEndian = .execute) →
    s.pc.toNat % 4 = 0 → cidOverflows s = false →
    let u := beginStep s
    let on := s.cfg.hasImmu && s.sr.ime
    let entry := mmuLookup .fetch s.pc s.sr.sm u.mmu
    (on = true → entry = none → ∃ t, step s = .next t ∧ EntersAs 0xA00 (currentEpcr s) s.pc u t) ∧
    (on = true → entry = some .pageFault → ∃ t, step s = .next t ∧ EntersAs 0x400 (currentEpcr s) s.pc u t) ∧
    ((on = false ∨ ∃ pa, entry = some (.ok pa)) → (nextInputs s).fetchBusError = true →
      ∃ t, step s = .next t ∧ EntersAs 0x200 (currentEpcr s) s.pc u t)

/-- R208, R211, R223: an enabled, asserted interrupt is taken in place of an instruction (one of the six, or of a class) that
completes, which is not executed: EPCR is its address, or the jump's in a delay slot. With both pending either may be taken
(R221). -/
def Obligations.InterruptReplacesInstruction : Prop :=
  ∀ (s v : State) (out : Host.Outcome State Fault Refusal), NextHas s (.completes v) out → NoDebugTrap s →
    cidOverflows s = false →
    (TickPending s → ¬ ExtPending s →
      ∃ t, step s = .next t ∧ EntersAs 0x500 (currentEpcr s) (currentEear s) (beginStep s) t) ∧
    (ExtPending s → ¬ TickPending s →
      ∃ t, step s = .next t ∧ EntersAs 0x800 (currentEpcr s) (currentEear s) (beginStep s) t) ∧
    (TickPending s → ExtPending s →
      ∃ t, step s = .next t ∧ (EntersAs 0x500 (currentEpcr s) (currentEear s) (beginStep s) t ∨
        EntersAs 0x800 (currentEpcr s) (currentEear s) (beginStep s) t))

/-- R220, R223, R252, R253: an instruction (one of the six, or of a class) that raises an exception of its own is not replaced
by an interrupt, nor is one while no interrupt is both asserted and enabled: the step is the instruction's own outcome. -/
def Obligations.MaskedOrLateInterruptWaits : Prop :=
  ∀ (s : State) (eff : Effect) (out : Host.Outcome State Fault Refusal), NextHas s eff out → NoDebugTrap s →
    (∃ e ea v, eff = .raises e ea v) ∨ (¬ TickPending s ∧ ¬ ExtPending s) →
    step s = out

/-- Log 25 (D7): the debug unit's Trap takes the place of an instruction (one of the six, or of a class) that completes, and of
one that raises an exception of a larger priority number; a tie goes either way; the instruction is not executed. -/
def Obligations.DebugTrapByPriority : Prop :=
  ∀ (s : State) (eff : Effect) (out : Host.Outcome State Fault Refusal), NextHas s eff out → s.cfg.hasDebug = true →
    (nextInputs s).debugTrap = true → cidOverflows s = false →
    let trapped := ∃ t, step s = .next t ∧ EntersAs 0xE00 (currentEpcr s) (currentEear s) (beginStep s) t
    (∀ v, eff = .completes v → trapped) ∧
    (∀ e ea v, eff = .raises e ea v → 7 < priority false e → trapped) ∧
    (∀ e ea v, eff = .raises e ea v → priority false e < 7 → step s = out) ∧
    (∀ e ea v, eff = .raises e ea v → priority false e = 7 → step s = out ∨ trapped)

/-- R174, R210: a fetched word that `Classify` calls illegal enters Illegal Instruction; EEAR receives its address when
ILLEGAL_WRITES_EEAR, else stays. -/
def Obligations.IllegalWordRaises : Prop :=
  ∀ (s : State) (b0 b1 b2 b3 : Byte), FetchGives s [b0, b1, b2, b3] → cidOverflows s = false →
    (∀ i, decode (wordOfFour b0 b1 b2 b3) ≠ .ok i) →
    classOf (wordOfFour b0 b1 b2 b3) s.cfg.classify = some .illegal →
    ∃ t, step s = .next t ∧
      EntersAs 0x700 (currentEpcr s) (if s.cfg.illegalWritesEear then s.pc else currentEear s) (beginStep s) t

/-- R72, R82, R24, R48: what a step refuses or faults on before decoding: SR[LEE] = 1 and a fetch of stored code under the
spec's policies, a `pc` that is no multiple of 4, a byte nothing has written. Translation is off. -/
def Obligations.FetchStops : Prop :=
  ∀ s : State, (nextInputs s).reset = false →
    (s.sr.lee = true → s.cfg.littleEndian = .refuse → step s = .refused .littleEndianState) ∧
    (s.sr.lee = false → s.pc.toNat % 4 ≠ 0 → step s = .refused .misalignedPc) ∧
    (s.sr.lee = false → s.pc.toNat % 4 = 0 → s.sr.ime = false → (nextInputs s).fetchBusError = false →
      (s.cfg.storedFetch = .refuse → (∃ a ∈ s.stored, a ∈ addresses s.pc 4) → step s = .refused .fetchAfterStore) ∧
      ((∀ a ∈ s.stored, a ∉ addresses s.pc 4) → readBytes s.mem s.pc 4 = none →
        step s = .fault .unwrittenMemory))

/-! ## The abstract classes -/

/-- R170, R85, R73: a load or store whose access fails changes nothing but what exception entry writes, the checks in the
order alignment, D-TLB miss, page fault, bus error; EEAR is the effective address. -/
def Obligations.DataAccessFaultsInOrder : Prop :=
  ∀ (busError : Bool) (ea v : Word) (width : Width) (regs : List RegNum) (dest : RegNum) (signed : Bool) (s : State)
    (p : Presented) (kind : AccessKind),
    (p = .load ea width regs dest signed ∧ kind = .load) ∨ (p = .store ea width regs v ∧ kind = .store) →
    (∀ r ∈ p.regFields, r.val < s.cfg.ngpr) → cidOverflows s = false →
    let on := s.cfg.hasDmmu && s.sr.dme
    let entry := mmuLookup kind ea s.sr.sm s.mmu
    let ok := on = false ∨ ∃ pa, entry = some (.ok pa)
    (ea.toNat % width.bytes ≠ 0 →
      ∃ t, commit (effectPresented busError p s) = .next t ∧ EntersAs 0x600 (currentEpcr s) ea s t) ∧
    (ea.toNat % width.bytes = 0 → on = true → entry = none →
      ∃ t, commit (effectPresented busError p s) = .next t ∧ EntersAs 0x900 (currentEpcr s) ea s t) ∧
    (ea.toNat % width.bytes = 0 → on = true → entry = some .pageFault →
      ∃ t, commit (effectPresented busError p s) = .next t ∧ EntersAs 0x300 (currentEpcr s) ea s t) ∧
    (ea.toNat % width.bytes = 0 → ok → busError = true →
      ∃ t, commit (effectPresented busError p s) = .next t ∧ EntersAs 0x200 (currentEpcr s) ea s t)

/-- R170, R85, R72, R48: a load of implemented registers at an aligned address that translates, without bus error. One of a byte
that nothing has written faults. Else, `bs` being the bytes most significant first (as they lie in memory where accesses are
big-endian, reversed where little-endian), the destination receives them, sign- or zero-extended, that write being subject to
R144 and R22. That no base register is written is the model's choice (R170; log 24). -/
def Obligations.LoadCompletes : Prop :=
  ∀ (ea pa : Word) (width : Width) (regs : List RegNum) (dest : RegNum) (signed : Bool) (s : State),
    (∀ r ∈ dest :: regs, r.val < s.cfg.ngpr) → ea.toNat % width.bytes = 0 → translateAddress .load ea s = .ok pa →
    let out := commit (effectPresented false (.load ea width regs dest signed) s)
    ((∃ a ∈ addresses pa width.bytes, readByte a s.mem = none) → out = .fault .unwrittenMemory) ∧
    (∀ bs : List Byte,
      readBytes s.mem pa width.bytes = some (if s.cfg.bigEndian = true ∧ s.sr.lee = false then bs else bs.reverse) →
      ∃ v, WritesResult (dest, v) s out ∧
        (∀ b, bs = [b] → v = if signed then b.signExtend 32 else b.setWidth 32) ∧
        (∀ b c, bs = [b, c] → v = if signed then (b ++ c).signExtend 32 else (b ++ c).setWidth 32) ∧
        (∀ b c d e, bs = [b, c, d, e] → v = b ++ c ++ d ++ e))

/-- R170, R85, R72: a store that succeeds. `low` are the low bytes of the value, most significant first: they are read back in
that order where accesses are big-endian, reversed where little-endian; every byte outside them reads as before, their
addresses count as stored to (R82), nothing else changes but `pc` and DS. That no register, base registers included, is
written is the model's choice (R170; log 24). -/
def Obligations.StoreCompletes : Prop :=
  ∀ (ea pa v : Word) (width : Width) (regs : List RegNum) (s : State),
    (∀ r ∈ regs, r.val < s.cfg.ngpr) → ea.toNat % width.bytes = 0 → translateAddress .store ea s = .ok pa →
    let low : List Byte := match width with
      | .byte => [v.extractLsb' 0 8]
      | .half => [v.extractLsb' 8 8, v.extractLsb' 0 8]
      | .word => [v.extractLsb' 24 8, v.extractLsb' 16 8, v.extractLsb' 8 8, v.extractLsb' 0 8]
    ∃ t, commit (effectPresented false (.store ea width regs v) s) = .next t ∧ Advanced s t ∧
      readBytes t.mem pa width.bytes = some (if s.cfg.bigEndian = true ∧ s.sr.lee = false then low else low.reverse) ∧
      (∀ a, a ∉ addresses pa width.bytes → readByte a t.mem = readByte a s.mem) ∧
      t.stored = addresses pa width.bytes ++ s.stored ∧
      t = { s with pc := t.pc, ds := t.ds, mem := t.mem, stored := t.stored }

/-- R171, R216, R233: a floating-point instruction, its result writes allowed. They and, where there is an FPU, its flags are
made in every case. With FPEE set and a flag set by it, Floating Point is entered after the writes; with FPEE set and
none set by it, it completes where no flag is set at all, and either happens where an earlier one is left set (U14); with
FPEE clear it completes. That it completes with only its results written where there is no FPU is the model's choice
(log 24; D36 says that nothing is raised). -/
def Obligations.FloatingPointWritesThenRaises : Prop :=
  ∀ (regs : List RegNum) (ws : List RegWrite) (flags : BitVec 9) (s : State),
    (∀ r ∈ regs ++ ws.map Prod.fst, r.val < s.cfg.ngpr) → (∀ w ∈ ws, WriteAllowed s w) → cidOverflows s = false →
    ∃ w, ResultsWritten ws s w ∧ w.pc = s.pc ∧ w.ds = s.ds ∧
      let u := { w with fpcsr := s.fpcsr ||| (flags.setWidth 32 <<< 3) }
      let out := commit (effectPresented false (.floatingPoint regs ws flags) s)
      let raised := ∃ t, out = .next t ∧ EntersAs 0xD00 (nextEpcr s) (currentEear s) u t
      let completed := ∃ t, out = .next t ∧ Advanced s t ∧ t = { u with pc := t.pc, ds := t.ds }
      (s.cfg.hasFpu = true → s.fpcsr.getLsbD 0 = true → flags ≠ 0 → raised) ∧
      (s.cfg.hasFpu = true → s.fpcsr.getLsbD 0 = true → flags = 0 → s.fpcsr.extractLsb' 3 9 = 0 → completed) ∧
      (s.cfg.hasFpu = true → s.fpcsr.getLsbD 0 = true → flags = 0 → s.fpcsr.extractLsb' 3 9 ≠ 0 →
        raised ∨ completed) ∧
      (s.cfg.hasFpu = true → s.fpcsr.getLsbD 0 = false → completed) ∧
      (s.cfg.hasFpu = false → ∃ t, out = .next t ∧ Advanced s t ∧ t = { w with pc := t.pc, ds := t.ds })

/-- R172, R214, U15 (log 24): an arithmetic instruction, its result writes allowed. One that sets SR[OV] with the enable
programmed enters Range, EPCR its own address, EEAR kept; its destinations and SR[OV] are open, and CY and F keep their
values. Otherwise its results and the flags it gives a value are written and it completes. That OV alone counts, and what CY
and F are after the Range, are the model's choices. -/
def Obligations.ArithmeticRangeByFlag : Prop :=
  ∀ (regs : List RegNum) (ws : List RegWrite) (ov cy f : Option Bool) (s : State),
    (∀ r ∈ regs ++ ws.map Prod.fst, r.val < s.cfg.ngpr) → (∀ w ∈ ws, WriteAllowed s w) → cidOverflows s = false →
    let out := commit (effectPresented false (.arith regs ws ov cy f) s)
    (ov = some true → s.sr.ove = true →
      ∃ t w, out = .next t ∧ OnlyRegsWritten (ws.map Prod.fst) s w ∧ w.pc = s.pc ∧ w.ds = s.ds ∧
        ∃ o, EntersAs 0xB00 (currentEpcr s) (currentEear s) { w with sr := { s.sr with ov := o } } t) ∧
    (ov ≠ some true ∨ s.sr.ove = false →
      ∃ t w, out = .next t ∧ ResultsWritten ws s w ∧ Advanced s t ∧
        t = { w with
          pc := t.pc
          ds := t.ds
          sr := { s.sr with ov := ov.getD s.sr.ov, cy := cy.getD s.sr.cy, f := f.getD s.sr.f } })

/-- R173, R141: a jump of the jump class to an aligned target, which may have come from a register, with any result writes
(link registers) that are allowed. In a delay slot it is refused (R145). Taken, it sets the delay slot, the register recorded
with the target (or goes to its target at once when ND = 1). -/
def Obligations.JumpClassSetsDelaySlot : Prop :=
  ∀ (regs : List RegNum) (target : Word) (targetReg : Option RegNum) (ws : List RegWrite) (s : State),
    let out (taken : Bool) := commit (effectPresented false (.jump regs taken target targetReg ws) s)
    (∀ taken, s.ds ≠ .none → out taken = .refused .jumpInDelaySlot) ∧
    (s.ds = .none → (∀ r ∈ targetReg.toList ++ regs ++ ws.map Prod.fst, r.val < s.cfg.ngpr) →
      (∀ w ∈ ws, WriteAllowed s w) → target.toNat % 4 = 0 →
      ∃ t, out true = .next t ∧ ResultsWritten ws s t ∧
        (s.cfg.nd = false → t.pc = s.pc + 4 ∧ t.ds = .target target targetReg) ∧
        (s.cfg.nd = true → t.pc = target ∧ t.ds = .none))

/-- R175, R21: a plain instruction makes its result writes, where they are allowed, and advances; one that names an
unimplemented register enters Range. -/
def Obligations.PlainClassWritesOrRaisesRange : Prop :=
  ∀ (regs : List RegNum) (ws : List RegWrite) (s : State),
    let out := commit (effectPresented false (.plain regs ws) s)
    ((∀ r ∈ regs ++ ws.map Prod.fst, r.val < s.cfg.ngpr) → (∀ w ∈ ws, WriteAllowed s w) →
      ∃ t, out = .next t ∧ ResultsWritten ws s t ∧ Advanced s t) ∧
    ((∃ r ∈ regs ++ ws.map Prod.fst, s.cfg.ngpr ≤ r.val) → cidOverflows s = false →
      ∃ t, out = .next t ∧ EntersAs 0xB00 (currentEpcr s) (currentEear s) s t)

/-! ## Invariants and whole-machine rules -/

/-- R24, R25, R35: every step keeps the invariant: `pc` and a pending target multiples of 4, no delay slot where ND = 1,
SR[CID] 0 where there is one context, memory in canonical form, the configuration well formed. -/
def Obligations.StepKeepsInvariant : Prop :=
  ∀ s t : State, Invariant s → step s = .next t → Invariant t

/-- The invariant holds right after reset. -/
def Obligations.ResetMeetsInvariant : Prop := Invariant State.reset

/-- R5: the configuration never changes, and every step uses up one record of inputs and one number (log 1, 2, 33). -/
def Obligations.StepKeepsConfiguration : Prop :=
  ∀ s t : State, step s = .next t →
    t.cfg = s.cfg ∧ t.inputs = s.inputs.tail ∧ t.draws = s.draws + 1

/-- R249: from user mode, a step reaches supervisor mode only by taking an exception: the program counter is then at one
of the fourteen vector addresses and no delay slot is pending. -/
def Obligations.SupervisorOnlyByException : Prop :=
  ∀ s t : State, s.sr.sm = false → step s = .next t → t.sr.sm = true →
    t.ds = .none ∧ ∃ e, t.pc = vectorBaseOf s.cfg s.sr.eph + vectorOffset e ∨
      (e = .reset ∧ t.pc = vectorBaseOf s.cfg false + vectorOffset e)

/-- R250, R247: an instruction executed in user mode takes an exception or writes no privileged state: SR, CCRS, FPCSR, every
EPCR, ESR and EEAR, and every register of another context stay. -/
def Obligations.UserModeWritesNoPrivilegedState : Prop :=
  ∀ (i : Instr) (s t : State), s.sr.sm = false → exec i s = .next t →
    (∃ e ea, t = entered e ea s) ∨
      (t.sr = s.sr ∧ t.ccrs = s.ccrs ∧ t.fpcsr = s.fpcsr ∧ (∀ c, c ≠ cur s → context t c = context s c) ∧
        context t (cur s) = { context s (cur s) with gpr := (context t (cur s)).gpr })

/-- R23, R49: no instruction touches a context that is not implemented, unless it is the current one, which no context is
while SR[CID] is legal. -/
def Obligations.UnimplementedContextsUntouched : Prop :=
  ∀ (i : Instr) (s t : State), exec i s = .next t →
    (∀ c : CtxNum, s.cfg.nctx ≤ c.val → c ≠ cur s → context t c = context s c) ∧
    (Invariant s → CidLegal s → (cur s).val < s.cfg.nctx)

/-- R70, R86: none of the six instructions, and no exception they take, changes memory: every byte reads as before, nothing more
counts as stored to, and the MMU's contents stay. -/
def Obligations.SixInstructionsLeaveMemory : Prop :=
  ∀ (i : Instr) (s t : State), exec i s = .next t →
    (∀ a, readByte a t.mem = readByte a s.mem) ∧ t.stored = s.stored ∧ t.mmu = s.mmu ∧ t.inputs = s.inputs ∧
      t.draws = s.draws ∧ t.cfg = s.cfg

/-- R27: the SR word has every field at its bit, FO 1 and bits 27-17 zero. -/
def Obligations.SrWordLayout : Prop :=
  ∀ s : SR,
    [0, 1, 2, 3, 4, 5, 6, 7, 8, 9, 10, 11, 12, 13, 14, 15, 16].map (packSr s).getLsbD =
      [s.sm, s.tee, s.iee, s.dce, s.ice, s.dme, s.ime, s.lee, s.ce, s.f, s.cy, s.ov, s.ove, s.dsx, s.eph, true, s.sumra] ∧
    (∀ j, 17 ≤ j → j ≤ 27 → (packSr s).getLsbD j = false) ∧ (packSr s).toNat / 2 ^ 28 = s.cid.toNat

/-- R26, R122: saving SR to an ESR word and taking the fields back loses nothing. -/
def Obligations.SrSurvivesEsr : Prop :=
  ∀ s : SR, unpackSr (packSr s) = s

/-- R71, R31: with the MMU of its kind absent or disabled an access is not translated; right after an exception no access
is, whatever the MMU holds. -/
def Obligations.HandlerRunsUntranslated : Prop :=
  ∀ (e : Exc) (ea a : Word) (kind : AccessKind) (s t : State),
    ((kind = .fetch → s.cfg.hasImmu = false ∨ s.sr.ime = false) →
      (kind ≠ .fetch → s.cfg.hasDmmu = false ∨ s.sr.dme = false) → translateAddress kind a s = .ok a) ∧
    (enterException e ea s = .next t → translateAddress kind a t = .ok a)

/-- R238: without fast context switching on, an exception taken right after another overwrites what the first saved: EPCR
holds the handler's address, ESR the handler's SR. -/
def Obligations.NestedEntryOverwrites : Prop :=
  ∀ (e e' : Exc) (ea ea' : Word) (s t u : State), (1 < s.cfg.nctx → s.sr.ce = false) →
    enterException e ea s = .next t → enterException e' ea' t = .next u →
    cur u = cur s ∧ (context u (cur s)).esr = packSr t.sr ∧
      (context u (cur s)).epcr =
        (if e' = .systemCall ∨ e' = .floatingPoint then t.pc + 4 else t.pc) ∧
      t.pc = vectorBaseOf s.cfg s.sr.eph + vectorOffset e

/-! ## The jump class, continued -/

/-- R173, U16 (log 24): a branch of the jump class that does not transfer control, outside a delay slot, whatever its target is,
its result writes allowed: it goes on, and whether its successor counts as a delay slot (of a jump to the address after it) is
open where there are delay slots. -/
def Obligations.UntakenBranchGoesOn : Prop :=
  ∀ (regs : List RegNum) (target : Word) (targetReg : Option RegNum) (ws : List RegWrite) (s : State), s.ds = .none →
    (∀ r ∈ targetReg.toList ++ regs ++ ws.map Prod.fst, r.val < s.cfg.ngpr) → (∀ w ∈ ws, WriteAllowed s w) →
    ∃ t, commit (effectPresented false (.jump regs false target targetReg ws) s) = .next t ∧ ResultsWritten ws s t ∧
      t.pc = s.pc + 4 ∧ (t.ds = .none ∨ (s.cfg.nd = false ∧ t.ds = .target (s.pc + 8) none))

/-- R74, log 5 and 24 (the model's choices): a taken jump of the jump class, its result writes allowed, to an address that is no
multiple of 4 is refused, clears its low two bits, or raises Alignment at the jump with nothing written, by the policy. -/
def Obligations.MisalignedClassJumpPolicies : Prop :=
  ∀ (regs : List RegNum) (target : Word) (targetReg : Option RegNum) (ws : List RegWrite) (s : State), s.ds = .none →
    (∀ r ∈ targetReg.toList ++ regs ++ ws.map Prod.fst, r.val < s.cfg.ngpr) → (∀ w ∈ ws, WriteAllowed s w) →
    target.toNat % 4 ≠ 0 →
    let out := commit (effectPresented false (.jump regs true target targetReg ws) s)
    (s.cfg.misaligned = .refuse → out = .refused .misalignedTarget) ∧
    (s.cfg.misaligned = .ignoreLow →
      ∃ (u : Word) (t : State), u.toNat = target.toNat - target.toNat % 4 ∧ out = .next t ∧ ResultsWritten ws s t ∧
        (s.cfg.nd = false → t.pc = s.pc + 4 ∧ t.ds = .target u targetReg) ∧
        (s.cfg.nd = true → t.pc = u ∧ t.ds = .none)) ∧
    (s.cfg.misaligned = .alignment → cidOverflows s = false →
      ∃ t, EntersAs 0x600 s.pc target s t ∧ out = .next t)

/-! ## The current context -/

/-- R35, R122: SR[CID] stays a legal value over every step but an l.rfe, with fast context switching not on, that restores the
CID of the saved SR. -/
def Obligations.CidStaysLegalButForRfe : Prop :=
  ∀ s t : State, Invariant s → CidLegal s → step s = .next t →
    CidLegal t ∨ (NextIs s .lRfe ∧ s.sr.ce = false ∧ t.sr.cid = (unpackSr (context s (cur s)).esr).cid)
end

