-- ==== Sys2Proof/Laws/Memory.lean ====
section
/-! SUPPORT. Memory: a read after a write, and the canonical form kept by every operation. -/

namespace Sys2Proof.Machine

theorem readByte_writeByte (a b : Nat) (v : Byte) (m : Memory) :
    readByte b (writeByte a v m) = if b = a then some v else readByte b m := by
  induction m with
  | nil => simp [writeByte, readByte]
  | cons x m ih =>
    obtain ⟨k, w⟩ := x
    simp only [writeByte]
    split
    · simp [readByte]
    · split
      · subst_vars
        simp only [readByte]
        split <;> simp_all
      · simp only [readByte, ih]
        split
        · have : ¬ b = a := by omega
          simp [this]
        · rfl

theorem readByte_writeByte_same (a : Nat) (v : Byte) (m : Memory) : readByte a (writeByte a v m) = some v := by
  simp [readByte_writeByte]

theorem readByte_writeByte_other {a b : Nat} (h : b ≠ a) (v : Byte) (m : Memory) :
    readByte b (writeByte a v m) = readByte b m := by
  simp [readByte_writeByte, h]

theorem mem_writeByte {a : Nat} {v : Byte} {m : Memory} {x : Host.Cell} (h : x ∈ writeByte a v m) :
    x = (a, v) ∨ x ∈ m := by
  induction m with
  | nil => simpa [writeByte] using h
  | cons y m ih =>
    obtain ⟨k, w⟩ := y
    simp only [writeByte] at h
    split at h
    · simpa using h
    · split at h
      · rcases List.mem_cons.1 h with h | h
        · exact .inl h
        · exact .inr (List.mem_cons_of_mem _ h)
      · rcases List.mem_cons.1 h with h | h
        · exact .inr (by simp [h])
        · exact (ih h).imp_right (List.mem_cons_of_mem _)

theorem writeByte_sorted (a : Nat) (v : Byte) (m : Memory) (h : m.Pairwise (fun x y => x.1 < y.1)) :
    (writeByte a v m).Pairwise (fun x y => x.1 < y.1) := by
  induction m with
  | nil => simp [writeByte]
  | cons y m ih =>
    obtain ⟨k, w⟩ := y
    have h' := List.pairwise_cons.1 h
    simp only [writeByte]
    split
    · rename_i lt
      refine List.pairwise_cons.2 ⟨fun x hx => ?_, h⟩
      rcases List.mem_cons.1 hx with rfl | hx
      · exact lt
      · exact lt.trans (h'.1 x hx)
    · split
      · subst_vars
        exact List.pairwise_cons.2 ⟨h'.1, h'.2⟩
      · refine List.pairwise_cons.2 ⟨fun x hx => ?_, ih h'.2⟩
        rcases mem_writeByte hx with rfl | hx
        · show k < a
          omega
        · exact h'.1 x hx

theorem writeByte_wf {a : Nat} (ha : a < 2 ^ 32) (v : Byte) {m : Memory} (h : Memory.wf m) :
    Memory.wf (writeByte a v m) := by
  refine ⟨writeByte_sorted a v m h.1, fun x hx => ?_⟩
  rcases mem_writeByte hx with rfl | hx
  · exact ha
  · exact h.2 x hx

theorem writeBytes_wf (a : Word) (bs : List Byte) {m : Memory} (h : Memory.wf m) : Memory.wf (writeBytes a bs m) := by
  induction bs generalizing a m with
  | nil => exact h
  | cons b bs ih => exact ih (a + 1) (writeByte_wf a.isLt b h)

theorem readByte_writeBytes_outside (x : Nat) (a : Word) (bs : List Byte) (m : Memory)
    (h : x ∉ addresses a bs.length) : readByte x (writeBytes a bs m) = readByte x m := by
  induction bs generalizing a m with
  | nil => rfl
  | cons b bs ih =>
    simp only [List.length_cons, addresses, List.mem_cons, not_or] at h
    rw [writeBytes, ih (a + 1) _ h.2, readByte_writeByte_other h.1]

theorem bytesOfWord_length (v : Word) (n : Nat) : (bytesOfWord v n).length = n := by
  induction n with
  | zero => rfl
  | succ n ih => simp [bytesOfWord, ih]

theorem inOrder_length (s : State) (bs : List Byte) : (inOrder s bs).length = bs.length := by
  unfold inOrder
  split <;> simp

theorem storeBytes_wf (pa : Word) (w : Width) (v : Word) {s : State} (h : Memory.wf s.mem) :
    Memory.wf (storeBytes pa w v s).mem := writeBytes_wf pa _ h

theorem storeBytes_outside (x : Nat) (pa : Word) (w : Width) (v : Word) (s : State) (h : x ∉ addresses pa w.bytes) :
    readByte x (storeBytes pa w v s).mem = readByte x s.mem := by
  refine readByte_writeBytes_outside x pa _ _ ?_
  rwa [inOrder_length, bytesOfWord_length]

theorem withFetchWord_wf (n w : Nat) {s : State} (h : Memory.wf s.mem) : Memory.wf (s.withFetchWord n w).mem :=
  writeBytes_wf _ _ h

/-- Four bytes written are the four bytes read back. -/
theorem readBytes_writeBytes_four (a : Word) (b0 b1 b2 b3 : Byte) (m : Memory) :
    readBytes (writeBytes a [b0, b1, b2, b3] m) a 4 = some [b0, b1, b2, b3] := by
  simp only [readBytes, writeBytes, readByte_writeByte]
  have h1 : a.toNat ≠ (a + 1).toNat := by bv_omega
  have h2 : a.toNat ≠ (a + 1 + 1).toNat := by bv_omega
  have h3 : a.toNat ≠ (a + 1 + 1 + 1).toNat := by bv_omega
  have h4 : (a + 1).toNat ≠ (a + 1 + 1).toNat := by bv_omega
  have h5 : (a + 1).toNat ≠ (a + 1 + 1 + 1).toNat := by bv_omega
  have h6 : (a + 1 + 1).toNat ≠ (a + 1 + 1 + 1).toNat := by bv_omega
  simp only [h1, h2, h3, h4, h5, h6, if_false, if_true]

end Sys2Proof.Machine
end

