-- ==== Sys2Proof/Laws/State.lean ====
section
/-! SUPPORT. One lemma per field per update, each true by rfl, so that no later proof unfolds a record update. -/

namespace Sys2Proof.Machine

/-! ### updateContext -/

@[simp] theorem updateContext_cfg (c : CtxNum) (f : Context → Context) (s : State) : (updateContext c f s).cfg = s.cfg := rfl
@[simp] theorem updateContext_pc (c : CtxNum) (f : Context → Context) (s : State) : (updateContext c f s).pc = s.pc := rfl
@[simp] theorem updateContext_ds (c : CtxNum) (f : Context → Context) (s : State) : (updateContext c f s).ds = s.ds := rfl
@[simp] theorem updateContext_ctx (c : CtxNum) (f : Context → Context) (s : State) : (updateContext c f s).ctx = s.ctx.set c (f (context s c)) := rfl
@[simp] theorem updateContext_sr (c : CtxNum) (f : Context → Context) (s : State) : (updateContext c f s).sr = s.sr := rfl
@[simp] theorem updateContext_ccrs (c : CtxNum) (f : Context → Context) (s : State) : (updateContext c f s).ccrs = s.ccrs := rfl
@[simp] theorem updateContext_fpcsr (c : CtxNum) (f : Context → Context) (s : State) : (updateContext c f s).fpcsr = s.fpcsr := rfl
@[simp] theorem updateContext_mmu (c : CtxNum) (f : Context → Context) (s : State) : (updateContext c f s).mmu = s.mmu := rfl
@[simp] theorem updateContext_mem (c : CtxNum) (f : Context → Context) (s : State) : (updateContext c f s).mem = s.mem := rfl
@[simp] theorem updateContext_stored (c : CtxNum) (f : Context → Context) (s : State) : (updateContext c f s).stored = s.stored := rfl
@[simp] theorem updateContext_inputs (c : CtxNum) (f : Context → Context) (s : State) : (updateContext c f s).inputs = s.inputs := rfl
@[simp] theorem updateContext_draws (c : CtxNum) (f : Context → Context) (s : State) : (updateContext c f s).draws = s.draws := rfl

/-! ### storeGpr -/

@[simp] theorem storeGpr_cfg (c : CtxNum) (r : RegNum) (v : Word) (s : State) : (storeGpr c r v s).cfg = s.cfg := rfl
@[simp] theorem storeGpr_pc (c : CtxNum) (r : RegNum) (v : Word) (s : State) : (storeGpr c r v s).pc = s.pc := rfl
@[simp] theorem storeGpr_ds (c : CtxNum) (r : RegNum) (v : Word) (s : State) : (storeGpr c r v s).ds = s.ds := rfl
@[simp] theorem storeGpr_sr (c : CtxNum) (r : RegNum) (v : Word) (s : State) : (storeGpr c r v s).sr = s.sr := rfl
@[simp] theorem storeGpr_ccrs (c : CtxNum) (r : RegNum) (v : Word) (s : State) : (storeGpr c r v s).ccrs = s.ccrs := rfl
@[simp] theorem storeGpr_fpcsr (c : CtxNum) (r : RegNum) (v : Word) (s : State) : (storeGpr c r v s).fpcsr = s.fpcsr := rfl
@[simp] theorem storeGpr_mmu (c : CtxNum) (r : RegNum) (v : Word) (s : State) : (storeGpr c r v s).mmu = s.mmu := rfl
@[simp] theorem storeGpr_mem (c : CtxNum) (r : RegNum) (v : Word) (s : State) : (storeGpr c r v s).mem = s.mem := rfl
@[simp] theorem storeGpr_stored (c : CtxNum) (r : RegNum) (v : Word) (s : State) : (storeGpr c r v s).stored = s.stored := rfl
@[simp] theorem storeGpr_inputs (c : CtxNum) (r : RegNum) (v : Word) (s : State) : (storeGpr c r v s).inputs = s.inputs := rfl
@[simp] theorem storeGpr_draws (c : CtxNum) (r : RegNum) (v : Word) (s : State) : (storeGpr c r v s).draws = s.draws := rfl

/-! ### entered -/

@[simp] theorem entered_cfg (e : Exc) (ea : Word) (s : State) : (entered e ea s).cfg = s.cfg := rfl
@[simp] theorem entered_pc (e : Exc) (ea : Word) (s : State) : (entered e ea s).pc = vectorAddress e s := rfl
@[simp] theorem entered_ds (e : Exc) (ea : Word) (s : State) : (entered e ea s).ds = .none := rfl
@[simp] theorem entered_ctx (e : Exc) (ea : Word) (s : State) : (entered e ea s).ctx = s.ctx.set (cur s) (savedContext e ea s (context s (cur s))) := rfl
@[simp] theorem entered_sr (e : Exc) (ea : Word) (s : State) : (entered e ea s).sr = entrySr (inDelaySlot s) (entryCid s) (Config.freeOveKept s.draws) s.sr := rfl
@[simp] theorem entered_ccrs (e : Exc) (ea : Word) (s : State) : (entered e ea s).ccrs = if switching s then BitVec.ofNat 16 (cur s).val else s.ccrs := rfl
@[simp] theorem entered_fpcsr (e : Exc) (ea : Word) (s : State) : (entered e ea s).fpcsr = s.fpcsr := rfl
@[simp] theorem entered_mmu (e : Exc) (ea : Word) (s : State) : (entered e ea s).mmu = s.mmu := rfl
@[simp] theorem entered_mem (e : Exc) (ea : Word) (s : State) : (entered e ea s).mem = s.mem := rfl
@[simp] theorem entered_stored (e : Exc) (ea : Word) (s : State) : (entered e ea s).stored = s.stored := rfl
@[simp] theorem entered_inputs (e : Exc) (ea : Word) (s : State) : (entered e ea s).inputs = s.inputs := rfl
@[simp] theorem entered_draws (e : Exc) (ea : Word) (s : State) : (entered e ea s).draws = s.draws := rfl

/-! ### enterReset -/

@[simp] theorem enterReset_cfg (s : State) : (enterReset s).cfg = s.cfg := rfl
@[simp] theorem enterReset_pc (s : State) : (enterReset s).pc = vectorBaseOf s.cfg false + vectorOffset .reset := rfl
@[simp] theorem enterReset_ds (s : State) : (enterReset s).ds = .none := rfl
@[simp] theorem enterReset_ctx (s : State) : (enterReset s).ctx = Vector.ofFn (resetContext s.draws) := rfl
@[simp] theorem enterReset_sr (s : State) : (enterReset s).sr = SR.reset := rfl
@[simp] theorem enterReset_ccrs (s : State) : (enterReset s).ccrs = 0 := rfl
@[simp] theorem enterReset_fpcsr (s : State) : (enterReset s).fpcsr = Config.freeResetFpcsr s.draws := rfl
@[simp] theorem enterReset_mmu (s : State) : (enterReset s).mmu = s.mmu := rfl
@[simp] theorem enterReset_mem (s : State) : (enterReset s).mem = s.mem := rfl
@[simp] theorem enterReset_stored (s : State) : (enterReset s).stored = s.stored := rfl
@[simp] theorem enterReset_inputs (s : State) : (enterReset s).inputs = s.inputs := rfl
@[simp] theorem enterReset_draws (s : State) : (enterReset s).draws = s.draws := rfl

/-! ### returned -/

@[simp] theorem returned_cfg (c : CtxNum) (t : Word) (s : State) : (returned c t s).cfg = s.cfg := rfl
@[simp] theorem returned_pc (c : CtxNum) (t : Word) (s : State) : (returned c t s).pc = t := rfl
@[simp] theorem returned_ds (c : CtxNum) (t : Word) (s : State) : (returned c t s).ds = .none := rfl
@[simp] theorem returned_ctx (c : CtxNum) (t : Word) (s : State) : (returned c t s).ctx = s.ctx := rfl
@[simp] theorem returned_sr (c : CtxNum) (t : Word) (s : State) : (returned c t s).sr = restoredSr s.cfg (context s c).esr := rfl
@[simp] theorem returned_ccrs (c : CtxNum) (t : Word) (s : State) : (returned c t s).ccrs = s.ccrs := rfl
@[simp] theorem returned_fpcsr (c : CtxNum) (t : Word) (s : State) : (returned c t s).fpcsr = s.fpcsr := rfl
@[simp] theorem returned_mmu (c : CtxNum) (t : Word) (s : State) : (returned c t s).mmu = s.mmu := rfl
@[simp] theorem returned_mem (c : CtxNum) (t : Word) (s : State) : (returned c t s).mem = s.mem := rfl
@[simp] theorem returned_stored (c : CtxNum) (t : Word) (s : State) : (returned c t s).stored = s.stored := rfl
@[simp] theorem returned_inputs (c : CtxNum) (t : Word) (s : State) : (returned c t s).inputs = s.inputs := rfl
@[simp] theorem returned_draws (c : CtxNum) (t : Word) (s : State) : (returned c t s).draws = s.draws := rfl

/-! ### beginStep -/

@[simp] theorem beginStep_cfg (s : State) : (beginStep s).cfg = s.cfg := rfl
@[simp] theorem beginStep_pc (s : State) : (beginStep s).pc = s.pc := rfl
@[simp] theorem beginStep_ds (s : State) : (beginStep s).ds = s.ds := rfl
@[simp] theorem beginStep_ctx (s : State) : (beginStep s).ctx = s.ctx := rfl
@[simp] theorem beginStep_sr (s : State) : (beginStep s).sr = s.sr := rfl
@[simp] theorem beginStep_ccrs (s : State) : (beginStep s).ccrs = s.ccrs := rfl
@[simp] theorem beginStep_fpcsr (s : State) : (beginStep s).fpcsr = s.fpcsr := rfl
@[simp] theorem beginStep_mmu (s : State) : (beginStep s).mmu = (nextInputs s).mmu.getD s.mmu := rfl
@[simp] theorem beginStep_mem (s : State) : (beginStep s).mem = s.mem := rfl
@[simp] theorem beginStep_stored (s : State) : (beginStep s).stored = s.stored := rfl
@[simp] theorem beginStep_inputs (s : State) : (beginStep s).inputs = s.inputs.tail := rfl
@[simp] theorem beginStep_draws (s : State) : (beginStep s).draws = s.draws + 1 := rfl

/-! ### storeBytes -/

@[simp] theorem storeBytes_cfg (pa : Word) (w : Width) (v : Word) (s : State) : (storeBytes pa w v s).cfg = s.cfg := rfl
@[simp] theorem storeBytes_pc (pa : Word) (w : Width) (v : Word) (s : State) : (storeBytes pa w v s).pc = s.pc := rfl
@[simp] theorem storeBytes_ds (pa : Word) (w : Width) (v : Word) (s : State) : (storeBytes pa w v s).ds = s.ds := rfl
@[simp] theorem storeBytes_ctx (pa : Word) (w : Width) (v : Word) (s : State) : (storeBytes pa w v s).ctx = s.ctx := rfl
@[simp] theorem storeBytes_sr (pa : Word) (w : Width) (v : Word) (s : State) : (storeBytes pa w v s).sr = s.sr := rfl
@[simp] theorem storeBytes_ccrs (pa : Word) (w : Width) (v : Word) (s : State) : (storeBytes pa w v s).ccrs = s.ccrs := rfl
@[simp] theorem storeBytes_fpcsr (pa : Word) (w : Width) (v : Word) (s : State) : (storeBytes pa w v s).fpcsr = s.fpcsr := rfl
@[simp] theorem storeBytes_mmu (pa : Word) (w : Width) (v : Word) (s : State) : (storeBytes pa w v s).mmu = s.mmu := rfl
@[simp] theorem storeBytes_mem (pa : Word) (w : Width) (v : Word) (s : State) : (storeBytes pa w v s).mem = writeBytes pa (inOrder s (bytesOfWord v w.bytes)) s.mem := rfl
@[simp] theorem storeBytes_stored (pa : Word) (w : Width) (v : Word) (s : State) : (storeBytes pa w v s).stored = addresses pa w.bytes ++ s.stored := rfl
@[simp] theorem storeBytes_inputs (pa : Word) (w : Width) (v : Word) (s : State) : (storeBytes pa w v s).inputs = s.inputs := rfl
@[simp] theorem storeBytes_draws (pa : Word) (w : Width) (v : Word) (s : State) : (storeBytes pa w v s).draws = s.draws := rfl

/-! ### withFetchWord -/

@[simp] theorem withFetchWord_cfg (s : State) (n w : Nat) : (s.withFetchWord n w).cfg = s.cfg := rfl
@[simp] theorem withFetchWord_pc (s : State) (n w : Nat) : (s.withFetchWord n w).pc = s.pc := rfl
@[simp] theorem withFetchWord_ds (s : State) (n w : Nat) : (s.withFetchWord n w).ds = s.ds := rfl
@[simp] theorem withFetchWord_ctx (s : State) (n w : Nat) : (s.withFetchWord n w).ctx = s.ctx := rfl
@[simp] theorem withFetchWord_sr (s : State) (n w : Nat) : (s.withFetchWord n w).sr = s.sr := rfl
@[simp] theorem withFetchWord_ccrs (s : State) (n w : Nat) : (s.withFetchWord n w).ccrs = s.ccrs := rfl
@[simp] theorem withFetchWord_fpcsr (s : State) (n w : Nat) : (s.withFetchWord n w).fpcsr = s.fpcsr := rfl
@[simp] theorem withFetchWord_mmu (s : State) (n w : Nat) : (s.withFetchWord n w).mmu = s.mmu := rfl
@[simp] theorem withFetchWord_inputs (s : State) (n w : Nat) : (s.withFetchWord n w).inputs = s.inputs := rfl
@[simp] theorem withFetchWord_draws (s : State) (n w : Nat) : (s.withFetchWord n w).draws = s.draws := rfl

/-! ### advance -/

@[simp] theorem advance_cfg (s : State) : (advance s).cfg = s.cfg := by
  unfold advance
  cases s.ds <;> rfl
@[simp] theorem advance_ctx (s : State) : (advance s).ctx = s.ctx := by
  unfold advance
  cases s.ds <;> rfl
@[simp] theorem advance_sr (s : State) : (advance s).sr = s.sr := by
  unfold advance
  cases s.ds <;> rfl
@[simp] theorem advance_ccrs (s : State) : (advance s).ccrs = s.ccrs := by
  unfold advance
  cases s.ds <;> rfl
@[simp] theorem advance_fpcsr (s : State) : (advance s).fpcsr = s.fpcsr := by
  unfold advance
  cases s.ds <;> rfl
@[simp] theorem advance_mmu (s : State) : (advance s).mmu = s.mmu := by
  unfold advance
  cases s.ds <;> rfl
@[simp] theorem advance_mem (s : State) : (advance s).mem = s.mem := by
  unfold advance
  cases s.ds <;> rfl
@[simp] theorem advance_stored (s : State) : (advance s).stored = s.stored := by
  unfold advance
  cases s.ds <;> rfl
@[simp] theorem advance_inputs (s : State) : (advance s).inputs = s.inputs := by
  unfold advance
  cases s.ds <;> rfl
@[simp] theorem advance_draws (s : State) : (advance s).draws = s.draws := by
  unfold advance
  cases s.ds <;> rfl

@[simp] theorem advance_ds (s : State) : (advance s).ds = .none := by
  unfold advance
  cases h : s.ds <;> first | exact h | rfl

/-! ### Contexts -/

theorem context_congr {s t : State} (h : t.ctx = s.ctx) (c : CtxNum) : context t c = context s c := by
  simp [context, h]

theorem context_set (s : State) (c d : CtxNum) (k : Context) :
    context { s with ctx := s.ctx.set c k } d = if d = c then k else context s d := by
  by_cases h : d = c
  · subst h; simp [context]
  · have : c.val ≠ d.val := fun e => h (Fin.ext e.symm)
    simp [context, h, this]

@[simp] theorem context_updateContext_same (c : CtxNum) (f : Context → Context) (s : State) :
    context (updateContext c f s) c = f (context s c) := by
  simp [updateContext, context_set]

theorem context_updateContext_other {c d : CtxNum} (h : d ≠ c) (f : Context → Context) (s : State) :
    context (updateContext c f s) d = context s d := by
  simp [updateContext, context_set, h]

@[simp] theorem context_entered_same (e : Exc) (ea : Word) (s : State) :
    context (entered e ea s) (cur s) = savedContext e ea s (context s (cur s)) :=
  (context_congr rfl _).trans (context_updateContext_same _ _ _)

theorem context_entered_other {s : State} {c : CtxNum} (h : c ≠ cur s) (e : Exc) (ea : Word) :
    context (entered e ea s) c = context s c :=
  (context_congr rfl _).trans (context_updateContext_other h _ _)

@[simp] theorem context_advance (s : State) (c : CtxNum) : context (advance s) c = context s c :=
  context_congr (advance_ctx s) c

@[simp] theorem context_returned (c d : CtxNum) (t : Word) (s : State) :
    context (returned c t s) d = context s d := rfl

@[simp] theorem context_enterReset (s : State) (c : CtxNum) :
    context (enterReset s) c = resetContext s.draws c := by
  simp [context]

/-! ### entrySr -/

@[simp] theorem entrySr_sm (d : Bool) (c : BitVec 4) (k : Bool) (s : SR) : (entrySr d c k s).sm = true := rfl
@[simp] theorem entrySr_tee (d : Bool) (c : BitVec 4) (k : Bool) (s : SR) : (entrySr d c k s).tee = false := rfl
@[simp] theorem entrySr_iee (d : Bool) (c : BitVec 4) (k : Bool) (s : SR) : (entrySr d c k s).iee = false := rfl
@[simp] theorem entrySr_dce (d : Bool) (c : BitVec 4) (k : Bool) (s : SR) : (entrySr d c k s).dce = s.dce := rfl
@[simp] theorem entrySr_ice (d : Bool) (c : BitVec 4) (k : Bool) (s : SR) : (entrySr d c k s).ice = s.ice := rfl
@[simp] theorem entrySr_dme (d : Bool) (c : BitVec 4) (k : Bool) (s : SR) : (entrySr d c k s).dme = false := rfl
@[simp] theorem entrySr_ime (d : Bool) (c : BitVec 4) (k : Bool) (s : SR) : (entrySr d c k s).ime = false := rfl
@[simp] theorem entrySr_lee (d : Bool) (c : BitVec 4) (k : Bool) (s : SR) : (entrySr d c k s).lee = s.lee := rfl
@[simp] theorem entrySr_ce (d : Bool) (c : BitVec 4) (k : Bool) (s : SR) : (entrySr d c k s).ce = s.ce := rfl
@[simp] theorem entrySr_f (d : Bool) (c : BitVec 4) (k : Bool) (s : SR) : (entrySr d c k s).f = s.f := rfl
@[simp] theorem entrySr_cy (d : Bool) (c : BitVec 4) (k : Bool) (s : SR) : (entrySr d c k s).cy = s.cy := rfl
@[simp] theorem entrySr_ov (d : Bool) (c : BitVec 4) (k : Bool) (s : SR) : (entrySr d c k s).ov = s.ov := rfl
@[simp] theorem entrySr_ove (d : Bool) (c : BitVec 4) (k : Bool) (s : SR) : (entrySr d c k s).ove = (s.ove && k) := rfl
@[simp] theorem entrySr_dsx (d : Bool) (c : BitVec 4) (k : Bool) (s : SR) : (entrySr d c k s).dsx = d := rfl
@[simp] theorem entrySr_eph (d : Bool) (c : BitVec 4) (k : Bool) (s : SR) : (entrySr d c k s).eph = s.eph := rfl
@[simp] theorem entrySr_sumra (d : Bool) (c : BitVec 4) (k : Bool) (s : SR) : (entrySr d c k s).sumra = s.sumra := rfl
@[simp] theorem entrySr_cid (d : Bool) (c : BitVec 4) (k : Bool) (s : SR) : (entrySr d c k s).cid = c := rfl

end Sys2Proof.Machine
end

