-- ==== Sys2Proof/Laws/Ops.lean ====
section
/-! SUPPORT. For each shared operation, one lemma that says everything it can do; later proofs cite these instead of
unfolding the operation. -/

namespace Sys2Proof.Machine

/-! ### Aligned addresses and targets -/

theorem aligned4_iff (a : Word) : aligned4 a = true ↔ a.toNat % 4 = 0 := by simp [aligned4]

theorem checkTarget_of_aligned {cfg : Config} {t : Word} (h : t.toNat % 4 = 0) : checkTarget cfg t = .goes t := by
  simp [checkTarget, aligned4, h]

theorem checkTarget_goes {cfg : Config} {t u : Word} (h : checkTarget cfg t = .goes u) : u.toNat % 4 = 0 := by
  unfold checkTarget at h
  split at h
  · rename_i a
    cases h
    exact (aligned4_iff t).1 a
  · split at h
    · cases h
    · cases h
      simp only [BitVec.toNat_shiftLeft, BitVec.toNat_ushiftRight]
      omega
    · cases h

/-! ### Contexts and registers -/

theorem hasContexts_iff (cfg : Config) : hasContexts cfg = true ↔ 1 < cfg.nctx := by simp [hasContexts]

theorem cur_of_single {s : State} (h : hasContexts s.cfg = false) : cur s = 0 := by simp [cur, h]

theorem cur_of_contexts {s : State} (h : hasContexts s.cfg = true) : cur s = s.sr.cid.toFin := by simp [cur, h]

theorem setGprAt_cases {c : CtxNum} {r : RegNum} {v : Word} {s t : State} (h : setGprAt c r v s = .ok t) :
    (t = s ∧ r = 0 ∧ s.cfg.r0 = .hardwired) ∨ t = storeGpr c r v s := by
  unfold setGprAt at h
  split at h
  · cases h
  · split at h
    · split at h
      · cases h; exact .inr rfl
      · cases h; exact .inl ⟨rfl, by assumption, by assumption⟩
      · split at h
        · cases h; exact .inr rfl
        · cases h
    · cases h; exact .inr rfl

/-- A register write that the policies allow (R144, R22) succeeds; into a hard-wired register 0 it writes nothing. -/
theorem setGprAt_allowed {c : CtxNum} {r : RegNum} {v : Word} {s : State}
    (slot : ¬ (s.cfg.slotWrite = .refuse ∧ pendingReg s = some r ∧ c = cur s))
    (r0 : r = 0 → s.cfg.r0 = .refuse → v = 0) :
    setGprAt c r v s = .ok (if r = 0 ∧ s.cfg.r0 = .hardwired then s else storeGpr c r v s) := by
  unfold setGprAt writesPendingReg
  rw [if_neg (by simp; tauto)]
  split
  · rename_i h
    split <;> simp_all
  · simp_all

/-- A register write changes nothing but general-purpose registers of one context. -/
theorem setGprAt_frame {c : CtxNum} {r : RegNum} {v : Word} {s t : State} (h : setGprAt c r v s = .ok t) :
    t = { s with ctx := t.ctx } ∧ (∀ d, d ≠ c → context t d = context s d) ∧
      context t c = { context s c with gpr := (context t c).gpr } := by
  rcases setGprAt_cases h with ⟨rfl, -⟩ | rfl
  · exact ⟨rfl, fun _ _ => rfl, rfl⟩
  · refine ⟨rfl, fun d hd => context_updateContext_other hd _ s, ?_⟩
    simp [storeGpr]

/-- What a stored register reads as, and every other register of its context. -/
theorem storeGpr_read (c : CtxNum) (r q : RegNum) (v : Word) (s : State) :
    (context (storeGpr c r v s) c).gpr[q] = if q = r then v else (context s c).gpr[q] := by
  by_cases h : q = r
  · subst h; simp [storeGpr]
  · have : r.val ≠ q.val := fun e => h (Fin.ext e.symm)
    simp [storeGpr, h, this]

theorem setGprs_frame {ws : List RegWrite} {s t : State} (h : setGprs ws s = .ok t) :
    t = { s with ctx := t.ctx } ∧ (∀ d, d ≠ cur s → context t d = context s d) ∧
      context t (cur s) = { context s (cur s) with gpr := (context t (cur s)).gpr } := by
  induction ws generalizing s with
  | nil => cases h; exact ⟨rfl, fun _ _ => rfl, rfl⟩
  | cons w ws ih =>
    obtain ⟨r, v⟩ := w
    simp only [setGprs] at h
    split at h
    · rename_i u hu
      obtain ⟨e1, o1, c1⟩ := setGprAt_frame hu
      obtain ⟨e2, o2, c2⟩ := ih h
      have hc : cur u = cur s := by rw [e1]; rfl
      rw [hc] at o2 c2
      refine ⟨?_, fun d hd => (o2 d hd).trans (o1 d hd), ?_⟩
      · rw [e2, e1]
      · rw [c2, c1]
    · cases h

/-! ### Completing, raising -/

theorem advancing_completes {r : Except Refusal State} {u : State} (h : advancing r = .completes u) :
    ∃ t, r = .ok t ∧ u = advance t := by
  cases r with
  | ok t => simp only [advancing, Effect.completes.injEq] at h; exact ⟨t, rfl, h.symm⟩
  | error e => simp [advancing] at h

theorem advance_pc_of_none {s : State} (h : s.ds = .none) : (advance s).pc = s.pc + 4 := by simp [advance, h]

theorem advance_pc_of_target {s : State} {t : Word} {r : Option RegNum} (h : s.ds = .target t r) :
    (advance s).pc = t := by simp [advance, h]

theorem inDelaySlot_none {s : State} (h : s.ds = .none) : inDelaySlot s = false := by simp [inDelaySlot, h]

theorem inDelaySlot_iff (s : State) : inDelaySlot s = false ↔ s.ds = .none := by
  unfold inDelaySlot
  cases s.ds <;> simp

theorem enterException_of_room {e : Exc} {ea : Word} {s : State} (h : cidOverflows s = false) :
    enterException e ea s = .next (entered e ea s) := by simp [enterException, h]

/-- Everything exception entry can answer with a next state. -/
theorem enterException_next {e : Exc} {ea : Word} {s t : State} (h : enterException e ea s = .next t) :
    (cidOverflows s = false ∧ t = entered e ea s) ∨
      (cidOverflows s = true ∧ s.cfg.cidOverflow = .execute ∧ t = entered .range 0 s) := by
  unfold enterException at h
  split at h
  · rename_i o
    split at h
    · cases h
    · rename_i p
      cases h
      exact .inr ⟨o, p, rfl⟩
  · rename_i o
    cases h
    exact .inl ⟨by simpa using o, rfl⟩

/-- In either case it is an entry. -/
theorem enterException_entered {e : Exc} {ea : Word} {s t : State} (h : enterException e ea s = .next t) :
    ∃ e' ea', t = entered e' ea' s := by
  rcases enterException_next h with ⟨-, rfl⟩ | ⟨-, -, rfl⟩ <;> exact ⟨_, _, rfl⟩

/-- Everything the commitment of an effect can answer with a next state. -/
theorem commit_next {eff : Effect} {u : State} (h : commit eff = .next u) :
    eff = .completes u ∨ ∃ e ea t, eff = .raises e ea t ∧ enterException e ea t = .next u := by
  cases eff with
  | completes t => cases h; exact .inl rfl
  | raises e ea t => exact .inr ⟨e, ea, t, rfl, h⟩
  | faults f => cases h
  | refuses r => cases h

/-- `exec` commits the effect the step looks at. -/
theorem exec_eq_commit (i : Instr) (s : State) : exec i s = commit (effect i s) := by cases i <;> rfl

theorem jumpTo_completes {t : Word} {r : Option RegNum} {s u : State} (h : jumpTo t r s = .completes u) :
    ∃ a, checkTarget s.cfg t = .goes a ∧
      u = if s.cfg.nd then { s with pc := a } else { s with pc := s.pc + 4, ds := .target a r } := by
  unfold jumpTo at h
  split at h
  · cases h
  · cases h
  · rename_i a ha
    refine ⟨a, ha, ?_⟩
    split at h <;> cases h <;> simp_all

theorem jumpTo_raises {t : Word} {r : Option RegNum} {s u : State} {e : Exc} {ea : Word}
    (h : jumpTo t r s = .raises e ea u) : e = .alignment ∧ ea = t ∧ u = s := by
  unfold jumpTo at h
  split at h
  · cases h
  · cases h; exact ⟨rfl, rfl, rfl⟩
  · split at h <;> cases h

theorem privilegeEffect_raises {s u : State} {e : Exc} {ea : Word} (h : privilegeEffect s = .raises e ea u) :
    e = .illegalInsn ∧ ea = s.pc ∧ u = s := by
  unfold privilegeEffect at h
  split at h
  · cases h
  · cases h; exact ⟨rfl, rfl, rfl⟩

theorem privilegeEffect_not_completes (s u : State) : privilegeEffect s ≠ .completes u := by
  unfold privilegeEffect
  split <;> simp

/-! ### SR -/

/-- Bit `i` of the SR word (R27). -/
theorem packSr_bits (s : SR) :
    (packSr s).getLsbD 0 = s.sm ∧ (packSr s).getLsbD 1 = s.tee ∧ (packSr s).getLsbD 2 = s.iee ∧
    (packSr s).getLsbD 5 = s.dme ∧ (packSr s).getLsbD 6 = s.ime ∧ (packSr s).getLsbD 8 = s.ce ∧
    (packSr s).getLsbD 11 = s.ov ∧ (packSr s).getLsbD 13 = s.dsx := by
  simp only [packSr, BitVec.getLsbD_append]
  simp

theorem srWrite_ok {cfg : Config} {n : Nat} {old new : SR} {v : Word} (h : srWrite cfg n old v = .ok new) :
    new = { unpackSr v with ce := new.ce, dsx := new.dsx, cid := new.cid } ∧
      (new.cid = old.cid ∨ (hasContexts cfg = true ∧ new.cid.toNat < cfg.nctx)) := by
  unfold srWrite at h
  simp only at h
  split at h
  · split at h
    · rename_i e
      cases h
      exact ⟨rfl, .inl e.1⟩
    · cases h
  · cases h
    refine ⟨rfl, ?_⟩
    simp only [writtenCid, writtenIf]
    split
    · rename_i c
      simp only [Bool.and_eq_true, decide_eq_true_eq] at c
      split
      · exact .inl rfl
      · split
        · exact .inr c
        · exact .inl rfl
    · exact .inl rfl

/-- The restored SR is the saved one; SR[CID] stays 0 where there is one context (R35). -/
theorem restoredSr_eq (cfg : Config) (esr : Word) :
    restoredSr cfg esr = if 1 < cfg.nctx then unpackSr esr else { unpackSr esr with cid := 0 } := by
  simp [restoredSr, fixCid, hasContexts]

end Sys2Proof.Machine
end

