-- ==== Sys2Proof/Laws/PerInstr.lean ====
section
/-! SUPPORT. Statements about every instruction, one lemma per constructor: the encoder sets each row's fixed bits as the
opcode table has them (R104). -/

namespace Sys2Proof.Laws.FixedBits

/-- The bits under the row's mask are the row's match (R104). -/
def Statement (i : Instr) : Prop := encode i &&& encodingMask i = encodingMatch i

theorem lSys (k : Half) : Statement (.lSys k) := by
  unfold Statement encode encodingMask encodingMatch
  ext j hj
  interval_cases j <;> simp

theorem lTrap (k : Half) : Statement (.lTrap k) := by
  unfold Statement encode encodingMask encodingMatch
  ext j hj
  interval_cases j <;> simp

theorem lRfe : Statement .lRfe := by
  unfold Statement
  decide

theorem lJr (b : RegNum) : Statement (.lJr b) := by
  unfold Statement
  revert b
  decide

theorem lMfspr (d a : RegNum) (k : Half) : Statement (.lMfspr d a k) := by
  unfold Statement encode encodingMask encodingMatch regBits
  ext j hj
  interval_cases j <;> simp

theorem lMtspr (a b : RegNum) (k : Half) : Statement (.lMtspr a b k) := by
  unfold Statement encode encodingMask encodingMatch regBits
  ext j hj
  interval_cases j <;> simp

end Sys2Proof.Laws.FixedBits
end

