-- ==== Sys2Proof/Laws/Step.lean ====
section
/-! SUPPORT. What one instruction and one step can do, said once: every way an SPR write, the effect of an instruction and a
step can end in a next state. -/

namespace Sys2Proof.Machine

theorem advance_eq (s : State) : advance s = { s with pc := (advance s).pc, ds := .none } := by
  unfold advance
  cases h : s.ds <;> simp [← h]

theorem regsImplemented_iff (cfg : Config) (regs : List RegNum) :
    regsImplemented cfg regs = true ↔ ∀ r ∈ regs, r.val < cfg.ngpr := by simp [regsImplemented]

/-- A register write that is an ordinary one succeeds. -/
theorem setGprAt_ordinary {c : CtxNum} {r : RegNum} {v : Word} {s : State}
    (slot : ¬ (s.cfg.slotWrite = .refuse ∧ pendingReg s = some r ∧ c = cur s)) (r0 : r = 0 → s.cfg.r0 = .ordinary) :
    setGprAt c r v s = .ok (storeGpr c r v s) := by
  rw [setGprAt_allowed slot fun h e => by simp [r0 h] at e, if_neg]
  rintro ⟨h, e⟩
  simp [r0 h] at e

/-! ### SPR numbers -/

theorem copyOf_some {cfg : Config} {k : Nat} {f : CtxNum → Spr} {p : Spr} (hk : k < 16) (h : copyOf cfg k f = some p) :
    ∃ c : CtxNum, p = f c ∧ c.val < cfg.nctx := by
  unfold copyOf at h
  split at h
  · cases h
    refine ⟨_, rfl, ?_⟩
    rw [Fin.val_ofNat, Nat.mod_eq_of_lt hk]
    assumption
  · cases h

/-- Every register an SPR number names is implemented (R49, U12). -/
theorem sprOf_some {cfg : Config} {n : Half} {p : Spr} (h : sprOf cfg n = some p) :
    p = .cpucfgr ∨ p = .sr ∨ (p = .fpcsr ∧ cfg.hasFpu = true) ∨
      (∃ c : CtxNum, c.val < cfg.nctx ∧ (p = .epcr c ∨ p = .eear c ∨ p = .esr c ∨ ∃ r, p = .gpr c r)) ∨
      (p = .cxr ∧ 1 < cfg.nctx) := by
  have hlt := n.isLt
  unfold sprOf at h
  simp only at h
  split at h
  · cases h; exact .inl rfl
  split at h
  · cases h; exact .inr (.inl rfl)
  split at h
  · split at h
    · cases h; exact .inr (.inr (.inl ⟨rfl, ‹_›⟩))
    · cases h
  split at h
  · obtain ⟨c, rfl, hc⟩ := copyOf_some (by omega) h
    exact .inr (.inr (.inr (.inl ⟨c, hc, .inl rfl⟩)))
  split at h
  · obtain ⟨c, rfl, hc⟩ := copyOf_some (by omega) h
    exact .inr (.inr (.inr (.inl ⟨c, hc, .inr (.inl rfl)⟩)))
  split at h
  · obtain ⟨c, rfl, hc⟩ := copyOf_some (by omega) h
    exact .inr (.inr (.inr (.inl ⟨c, hc, .inr (.inr (.inl rfl))⟩)))
  split at h
  · split at h
    · obtain ⟨c, rfl, hc⟩ := copyOf_some (by omega) h
      exact .inr (.inr (.inr (.inl ⟨c, hc, .inr (.inr (.inr ⟨_, rfl⟩))⟩)))
    · cases h
  split at h
  · rename_i hx
    cases h
    exact .inr (.inr (.inr (.inr ⟨rfl, (hasContexts_iff cfg).1 hx.2⟩)))
  · cases h

/-- Everything an SPR write can do. -/
theorem sprWriteNumber_cases {n : Half} {v : Word} {s t : State} (h : sprWriteNumber n v s = .ok t) :
    t = s ∨ (∃ sr, srWrite s.cfg s.draws s.sr v = .ok sr ∧ t = { s with sr := sr }) ∨ t = { s with fpcsr := v } ∨
      (∃ (c : CtxNum) (f : Context → Context), c.val < s.cfg.nctx ∧ t = updateContext c f s) ∨
      ((v.extractLsb' 16 16).toNat < s.cfg.nctx ∧ 1 < s.cfg.nctx ∧
        t = { s with ccrs := v.extractLsb' 0 16, sr := { s.sr with cid := v.extractLsb' 16 4 } }) := by
  unfold sprWriteNumber at h
  split at h
  · rename_i p hp
    rcases sprOf_some hp with rfl | rfl | ⟨rfl, -⟩ | ⟨c, hc, rfl | rfl | rfl | ⟨r, rfl⟩⟩ | ⟨rfl, hx⟩
    · cases h; exact .inl rfl
    · simp only [sprWrite] at h
      split at h
      · cases h; exact .inr (.inl ⟨_, ‹_›, rfl⟩)
      · cases h
    · cases h; exact .inr (.inr (.inl rfl))
    · cases h; exact .inr (.inr (.inr (.inl ⟨_, _, hc, rfl⟩)))
    · cases h; exact .inr (.inr (.inr (.inl ⟨_, _, hc, rfl⟩)))
    · cases h; exact .inr (.inr (.inr (.inl ⟨_, _, hc, rfl⟩)))
    · rcases setGprAt_cases h with ⟨rfl, -⟩ | rfl
      · exact .inl rfl
      · exact .inr (.inr (.inr (.inl ⟨_, _, hc, rfl⟩)))
    · simp only [sprWrite] at h
      split at h
      · cases h; exact .inr (.inr (.inr (.inr ⟨‹_›, hx, rfl⟩)))
      · cases h
  · split at h <;> cases h <;> exact .inl rfl

/-! ### The effect of an instruction -/

/-- Every way an instruction completes. -/
theorem effect_completes {i : Instr} {s u : State} (h : effect i s = .completes u) :
    u = advance s ∨
      (i = .lRfe ∧ s.sr.sm = true ∧ s.ds = .none ∧ ¬ (switching s = true ∧ s.sr.cid = 0) ∧
        esrCidAltered (returnContext s) s = false ∧ ∃ t, t.toNat % 4 = 0 ∧ u = returned (returnContext s) t s) ∨
      (∃ a r, a.toNat % 4 = 0 ∧
        u = if s.cfg.nd then { s with pc := a } else { s with pc := s.pc + 4, ds := .target a r }) ∨
      (∃ d v t, setGpr d v s = .ok t ∧ u = advance t) ∨
      (s.sr.sm = true ∧ ∃ n v t, sprWriteNumber n v s = .ok t ∧ u = advance t) := by
  cases i with
  | lSys k => cases h
  | lTrap k =>
    simp only [effect, effectLTrap] at h
    repeat' split at h
    all_goals cases h
    exact .inl rfl
  | lRfe =>
    simp only [effect, effectLRfe] at h
    split at h
    · exact absurd h (privilegeEffect_not_completes _ _)
    rename_i hm
    unfold returnEffect at h
    split at h
    · cases h
    rename_i hd
    split at h
    · cases h
    rename_i hu
    split at h
    · cases h
    · cases h
    · rename_i t ht
      split at h
      · cases h
      · rename_i ha
        cases h
        exact .inr (.inl ⟨rfl, by simpa using hm, (inDelaySlot_iff s).1 (by simpa using hd), hu, by simpa using ha, t,
          checkTarget_goes ht, rfl⟩)
  | lJr b =>
    simp only [effect, effectLJr] at h
    split at h
    · cases h
    split at h
    · obtain ⟨a, h1, h2⟩ := jumpTo_completes h
      exact .inr (.inr (.inl ⟨a, some b, checkTarget_goes h1, h2⟩))
    · cases h
  | lMfspr d a k =>
    simp only [effect, effectLMfspr] at h
    split at h
    · exact absurd h (privilegeEffect_not_completes _ _)
    split at h
    · obtain ⟨t, ht, rfl⟩ := advancing_completes h
      unfold mfsprWrite at ht
      split at ht
      · cases ht
      split at ht
      · exact .inr (.inr (.inr (.inl ⟨_, _, t, ht, rfl⟩)))
      · cases ht
    · cases h
  | lMtspr a b k =>
    simp only [effect, effectLMtspr] at h
    split at h
    · exact absurd h (privilegeEffect_not_completes _ _)
    split at h
    · obtain ⟨t, ht, rfl⟩ := advancing_completes h
      unfold mtsprWrite at ht
      split at ht
      · exact .inr (.inr (.inr (.inr ⟨‹_›, _, _, t, ht, rfl⟩)))
      · cases ht
        exact .inl rfl
    · cases h

/-- An instruction that raises has written nothing (R223, `raise`), and never raises Reset. -/
theorem effect_raises {i : Instr} {s u : State} {e : Exc} {ea : Word} (h : effect i s = .raises e ea u) :
    u = s ∧ e ≠ .reset := by
  cases i with
  | lSys k => cases h; exact ⟨rfl, by decide⟩
  | lTrap k =>
    simp only [effect, effectLTrap] at h
    repeat' split at h
    all_goals cases h
    all_goals exact ⟨rfl, by decide⟩
  | lRfe =>
    simp only [effect, effectLRfe] at h
    split at h
    · obtain ⟨rfl, -, rfl⟩ := privilegeEffect_raises h
      exact ⟨rfl, by decide⟩
    · unfold returnEffect at h
      repeat' split at h
      all_goals cases h
      all_goals exact ⟨rfl, by decide⟩
  | lJr b =>
    simp only [effect, effectLJr] at h
    repeat' split at h
    · cases h
    · obtain ⟨rfl, -, rfl⟩ := jumpTo_raises h
      exact ⟨rfl, by decide⟩
    · cases h; exact ⟨rfl, by decide⟩
  | lMfspr d a k =>
    simp only [effect, effectLMfspr] at h
    repeat' split at h
    · obtain ⟨rfl, -, rfl⟩ := privilegeEffect_raises h
      exact ⟨rfl, by decide⟩
    · unfold advancing at h
      split at h <;> cases h
    · cases h; exact ⟨rfl, by decide⟩
  | lMtspr a b k =>
    simp only [effect, effectLMtspr] at h
    repeat' split at h
    · obtain ⟨rfl, -, rfl⟩ := privilegeEffect_raises h
      exact ⟨rfl, by decide⟩
    · unfold advancing at h
      split at h <;> cases h
    · cases h; exact ⟨rfl, by decide⟩

/-- An instruction executed ends in its completion or in an exception entered from the state before it. -/
theorem exec_next {i : Instr} {s t : State} (h : exec i s = .next t) :
    effect i s = .completes t ∨ ∃ e ea, t = entered e ea s := by
  rw [exec_eq_commit] at h
  rcases commit_next h with h | ⟨e, ea, u, h1, h2⟩
  · exact .inl h
  · obtain ⟨rfl, -⟩ := effect_raises h1
    exact .inr (enterException_entered h2)

/-! ### The abstract classes -/

theorem openResults_frame (ws : List RegWrite) (s : State) : openResults ws s = { s with ctx := (openResults ws s).ctx } := by
  have key : ∀ (ws : List RegWrite) (f : State → RegWrite → State) (t : State),
      (∀ t w, t = { s with ctx := t.ctx } → f t w = { s with ctx := (f t w).ctx }) → t = { s with ctx := t.ctx } →
      ws.foldl f t = { s with ctx := (ws.foldl f t).ctx } := by
    intro ws f
    induction ws with
    | nil => intro t _ h; exact h
    | cons w ws ih => intro t hf h; exact ih (f t w) hf (hf t w h)
  refine key ws _ s (fun t w h => ?_) rfl
  split
  · exact h
  · rw [h]; rfl

theorem advancing_not_raises (r : Except Refusal State) (e : Exc) (ea : Word) (u : State) :
    advancing r ≠ .raises e ea u := by cases r <;> simp [advancing]

/-- Every way an instruction of an abstract class raises: from the state before it, from that state with results and FPCSR
written (`raise_after`), or with open registers and SR[OV] (U15). -/
theorem effectPresented_raises {be : Bool} {p : Presented} {s u : State} {e : Exc} {ea : Word}
    (h : effectPresented be p s = .raises e ea u) :
    u = s ∨ (∃ ws t, setGprs ws s = .ok t ∧ ∃ w, u = { t with fpcsr := w }) ∨
      ∃ ws o, u = { openResults ws s with sr := { s.sr with ov := o } } := by
  cases p with
  | load ea w regs d sg =>
    simp only [effectPresented, effectLoad] at h
    repeat' split at h
    · cases h; exact .inl rfl
    · cases h
    · exact absurd h (advancing_not_raises _ _ _ _)
    · cases h; exact .inl rfl
  | store ea w regs v =>
    simp only [effectPresented, effectStore] at h
    repeat' split at h
    all_goals cases h
    all_goals exact .inl rfl
  | floatingPoint regs ws fl =>
    simp only [effectPresented, effectFloatingPoint] at h
    repeat' split at h
    all_goals cases h
    · exact .inr (.inl ⟨ws, _, ‹_›, _, rfl⟩)
    · exact .inl rfl
  | arith regs ws ov cy f =>
    simp only [effectPresented, effectArith] at h
    repeat' split at h
    all_goals cases h
    · exact .inr (.inr ⟨ws, _, rfl⟩)
    · exact .inl rfl
  | jump regs taken target tr ws =>
    simp only [effectPresented, effectJump] at h
    split at h
    · cases h
    split at h
    · split at h
      · cases h
      split at h
      · split at h
        · cases h; exact .inl rfl
        · rename_i hne
          obtain ⟨rfl, rfl, rfl⟩ := jumpTo_raises h
          exact absurd h (hne _ _ _)
      · cases h
    · cases h; exact .inl rfl
  | plain regs ws =>
    simp only [effectPresented, effectPlain] at h
    split at h
    · exact absurd h (advancing_not_raises _ _ _ _)
    · cases h; exact .inl rfl

/-- Every way an instruction of an abstract class completes: results written and, by its class, flags, memory or a jump. -/
theorem effectPresented_completes {be : Bool} {p : Presented} {s u : State} (h : effectPresented be p s = .completes u) :
    (∃ pa w v, u = advance (storeBytes pa w v s)) ∨
      ∃ ws t, setGprs ws s = .ok t ∧
        ((∃ w, u = advance { t with fpcsr := w }) ∨ (∃ ov cy f, u = advance { t with sr := arithSr ov cy f t.sr }) ∨
          (s.ds = .none ∧ (u = untakenBranch t ∨ ∃ a r, a.toNat % 4 = 0 ∧
            u = if t.cfg.nd then { t with pc := a } else { t with pc := t.pc + 4, ds := .target a r }))) := by
  cases p with
  | load ea w regs d sg =>
    simp only [effectPresented, effectLoad] at h
    repeat' split at h
    · cases h
    · cases h
    · rename_i bs _
      obtain ⟨t, ht, rfl⟩ := advancing_completes h
      exact .inr ⟨[(d, extendLoaded w sg (wordOfBytes (inOrder s bs)))], t, by simp only [setGprs, ht], .inl ⟨t.fpcsr, rfl⟩⟩
    · cases h
  | store ea w regs v =>
    simp only [effectPresented, effectStore] at h
    repeat' split at h
    all_goals cases h
    exact .inl ⟨_, _, _, rfl⟩
  | floatingPoint regs ws fl =>
    simp only [effectPresented, effectFloatingPoint] at h
    repeat' split at h
    all_goals cases h
    · exact .inr ⟨ws, _, ‹_›, .inl ⟨_, rfl⟩⟩
    · rename_i t ht _
      exact .inr ⟨ws, t, ht, .inl ⟨t.fpcsr, rfl⟩⟩
  | arith regs ws ov cy f =>
    simp only [effectPresented, effectArith] at h
    repeat' split at h
    all_goals cases h
    exact .inr ⟨ws, _, ‹_›, .inr (.inl ⟨_, _, _, rfl⟩)⟩
  | jump regs taken target tr ws =>
    simp only [effectPresented, effectJump] at h
    split at h
    · cases h
    rename_i hd
    have hd : s.ds = .none := (inDelaySlot_iff s).1 (by simpa using hd)
    split at h
    · split at h
      · cases h
      rename_i t ht
      split at h
      · split at h
        · cases h
        · obtain ⟨a, h1, h2⟩ := jumpTo_completes h
          exact .inr ⟨ws, t, ht, .inr (.inr ⟨hd, .inr ⟨a, tr, checkTarget_goes h1, h2⟩⟩)⟩
      · cases h
        exact .inr ⟨ws, t, ht, .inr (.inr ⟨hd, .inl rfl⟩)⟩
    · cases h
  | plain regs ws =>
    simp only [effectPresented, effectPlain] at h
    split at h
    · obtain ⟨t, ht, rfl⟩ := advancing_completes h
      exact .inr ⟨ws, t, ht, .inl ⟨t.fpcsr, rfl⟩⟩
    · cases h

/-! ### The step -/

/-- Every way a step answers a next state: reset, an exception taken in place of an instruction, one of the six instructions,
fetched and decoded, an instruction of an abstract class. -/
theorem step_cases {s t : State} (h : step s = .next t) :
    t = enterReset (beginStep s) ∨ (∃ e ea, enterException e ea (beginStep s) = .next t) ∨
      (∃ bs i, (nextInputs s).reset = false ∧ (s.sr.lee = false ∨ s.cfg.littleEndian = .execute) ∧ s.pc.toNat % 4 = 0 ∧
        fetch (nextInputs s).fetchBusError (beginStep s) = .bytes bs ∧ decodeBytes bs = .ok i ∧
        exec i (beginStep s) = .next t) ∨ ∃ be p, commit (effectPresented be p (beginStep s)) = .next t := by
  unfold step stepWith at h
  split at h
  · cases h; exact .inl rfl
  rename_i hr
  split at h
  · cases h
  rename_i hl
  split at h
  · rename_i ha
    split at h
    · exact .inr (.inl ⟨_, _, h⟩)
    · cases h
    · cases h
    · rename_i bs hb
      unfold stepBytes at h
      split at h
      · unfold settleStep at h
        split at h
        · exact .inr (.inl ⟨_, _, h⟩)
        · refine .inr (.inr (.inl ⟨bs, _, by simpa using hr, ?_, (aligned4_iff _).1 ha, hb, ‹_›, h⟩))
          change ¬ (s.sr.lee = true ∧ s.cfg.littleEndian = .refuse) at hl
          cases hx : s.sr.lee
          · exact .inl rfl
          · cases hy : s.cfg.littleEndian
            · exact absurd ⟨hx, hy⟩ hl
            · exact .inr rfl
      · unfold stepOther at h
        split at h
        · cases h
        · exact .inr (.inl ⟨_, _, h⟩)
        · split at h
          · cases h
          · unfold settleStep at h
            simp only at h
            split at h
            · exact .inr (.inl ⟨_, _, h⟩)
            · exact .inr (.inr (.inr ⟨_, _, h⟩))
  · cases h

end Sys2Proof.Machine
end

