-- ==== Sys2Proof/Tests/Slice0.lean ====
section
/-! SUPPORT. Tests, their expected results taken from spec/95_test_vectors.md, and for each statement that has hypotheses
the concrete states that meet them. -/

namespace Sys2Proof.Tests

open Sys2Proof Sys2Proof.Machine

/-! ## Helpers -/

/-- A state at `pc` with an SR word, under a configuration. -/
def start (cfg : Config) (pc sr : Word) : State := { State.reset with cfg := cfg, pc := pc, sr := unpackSr sr }

/-- Register `r` of context 0 set. -/
def withReg (r : RegNum) (v : Word) (s : State) : State := storeGpr 0 r v s

/-- EPCR, ESR and EEAR of a context set. -/
def withSaved (c : CtxNum) (epcr esr eear : Word) (s : State) : State :=
  updateContext c (fun k => { k with epcr := epcr, esr := esr, eear := eear }) s

/-- In the delay slot of a jump to `t` through `r`. -/
def inSlot (t : Word) (r : RegNum) (s : State) : State := { s with ds := .target t (some r) }

/-- One record of inputs for the next step. -/
def withInputs (i : Inputs) (s : State) : State := { s with inputs := [i] }

/-- A property of the next state. -/
def after (o : Host.Outcome State Fault Refusal) (f : State → Bool) : Bool :=
  match o with
  | .next t => f t
  | .fault _ => false
  | .refused _ => false

/-- There is a next state. -/
def goesOn (o : Host.Outcome State Fault Refusal) : Bool := after o fun _ => true

/-- The refusal of an outcome, if it is one. -/
def refusal (o : Host.Outcome State Fault Refusal) : Option Refusal :=
  match o with
  | .next _ => none
  | .fault _ => none
  | .refused r => some r

/-- The program counter after an outcome, and the registers of context 0 that entry writes. -/
def summary (s : State) : List Word := [s.pc, (context s 0).epcr, (context s 0).esr, (context s 0).eear, packSr s.sr]

theorem goesOn_next {o : Host.Outcome State Fault Refusal} (h : goesOn o = true) : ∃ t, o = .next t := by
  cases o with
  | next t => exact ⟨t, rfl⟩
  | fault f => cases h
  | refused r => cases h

/-- Common start of section 2.1, and of section 2.2 in a delay slot. -/
def userState : State := withSaved 0 0x11111111 0x8001 0x22222222 (start specConfig 0x2000 0x8066)

def slotState : State := inSlot 0x4000 9 { userState with pc := 0x3004 }

/-- A supervisor state under the spec's policies. -/
def supState : State := withSaved 0 0x2004 0x8066 0x401000 (start specConfig 0x2000 0x8001)

def eightContexts : Config := { resetConfig with nctx := 8 }

/-! ## Well-formedness -/

/-- R21, vector V56: l.jr r17 where there are 16 registers. -/
theorem test_wellFormed_refuses_unimplemented_register :
    Instr.wellFormed { specConfig with ngpr := 16 } (.lJr 17) = false ∧
      Instr.wellFormed { specConfig with ngpr := 16 } (.lJr 15) = true ∧
      Instr.wellFormed { specConfig with ngpr := 16 } (.lMfspr 16 0 17) = false ∧
      Instr.wellFormed { specConfig with ngpr := 16 } (.lMtspr 0 16 17) = false := by decide

theorem test_wellFormed_refuses_ngpr :
    Config.wellFormed { specConfig with ngpr := 0 } = false ∧ Config.wellFormed { specConfig with ngpr := 33 } = false := by
  decide

theorem test_wellFormed_refuses_nctx :
    Config.wellFormed { specConfig with nctx := 0 } = false ∧ Config.wellFormed { specConfig with nctx := 17 } = false := by
  decide

theorem test_wellFormed_refuses_vectorBase :
    Config.wellFormed { specConfig with vectorBase := .fixed 0x80 } = false := by decide

theorem test_wellFormed_refuses_cxrSpr :
    Config.wellFormed { specConfig with cxrSpr := some 17 } = false ∧
      Config.wellFormed { specConfig with cxrSpr := some 79 } = false ∧
      Config.wellFormed { specConfig with cxrSpr := some 80 } = true := by decide

theorem test_wellFormed_configs : specConfig.wellFormed = true ∧ resetConfig.wellFormed = true := by decide

/-! ## Decoding: the words of section 2.7, E1 to E24 -/

/-- E1, E2, E3. -/
theorem test_decode_lSys :
    decode 0x20000000 = .ok (.lSys 0) ∧ decode 0x20000001 = .ok (.lSys 1) ∧ decode 0x2000FFFF = .ok (.lSys 0xFFFF) := by
  decide

/-- E4, E5. -/
theorem test_decode_lTrap : decode 0x21000000 = .ok (.lTrap 0) ∧ decode 0x21000001 = .ok (.lTrap 1) := by decide

/-- E6. -/
theorem test_decode_lRfe : decode 0x24000000 = .ok .lRfe := by decide

/-- E7, E8, E9. -/
theorem test_decode_lJr :
    decode 0x44004800 = .ok (.lJr 9) ∧ decode 0x4400F800 = .ok (.lJr 31) ∧ decode 0x44000000 = .ok (.lJr 0) := by decide

/-- E10 to E13. -/
theorem test_decode_lMfspr :
    decode 0xB4600020 = .ok (.lMfspr 3 0 0x20) ∧ decode 0xB4600011 = .ok (.lMfspr 3 0 0x11) ∧
      decode 0xB4A00020 = .ok (.lMfspr 5 0 0x20) ∧ decode 0xB7FFFFFF = .ok (.lMfspr 31 31 0xFFFF) := by decide

/-- E14 to E18. -/
theorem test_decode_lMtspr :
    decode 0xC0002020 = .ok (.lMtspr 0 4 0x20) ∧ decode 0xC0002011 = .ok (.lMtspr 0 4 0x11) ∧
      decode 0xC0202011 = .ok (.lMtspr 0 4 0x0811) ∧ decode 0xC2002000 = .ok (.lMtspr 0 4 0x8000) ∧
      decode 0xC3FFFFFF = .ok (.lMtspr 31 31 0xFFFF) := by decide

/-- E19 to E24. -/
theorem test_decode_rejects :
    decode 0x24000001 = .error .rfeReservedBits ∧ decode 0x44004801 = .error .jrReservedBits ∧
      decode 0x44010000 = .error .jrReservedBits ∧ decode 0x20010000 = .error .otherSubOpcode ∧
      decode 0x22000000 = .error .otherSubOpcode ∧ decode 0x22800000 = .error .otherSubOpcode ∧
      decode 0x23000000 = .error .otherSubOpcode ∧ decode 0x00000000 = .error .otherOpcode ∧
      decode 0xFFFFFFFF = .error .otherOpcode := by decide

/-- The bytes of E7 and E16, and the words of the assembler column. -/
theorem test_encode :
    encodeBytes (.lJr 9) = [0x44, 0x00, 0x48, 0x00] ∧ encodeBytes (.lMtspr 0 4 0x0811) = [0xC0, 0x20, 0x20, 0x11] ∧
      encodeBytes (.lMfspr 5 0 0x20) = [0xB4, 0xA0, 0x00, 0x20] := by decide

theorem test_decodeTableWord :
    decodeTableWord 32 0x44004800 = some (.lJr 9) ∧ decodeTableWord 32 0xFFFFFFFF = none := by decide

/-! ## One step of each instruction -/

/-- V42. -/
theorem test_lSys :
    after (exec (.lSys 0xFFFF) supState) (fun t => summary t == [0xC00, 0x2004, 0x8001, 0x401000, 0x8001]) = true := by
  decide

/-- V27: l.sys in a delay slot saves the jump's address. -/
theorem test_lSys_in_slot :
    after (exec (.lSys 2) slotState) (fun t => summary t == [0xC00, 0x3000, 0x8066, 0x22222222, 0xA001]) = true := by
  decide

/-- V15. -/
theorem test_lTrap :
    after (exec (.lTrap 0) userState) (fun t => summary t == [0xE00, 0x2000, 0x8066, 0x22222222, 0x8001]) = true := by
  decide

/-- V29. -/
theorem test_lTrap_in_slot :
    after (exec (.lTrap 0) slotState) (fun t => summary t == [0xE00, 0x3000, 0x8066, 0x22222222, 0xA001]) = true := by
  decide

/-- V44. -/
theorem test_lRfe :
    after (exec .lRfe supState) (fun t => summary t == [0x2004, 0x2004, 0x8066, 0x401000, 0x8066]) = true := by decide

/-- V76: a return from context 2 with fast context switching on. -/
theorem test_lRfe_fast :
    after (exec .lRfe (withSaved 1 0xC00 0x10008101 0 (start eightContexts 0xE00 0x20008101)))
      (fun t => [t.pc, packSr t.sr] == [0xC00, 0x10008101]) = true := by decide

/-- V50. -/
theorem test_lJr :
    after (exec (.lJr 9) (withReg 9 0x4000 { supState with pc := 0x3000 }))
      (fun t => t.pc == 0x3004 && t.ds == .target 0x4000 (some 9)) = true := by decide

/-- V56: r17 where there are 16 registers raises Range. -/
theorem test_lJr_range :
    after (exec (.lJr 17) (start { specConfig with ngpr := 16 } 0x3000 0x8001))
      (fun t => t.pc == 0xB00 && (context t 0).epcr == 0x3000) = true := by decide

/-- V63: only the low half of rA counts in the SPR number. -/
theorem test_lMfspr :
    after (exec (.lMfspr 3 5 1) (withReg 5 0xABCD0010 supState))
      (fun t => (context t 0).gpr[3] == 0x8001 && t.pc == 0x2004) = true := by decide

/-- V51: l.mfspr in the delay slot goes to the jump's target. -/
theorem test_lMfspr_in_slot :
    after (exec (.lMfspr 3 0 17) (inSlot 0x4000 9 { supState with pc := 0x3004 }))
      (fun t => (context t 0).gpr[3] == 0x8001 && t.pc == 0x4000 && t.ds == .none) = true := by decide

/-- V64. -/
theorem test_lMtspr :
    after (exec (.lMtspr 0 4 32) (withReg 4 0x2008 supState))
      (fun t => (context t 0).epcr == 0x2008 && (context t 0).esr == 0x8066 && t.pc == 0x2004) = true := by decide

/-- V66. -/
theorem test_lMtspr_sr :
    after (exec (.lMtspr 0 4 17) (withReg 4 0x8007 supState)) (fun t => packSr t.sr == 0x8007) = true := by decide

/-- V46, V47, V53, V55, V69, V70: the spec's recommended refusals. -/
theorem test_refusals :
    refusal (exec .lRfe (withSaved 0 0x2006 0x8066 0 supState)) = some .misalignedReturn ∧
      refusal (exec .lRfe (inSlot 0x4000 9 supState)) = some .rfeInDelaySlot ∧
      refusal (exec (.lJr 9) (withReg 9 0x4002 supState)) = some .misalignedTarget ∧
      refusal (exec (.lMfspr 9 0 32) (inSlot 0x4000 9 supState)) = some .slotWritesJumpRegister ∧
      refusal (exec (.lMfspr 0 0 17) supState) = some .nonZeroWriteToR0 ∧
      refusal (exec (.lMfspr 3 0 33) supState) = some .sprOutOfScope := by decide

/-! ## Steps -/

/-- V6, V9: an interrupt is taken in place of the instruction. -/
theorem test_step_interrupts :
    after (step (withInputs { Inputs.quiet with tickIrq := true }
        { userState.withFetchWord 32 0x44004800 with sr := { userState.sr with ime := false } }))
      (fun t => t.pc == 0x500 && (context t 0).epcr == 0x2000) = true ∧
    after (step (withInputs { Inputs.quiet with extIrq := true }
        { userState.withFetchWord 32 0x44004800 with sr := { userState.sr with ime := false } }))
      (fun t => t.pc == 0x800 && (context t 0).epcr == 0x2000) = true := by decide

/-- V33: a system call is not displaced by an enabled interrupt. -/
theorem test_step_system_call_before_interrupt :
    after (step (withInputs { Inputs.quiet with extIrq := true }
        ((start specConfig 0x2000 0x8007).withFetchWord 32 0x20000001)))
      (fun t => t.pc == 0xC00 && (context t 0).epcr == 0x2004) = true := by decide

/-- V11, V19: a fetch that misses the TLB, and one that finds no permission, in a delay slot. -/
theorem test_step_fetch_faults :
    after (step userState) (fun t => summary t == [0xA00, 0x2000, 0x8066, 0x2000, 0x8001]) = true ∧
      after (step (withInputs { Inputs.quiet with mmu := some [⟨.fetch, 0x3004, false, .pageFault⟩] } slotState))
        (fun t => summary t == [0x400, 0x3000, 0x8066, 0x3004, 0xA001]) = true := by decide

/-- Each row's word, its operands 0, runs as the first instruction after reset: System Call, Trap, the return to EPCR = 0 with
the SR of ESR = 0 (log 11), and the next word for the three others. -/
theorem test_first_instruction :
    let pcAfter (w : Nat) := match step (State.reset.withFetchWord 32 w) with
      | .next t => some t.pc
      | .fault _ => none
      | .refused _ => none
    [0x20000000, 0x21000000, 0x24000000, 0x44000000, 0xB4000000, 0xC0000000].map pcAfter =
      [some 0xC00, some 0xE00, some 0, some 0x104, some 0x104, some 0x104] := by decide

/-- V1, but for EPCR and EEAR, which R282 treats as unwritten. -/
theorem test_step_reset :
    after (step (withInputs { Inputs.quiet with reset := true } slotState))
      (fun t => t.pc == 0x100 && packSr t.sr == 0x8001 && t.ds == .none) = true := by decide

/-- V74, V75: entry with fast context switching on. -/
theorem test_fast_entry :
    after (exec (.lSys 1) (start eightContexts 0x2000 0x8100))
        (fun t => [t.pc, (context t 0).epcr, (context t 0).esr, packSr t.sr, cxrWord t] ==
          [0xC00, 0x2004, 0x8100, 0x10008101, 0x00010000]) = true ∧
      after (exec (.lTrap 0) (start eightContexts 0xC00 0x10008101))
        (fun t => [t.pc, (context t 1).epcr, (context t 1).esr, packSr t.sr, cxrWord t] ==
          [0xE00, 0xC00, 0x10008101, 0x20008101, 0x00020001]) = true := by decide

/-- V7, V4, V10, V35: loads that fail. -/
theorem test_load_faults :
    after (commit (effectPresented false (.load 0x1002 .word [] 3 false) userState))
        (fun t => summary t == [0x600, 0x2000, 0x8066, 0x1002, 0x8001]) = true ∧
      after (commit (effectPresented false (.load 0x401000 .word [] 3 false)
          { userState with mmu := [⟨.load, 0x401000, false, .pageFault⟩] }))
        (fun t => summary t == [0x300, 0x2000, 0x8066, 0x401000, 0x8001]) = true ∧
      after (commit (effectPresented false (.load 0x401000 .word [] 3 false) userState)) (fun t => t.pc == 0x900) = true ∧
      after (commit (effectPresented false (.load 0x401002 .word [] 3 false) userState)) (fun t => t.pc == 0x600) = true := by
  decide

/-- R170, R72: a byte load is sign-extended, a half store is big-endian. -/
theorem test_load_store :
    after (commit (effectPresented false (.load 0x1001 .byte [] 3 true) { supState with mem := [(0x1001, 0x80)] }))
        (fun t => (context t 0).gpr[3] == 0xFFFFFF80) = true ∧
      after (commit (effectPresented false (.store 0x1002 .half [] 0x12345678) supState))
        (fun t => t.mem == [(0x1002, 0x56), (0x1003, 0x78)]) = true := by decide

/-- V14: the result and the flag are written before Floating Point is entered. -/
theorem test_floating_point :
    after (commit (effectPresented false (.floatingPoint [] [(3, 7)] 1) { userState with fpcsr := 1 }))
      (fun t => summary t == [0xD00, 0x2004, 0x8066, 0x22222222, 0x8001] && (context t 0).gpr[3] == 7 && t.fpcsr == 9) =
      true := by decide

/-! ## Witnesses: states and operands that meet the hypotheses of each statement -/

/-- The parts of the invariant, for concrete states. -/
theorem invariant_of {s : State} (h : s.cfg.wellFormed = true ∧ s.pc.toNat % 4 = 0 ∧ (s.cfg.nctx = 1 → s.sr.cid = 0))
    (d : s.ds = .none) (m : s.mem = []) : Invariant s := by
  refine ⟨h.1, h.2.1, ?_, h.2.2, ?_⟩
  · rw [d]; trivial
  · rw [m]; exact ⟨List.Pairwise.nil, by simp⟩

theorem fetchGives_of {s : State} {bs : List Byte} (h : (nextInputs s).reset = false ∧ s.sr.lee = false ∧
    s.pc.toNat % 4 = 0 ∧ fetch (nextInputs s).fetchBusError (beginStep s) = .bytes bs) : FetchGives s bs :=
  ⟨h.1, .inl h.2.1, h.2.2.1, h.2.2.2⟩

/-- A state about to execute the word `w`, interrupts enabled as `sr` says. -/
def about (cfg : Config) (sr : Word) (w : Nat) : State := (start cfg 0x2000 sr).withFetchWord 32 w

theorem nextIs_of {s : State} {i : Instr} (bs : List Byte) (h : (nextInputs s).reset = false ∧ s.sr.lee = false ∧
    s.pc.toNat % 4 = 0 ∧ fetch (nextInputs s).fetchBusError (beginStep s) = .bytes bs) (d : decodeBytes bs = .ok i) :
    NextIs s i := ⟨bs, fetchGives_of h, d⟩

/-- About to execute the word 0xFFFFFFFF, of the class of `p`, with `p` presented. -/
def aboutClass (cfg : Config) (sr : Word) (p : Presented) (inp : Inputs) : State :=
  withInputs { inp with presented := some p }
    (about { cfg with classify := [(0xFFFFFFFF, .other p.insnClass)] } sr 0xFFFFFFFF)

theorem nextHas_of {s : State} {i : Instr} (h : NextIs s i) : NextHas s (effect i (beginStep s)) (exec i (beginStep s)) :=
  .inl ⟨i, h, rfl, rfl⟩

theorem nextHas_class {s : State} (p : Presented) (h : (nextInputs s).reset = false ∧ s.sr.lee = false ∧
    s.pc.toNat % 4 = 0 ∧ fetch (nextInputs s).fetchBusError (beginStep s) = .bytes [0xFF, 0xFF, 0xFF, 0xFF] ∧
    classOf 0xFFFFFFFF s.cfg.classify = some (.other p.insnClass) ∧ (nextInputs s).presented = some p) :
    NextHas s (effectPresented (nextInputs s).dataBusError p (beginStep s))
      (commit (effectPresented (nextInputs s).dataBusError p (beginStep s))) := by
  refine .inr ⟨0xFF, 0xFF, 0xFF, 0xFF, p, fetchGives_of ⟨h.1, h.2.1, h.2.2.1, h.2.2.2.1⟩, ?_, h.2.2.2.2.1, h.2.2.2.2.2, rfl, rfl⟩
  rw [show decode (wordOfFour 0xFF 0xFF 0xFF 0xFF) = .error .otherOpcode by decide]
  exact nofun

/-- The bytes of l.jr r9 (E7) and of l.sys 1 (E2). -/
def jrBytes : List Byte := [0x44, 0x00, 0x48, 0x00]

def sysBytes : List Byte := [0x20, 0x00, 0x00, 0x01]

def slotted (s : State) : State := inSlot 0x4000 9 s

theorem ordinary_of {s : State} {d : RegNum} (h : s.ds = .none ∨ pendingReg s ≠ some d)
    (r0 : d ≠ 0 ∨ s.cfg.r0 = .ordinary) : OrdinaryWrite s d :=
  ⟨fun _ => h.elim (fun h => by simp [pendingReg, h]) id, fun e => r0.elim (fun h => absurd e h) id⟩

theorem allowed_of {s : State} {w : RegWrite} (h : s.ds = .none ∨ pendingReg s ≠ some w.1)
    (r0 : w.1 ≠ 0 ∨ s.cfg.r0 ≠ .refuse ∨ w.2 = 0) : WriteAllowed s w :=
  ⟨fun _ => h.elim (fun h => by simp [pendingReg, h]) id,
    fun e p => r0.elim (absurd e) fun h => h.elim (absurd p) id⟩

/-- Outside a delay slot the result writes `ws` are allowed where register 0 is no obstacle, as an empty list of them is. -/
theorem allAllowed_of {s : State} {ws : List RegWrite} (h : s.ds = .none)
    (r0 : s.cfg.r0 ≠ .refuse ∨ ∀ w ∈ ws, w.1 ≠ 0 ∨ w.2 = 0) : ∀ w ∈ ws, WriteAllowed s w :=
  fun w m => allowed_of (.inl h) (r0.elim (fun h => .inr (.inl h)) fun h => (h w m).imp_right .inr)

theorem witness_EncodeOfDecode : decode 0xC3FFFFFF = .ok (.lMtspr 31 31 0xFFFF) := by decide

/-- A word with a reserved bit of l.jr set, in each of the four situations. -/
theorem witness_OtherWordsGoToClassify :
    let w := wordOfFour 0x44 0 0x48 1
    let p : Presented := .plain [] [(3, 7)]
    let cfg (c : WordClass) : Config := { specConfig with classify := [(w, c)] }
    let inp : Inputs := { Inputs.quiet with presented := some p }
    (w &&& 0xFFFF0000#32 ≠ 0x20000000#32 ∧ w &&& 0xFFFF0000#32 ≠ 0x21000000#32 ∧ w ≠ 0x24000000#32 ∧
      w &&& 0xFFFF07FF#32 ≠ 0x44000000#32 ∧ w &&& 0xFC000000#32 ≠ 0xB4000000#32 ∧
      w &&& 0xFC000000#32 ≠ 0xC0000000#32) ∧
    classOf w specConfig.classify = none ∧ classOf w (cfg .illegal).classify = some .illegal ∧
    classOf w (cfg (.other .plain)).classify = some (.other .plain) ∧ inp.presented = some p ∧ p.insnClass = .plain ∧
    replacement inp (effectPresented inp.dataBusError p (start (cfg (.other .plain)) 0x2000 0x8001))
      (start (cfg (.other .plain)) 0x2000 0x8001) = none ∧
    classOf w (cfg (.other .jump)).classify = some (.other .jump) ∧ p.insnClass ≠ .jump := by decide

/-- Outside and inside a delay slot; fast context switching on, in the last context from which entry has room. -/
theorem witness_SysEntersSystemCall :
    cidOverflows supState = false ∧ cidOverflows slotState = false ∧
      cidOverflows (start eightContexts 0x2000 0x60008101) = false := by decide

theorem witness_TrapEntersTrap :
    (cidOverflows supState = false ∧ supState.cfg.trapPolicy = .always) ∧
    (packSr supState.sr).getLsbD ((31 : Half).toNat % 32) = false ∧
    (packSr supState.sr).getLsbD ((32 : Half).toNat % 32) = true ∧
    (start { specConfig with trapPolicy := .refuseIfClear } 0x2000 0x8001).cfg.trapPolicy = .refuseIfClear ∧
    (start { specConfig with trapPolicy := .conditional } 0x2000 0x8001).cfg.trapPolicy = .conditional := by decide

/-- The five clauses: a delay slot; context 0; a return address that is no multiple of 4; an altered CID; a return, with one
context, with eight, and with a saved CID that names none of eight where SR[CE] = 0. -/
theorem witness_RfeRestoresPcAndSr :
    let zero := start eightContexts 0xE00 0x00008101
    let odd := withSaved 0 0x2006 0x8066 0 supState
    let other := withSaved 1 0xC00 0x20008101 0 (start eightContexts 0xE00 0x20008101)
    let otherOdd := withSaved 1 0xC02 0x20008101 0 (start eightContexts 0xE00 0x20008101)
    let good := withSaved 1 0xC00 0x10008101 0 (start eightContexts 0xE00 0x20008101)
    let far := withSaved 0 0x2004 0x80008066 0 (start eightContexts 0xC00 0x8001)
    ((slotted supState).sr.sm = true ∧ (slotted supState).ds ≠ .none) ∧
    (zero.sr.sm = true ∧ zero.ds = .none ∧ (decide (1 < zero.cfg.nctx) && zero.sr.ce) = true ∧ zero.sr.cid = 0) ∧
    (odd.sr.sm = true ∧ odd.ds = .none ∧ (decide (1 < odd.cfg.nctx) && odd.sr.ce) = false ∧
      (context odd (cur odd)).epcr.toNat % 4 ≠ 0 ∧ odd.cfg.misaligned = .refuse) ∧
    (other.sr.sm = true ∧ other.ds = .none ∧ (decide (1 < other.cfg.nctx) && other.sr.ce) = true ∧ other.sr.cid ≠ 0 ∧
      (context other 1).epcr.toNat % 4 = 0 ∧ (other.sr.cid - 1).toFin = (1 : CtxNum) ∧
      (unpackSr (context other 1).esr).cid.toFin ≠ (1 : CtxNum)) ∧
    (otherOdd.sr.sm = true ∧ otherOdd.ds = .none ∧ (decide (1 < otherOdd.cfg.nctx) && otherOdd.sr.ce) = true ∧
      otherOdd.sr.cid ≠ 0 ∧ otherOdd.cfg.misaligned = .ignoreLow ∧
      (unpackSr (context otherOdd 1).esr).cid.toFin ≠ (1 : CtxNum)) ∧
    (good.sr.sm = true ∧ good.ds = .none ∧ (decide (1 < good.cfg.nctx) && good.sr.ce) = true ∧ good.sr.cid ≠ 0 ∧
      (context good 1).epcr.toNat % 4 = 0 ∧ (good.sr.cid - 1).toFin = (1 : CtxNum) ∧
      (unpackSr (context good 1).esr).cid.toFin = (1 : CtxNum)) ∧
    (far.sr.sm = true ∧ far.ds = .none ∧ (decide (1 < far.cfg.nctx) && far.sr.ce) = false ∧
      (context far (cur far)).epcr.toNat % 4 = 0 ∧
      far.cfg.nctx ≤ (unpackSr (context far (cur far)).esr).cid.toNat) ∧
    (supState.sr.sm = true ∧ supState.ds = .none ∧ (decide (1 < supState.cfg.nctx) && supState.sr.ce) = false ∧
      (context supState (cur supState)).epcr.toNat % 4 = 0 ∧ ¬ 1 < supState.cfg.nctx) := by decide

/-- A misaligned return address, with one context, with CE = 1 there too, and with fast context switching on. -/
theorem witness_RfeOpenPoints :
    let low := withSaved 0 0x2006 0x8066 0 (start resetConfig 0xC00 0x8101)
    let fast := withSaved 1 0xC02 0x10008101 0 (start eightContexts 0xE00 0x20008101)
    let align := withSaved 0 0x2006 0x8066 0 (start { resetConfig with misaligned := .alignment } 0xC00 0x8101)
    let alignFast := withSaved 6 0xC02 0x60008101 0 (start { eightContexts with misaligned := .alignment, nctx := 16 } 0xE00 0x70008101)
    (low.sr.sm = true ∧ low.ds = .none ∧ (decide (1 < low.cfg.nctx) && low.sr.ce) = false ∧ low.sr.ce = true ∧
      (context low (cur low)).epcr.toNat % 4 ≠ 0 ∧ low.cfg.misaligned = .ignoreLow) ∧
    (fast.sr.sm = true ∧ fast.ds = .none ∧ (decide (1 < fast.cfg.nctx) && fast.sr.ce) = true ∧ fast.sr.cid ≠ 0 ∧
      (fast.sr.cid - 1).toFin = (1 : CtxNum) ∧ (unpackSr (context fast 1).esr).cid.toFin = (1 : CtxNum) ∧
      (context fast 1).epcr.toNat % 4 ≠ 0 ∧ fast.cfg.misaligned = .ignoreLow) ∧
    (align.sr.sm = true ∧ align.ds = .none ∧ (decide (1 < align.cfg.nctx) && align.sr.ce) = false ∧
      (context align (cur align)).epcr.toNat % 4 ≠ 0 ∧ align.cfg.misaligned = .alignment ∧ cidOverflows align = false) ∧
    (alignFast.sr.sm = true ∧ alignFast.ds = .none ∧ (decide (1 < alignFast.cfg.nctx) && alignFast.sr.ce) = true ∧
      alignFast.sr.cid ≠ 0 ∧ (alignFast.sr.cid - 1).toFin = (6 : CtxNum) ∧
      (context alignFast 6).epcr.toNat % 4 ≠ 0 ∧ alignFast.cfg.misaligned = .alignment ∧
      cidOverflows alignFast = false) := by decide

/-- R122: SR <- s, every field, a CID that names none of the eight contexts included. -/
theorem test_lRfe_restores_cid :
    after (exec .lRfe (withSaved 0 0x2004 0x80008066 0 (start eightContexts 0xC00 0x8001)))
      (fun t => t.pc == 0x2004 && packSr t.sr == 0x80008066) = true := by decide

theorem witness_RfeInUserMode :
    (userState.sr.sm = false ∧ userState.cfg.userPriv = .refuse) ∧
      (start resetConfig 0x2000 0x8000).sr.sm = false ∧ resetConfig.userPriv ≠ .refuse ∧
      cidOverflows (start resetConfig 0x2000 0x8000) = false := by decide

/-- An entry in user mode, and one from the last context from which entry has room. -/
theorem witness_ReturnUndoesEntry :
    (∃ t, Invariant userState ∧ cidOverflows userState = false ∧ enterException .tickTimer 0 userState = .next t) ∧
      ∃ t, Invariant (start eightContexts 0x2000 0x60008100) ∧ cidOverflows (start eightContexts 0x2000 0x60008100) = false ∧
        enterException .systemCall 0 (start eightContexts 0x2000 0x60008100) = .next t :=
  ⟨⟨_, invariant_of (by decide) rfl rfl, by decide, rfl⟩, ⟨_, invariant_of (by decide) rfl rfl, by decide, rfl⟩⟩

theorem witness_JrFollowsItsRule :
    let few := start { specConfig with ngpr := 16 } 0x3000 0x8001
    let odd := withReg 9 0x4001 supState
    let good := withReg 31 0x4000 supState
    let nd := withReg 31 0x4000 (start { specConfig with nd := true } 0x3000 0x8001)
    (slotted supState).ds ≠ .none ∧
    (few.ds = .none ∧ few.cfg.ngpr ≤ (16 : RegNum).val ∧ cidOverflows few = false) ∧
    (odd.ds = .none ∧ (9 : RegNum).val < odd.cfg.ngpr ∧ (gpr odd 9).toNat % 4 ≠ 0 ∧ odd.cfg.misaligned = .refuse) ∧
    (good.ds = .none ∧ (31 : RegNum).val < good.cfg.ngpr ∧ (gpr good 31).toNat % 4 = 0 ∧ good.cfg.nd = false) ∧
    (nd.ds = .none ∧ (31 : RegNum).val < nd.cfg.ngpr ∧ (gpr nd 31).toNat % 4 = 0 ∧ nd.cfg.nd = true) := by decide

theorem witness_MisalignedJumpPolicies :
    let low := withReg 9 0x4003 (start resetConfig 0x3000 0x8001)
    let align := withReg 9 0x4001 (start { resetConfig with misaligned := .alignment } 0x3000 0x8001)
    (low.ds = .none ∧ (9 : RegNum).val < low.cfg.ngpr ∧ (gpr low 9).toNat % 4 ≠ 0 ∧ low.cfg.misaligned = .ignoreLow) ∧
    (align.ds = .none ∧ (9 : RegNum).val < align.cfg.ngpr ∧ (gpr align 9).toNat % 4 ≠ 0 ∧
      align.cfg.misaligned = .alignment ∧ cidOverflows align = false) := by decide

theorem witness_SlotCompletionTakesJump :
    (∃ u, effect (.lMfspr 3 0 17) (slotted supState) = .completes u) ∧
      ∃ u, effect (.lMtspr 0 4 32) (slotted supState) = .completes u := ⟨⟨_, rfl⟩, ⟨_, rfl⟩⟩

/-- The last context and the last register, with a number for CXR right after the ESR copies. -/
theorem witness_SprNumbersNameRegisters :
    let cfg := { resetConfig with nctx := 16, cxrSpr := some 80 }
    cfg.wellFormed = true ∧ cfg.shadowGprMap = true ∧ (15 : CtxNum).val < cfg.nctx ∧ (31 : RegNum).val < cfg.ngpr ∧
      cfg.cxrSpr = some 80 ∧
      ∀ n ∈ [(0 : Half), 31, 81, 1023, 1536, 0xFFFF],
        n ≠ 2 ∧ n ≠ 17 ∧ n ≠ 20 ∧ (n.toNat < 32 ∨ (80 ≤ n.toNat ∧ n.toNat < 1024) ∨ 1536 ≤ n.toNat) ∧
          cfg.cxrSpr ≠ some n := by
  refine ⟨by decide, rfl, by decide, by decide, rfl, fun n hn => ?_⟩
  simp only [List.mem_cons, List.not_mem_nil, or_false] at hn
  rcases hn with rfl | rfl | rfl | rfl | rfl | rfl <;> simp

/-- The last register under the spec's policies, outside a delay slot and inside the slot of a jump through another register;
register 0 where it is an ordinary one. -/
theorem witness_MfsprReadsRegister :
    let zero := start resetConfig 0x2000 0x8001
    (∀ s ∈ [supState, slotted supState], s.sr.sm = true ∧ (31 : RegNum).val < s.cfg.ngpr ∧
      (0 : RegNum).val < s.cfg.ngpr ∧ sprOf s.cfg (numberOf s 0 32) = some (.epcr 0)) ∧
    OrdinaryWrite supState 31 ∧ OrdinaryWrite (slotted supState) 31 ∧
    (zero.sr.sm = true ∧ (0 : RegNum).val < zero.cfg.ngpr ∧ OrdinaryWrite zero 0 ∧
      sprOf zero.cfg (numberOf zero 0 2) = some .cpucfgr) :=
  ⟨by decide, ordinary_of (.inr (by decide)) (.inl (by decide)), ordinary_of (.inr (by decide)) (.inl (by decide)),
    by decide, by decide, ordinary_of (.inl rfl) (.inr rfl), by decide⟩

/-- FPCSR is 0 and SR is not, at reset; each policy; an instruction of a class whose second write is of register 0, in either mode. -/
theorem witness_MfsprIntoR0 :
    let hard := start { resetConfig with r0 := .hardwired } 0x2000 0x8001
    (hard.sr.sm = true ∧ 0 < hard.cfg.ngpr ∧ (0 : RegNum).val < hard.cfg.ngpr ∧ pendingReg hard ≠ some 0 ∧
      sprOf hard.cfg (numberOf hard 0 17) = some .sr ∧ hard.cfg.r0 = .hardwired) ∧
    (supState.sr.sm = true ∧ 0 < supState.cfg.ngpr ∧ (0 : RegNum).val < supState.cfg.ngpr ∧
      pendingReg supState ≠ some 0 ∧ supState.cfg.r0 = .refuse ∧
      sprOf supState.cfg (numberOf supState 0 20) = some .fpcsr ∧ supState.fpcsr = 0 ∧
      sprOf supState.cfg (numberOf supState 0 17) = some .sr ∧ packSr supState.sr ≠ 0) ∧
    (supState.ds = .none ∧ (∀ q ∈ (Presented.plain [31] ([(9, 1)] ++ (0, 7) :: [(0, 0)])).regFields, q.val < supState.cfg.ngpr) ∧
      (7 : Word) ≠ 0) ∧ (userState.sr.sm = false ∧ userState.ds = .none ∧ userState.cfg.r0 = .refuse) ∧
    ∀ w ∈ [((9 : RegNum), (1 : Word))], WriteAllowed supState w ∧ WriteAllowed userState w :=
  ⟨by decide, by decide, by decide, by decide,
    fun w m => ⟨allAllowed_of rfl (.inr (by simp)) w m, allAllowed_of rfl (.inr (by simp)) w m⟩⟩

/-- From the reset configuration as well; a write before that of the pending register; a load of a byte that has been
written. -/
theorem witness_SlotWriteOfJumpRegister :
    let s := slotted { start resetConfig 0x2000 0x8001 with mem := [(0x1001, 7)] }
    ((slotted supState).cfg.slotWrite = .refuse ∧ s.cfg.slotWrite = .refuse ∧ s.ds = .target 0x4000 (some 9) ∧
      s.sr.sm = true ∧ (9 : RegNum).val < s.cfg.ngpr ∧ (0 : RegNum).val < s.cfg.ngpr ∧
      (∀ q ∈ [(31 : RegNum)], q.val < s.cfg.ngpr) ∧ (0x1001 : Word).toNat % Width.byte.bytes = 0 ∧
      translateAddress .load 0x1001 s = .ok 0x1001 ∧ readBytes s.mem 0x1001 Width.byte.bytes = some [7]) ∧
      (∀ q ∈ (Presented.plain [31] ([(3, 1)] ++ (9, 7) :: [])).regFields, q.val < s.cfg.ngpr) ∧
      ∀ w ∈ [((3 : RegNum), (1 : Word))], WriteAllowed s w := by
  refine ⟨by decide, by decide, fun w m => allowed_of (.inr ?_) (.inl ?_)⟩ <;> (rw [List.mem_singleton.1 m]; decide)

/-- R144, R172: the refusal comes before the Range of the flag. -/
theorem test_arith_slot_write :
    refusal (commit (effectPresented false (.arith [] [(9, 1)] (some true) none none)
      (slotted (start resetConfig 0x2000 0x9001)))) = some .slotWritesJumpRegister := by decide

/-- One number for each clause, the copies of the last context. -/
theorem witness_MtsprWritesRegister :
    let s := start { resetConfig with nctx := 16 } 0x2000 0x8001
    s.sr.sm = true ∧ (0 : RegNum).val < s.cfg.ngpr ∧ (31 : RegNum).val < s.cfg.ngpr ∧
      sprOf s.cfg (numberOf s 0 47) = some (.epcr 15) ∧ sprOf s.cfg (numberOf s 0 63) = some (.eear 15) ∧
      sprOf s.cfg (numberOf s 0 79) = some (.esr 15) ∧ sprOf s.cfg (numberOf s 0 20) = some .fpcsr ∧
      sprOf s.cfg (numberOf s 0 2) = some .cpucfgr := by decide

/-- V66, and V68's two words. -/
theorem witness_MtsprSrCautious :
    let s (v : Word) := withReg 4 v supState
    ((s 0).sr.sm = true ∧ (0 : RegNum).val < (s 0).cfg.ngpr ∧ (4 : RegNum).val < (s 0).cfg.ngpr ∧
      numberOf (s 0) 0 17 = 17 ∧ (s 0).cfg.srFields = .refuse) ∧
    ((unpackSr (gpr (s 0x8007) 4)).cid = (s 0x8007).sr.cid ∧ (unpackSr (gpr (s 0x8007) 4)).dsx = (s 0x8007).sr.dsx) ∧
    (unpackSr (gpr (s 0x10008001) 4)).cid ≠ (s 0x10008001).sr.cid ∧
    (unpackSr (gpr (s 0xA001) 4)).dsx ≠ (s 0xA001).sr.dsx := by decide

theorem witness_MtsprSrOpenFields :
    let s := withReg 4 0x1000A001 (start eightContexts 0x2000 0x8001)
    s.sr.sm = true ∧ (0 : RegNum).val < s.cfg.ngpr ∧ (4 : RegNum).val < s.cfg.ngpr ∧ numberOf s 0 17 = 17 ∧
      s.cfg.srFields = .execute := by decide

/-- The last context that exists, and the first that does not. -/
theorem witness_MtsprCxrSwitchesContext :
    let s (v : Word) := withReg 4 v (start { eightContexts with cxrSpr := some 80 } 0x2000 0x8001)
    ((s 0).sr.sm = true ∧ (0 : RegNum).val < (s 0).cfg.ngpr ∧ (4 : RegNum).val < (s 0).cfg.ngpr ∧
      sprOf (s 0).cfg (numberOf (s 0) 0 80) = some .cxr ∧ (s 0).cfg.nctx ≤ 16) ∧
    (gpr (s 0x0007FFFF) 4).toNat / 65536 < (s 0).cfg.nctx ∧ (s 0).cfg.nctx ≤ (gpr (s 0x00080000) 4).toNat / 65536 := by
  decide

/-- The last register of the last context; the pending jump's register; register 0 under each policy. -/
theorem witness_MtsprWritesShadowGpr :
    let far := start eightContexts 0x2000 0x8001
    let pend := inSlot 0x4000 9 (start { specConfig with shadowGprMap := true } 0x2000 0x8001)
    let zero (p : R0Policy) (v : Word) := withReg 4 v (start { resetConfig with r0 := p } 0x2000 0x8001)
    (far.sr.sm = true ∧ (0 : RegNum).val < far.cfg.ngpr ∧ (4 : RegNum).val < far.cfg.ngpr ∧
      sprOf far.cfg (numberOf far 0 1279) = some (.gpr 7 31) ∧ pendingReg far ≠ some 31) ∧
    (pend.sr.sm = true ∧ (0 : RegNum).val < pend.cfg.ngpr ∧ (4 : RegNum).val < pend.cfg.ngpr ∧
      sprOf pend.cfg (numberOf pend 0 1033) = some (.gpr 0 9) ∧
      (pend.cfg.slotWrite = .refuse ∧ pendingReg pend = some 9 ∧ (0 : CtxNum) = cur pend)) ∧
    (∀ p ∈ [R0Policy.refuse, .ordinary, .hardwired], (zero p 7).sr.sm = true ∧ (4 : RegNum).val < (zero p 7).cfg.ngpr ∧
      sprOf (zero p 7).cfg (numberOf (zero p 7) 0 1024) = some (.gpr 0 0) ∧ pendingReg (zero p 7) ≠ some 0 ∧
      (zero p 7).cfg.r0 = p ∧ gpr (zero p 7) 4 ≠ 0) ∧
    gpr (zero .refuse 0) 4 = 0 := by decide

/-- Copy 1 of EPCR where there is one context; the three policies for the number and the three for register 0; the slot of a jump
through rD. The write of r31 and a write of 0 to register 0 are allowed, any other write of a register 0 that refuses is
not, nor is one of the pending register. -/
theorem witness_SprNumbersOutsideTheMap :
    let s (p : UnmappedSpr) (z : R0Policy) := start { resetConfig with unmappedSpr := p, r0 := z } 0x2000 0x8001
    let pend (p : UnmappedSpr) := slotted (s p .ordinary)
    (∀ p ∈ [UnmappedSpr.refuse, .zero, .free], ∀ z ∈ [R0Policy.refuse, .ordinary, .hardwired],
      (∀ x ∈ [s p z, slotted (s p z)], x.sr.sm = true ∧ (31 : RegNum).val < x.cfg.ngpr ∧ (0 : RegNum).val < x.cfg.ngpr ∧
        sprOf x.cfg (numberOf x 0 33) = none) ∧ (s p z).cfg.unmappedSpr = p ∧ (s p z).cfg.r0 = z ∧
      (s p z).ds = .none) ∧
    (∀ p, (pend p).cfg.slotWrite = .refuse ∧ pendingReg (pend p) = some 9) ∧
    (∀ p z v, WriteAllowed (s p z) (31, v)) ∧ (∀ p z, WriteAllowed (s p z) (0, 0)) ∧
    ∀ p v, WriteAllowed (s p .hardwired) (0, v) :=
  ⟨by decide, fun _ => ⟨rfl, rfl⟩, fun _ _ _ => allowed_of (.inl rfl) (.inl (show (31 : RegNum) ≠ 0 by decide)),
    fun _ _ => allowed_of (.inl rfl) (.inr (.inr rfl)), fun _ _ => allowed_of (.inl rfl) (.inr (.inl (by simp [start])))⟩

/-- The four policies; with SR[SUMRA], a register that user mode may read, one, of another context, that it may not, and a
number that names none, under each policy for it; rD is r31 or register 0. -/
theorem witness_SprAccessInUserMode :
    let s (p : UserPriv) := start { resetConfig with userPriv := p } 0x2000 0x8000
    let mayRead (p : UnmappedSpr) := start { eightContexts with userPriv := .sumra, unmappedSpr := p } 0x2000 0x18000
    (∀ p ∈ [UserPriv.refuse, .illegal, .ignore, .sumra],
      (s p).sr.sm = false ∧ (s p).cfg.userPriv = p ∧ cidOverflows (s p) = false ∧ (s p).sr.sumra = false ∧
      (31 : RegNum).val < (s p).cfg.ngpr) ∧
    (∀ p, ∀ d ∈ [(31 : RegNum), 0], WriteAllowed (s p) (d, 0)) ∧
    (∀ p, ∀ d v, WriteAllowed (mayRead p) (d, v)) ∧
    ∀ p ∈ [UnmappedSpr.refuse, .zero, .free],
      (mayRead p).sr.sm = false ∧ (mayRead p).cfg.userPriv = .sumra ∧ (mayRead p).sr.sumra = true ∧
      (31 : RegNum).val < (mayRead p).cfg.ngpr ∧ (0 : RegNum).val < (mayRead p).cfg.ngpr ∧
      sprOf (mayRead p).cfg (numberOf (mayRead p) 0 17) = some .sr ∧ UserMayRead (mayRead p) .sr ∧
      sprOf (mayRead p).cfg (numberOf (mayRead p) 0 39) = some (.epcr 7) ∧ ¬ UserMayRead (mayRead p) (.epcr 7) ∧
      sprOf (mayRead p).cfg (numberOf (mayRead p) 0 40) = none ∧ (mayRead p).cfg.unmappedSpr = p := by
  refine ⟨by decide, fun _ _ _ => allowed_of (.inl rfl) (.inr (.inr rfl)),
    fun _ _ _ => allowed_of (.inl rfl) (.inr (.inl (by simp [start, eightContexts, resetConfig]))), fun p hp => ?_⟩
  simp only [List.mem_cons, List.not_mem_nil, or_false] at hp
  rcases hp with rfl | rfl | rfl <;>
    exact ⟨by decide, by decide, by decide, by decide, by decide, by decide, ⟨by decide, by simp⟩, by decide,
      fun h => absurd (h.2 7 (.inl rfl)) (by decide), by decide, rfl⟩

/-- The first register that is not implemented. -/
theorem witness_UnimplementedRegisterRaisesRange :
    let s (p : UserPriv) (sr : Word) := start { specConfig with ngpr := 16, userPriv := p } 0x3000 sr
    (∀ x ∈ [s .refuse 0x8001, s .ignore 0x8000, s .sumra 0x8000], cidOverflows x = false ∧
      x.cfg.ngpr ≤ (16 : RegNum).val ∧ ¬ x.cfg.ngpr ≤ (15 : RegNum).val ∧ x.ds = .none) ∧
    (s .refuse 0x8001).sr.sm = true ∧ (s .ignore 0x8000).cfg.userPriv = .ignore ∧
    (s .sumra 0x8000).cfg.userPriv = .sumra ∧
    (∀ p ∈ [Presented.load 1 .word [] 16 false, .store 1 .word [16] 0, .floatingPoint [] [(16, 0)] 1,
        .arith [16] [] (some true) none none, .jump [] true 1 (some 16) [], .plain [0, 16] []],
      ∃ r ∈ p.regFields, (s .refuse 0x8001).cfg.ngpr ≤ r.val) := by decide

theorem witness_EntryFollowsItsRule :
    Exc.trap ≠ .reset ∧ cidOverflows slotState = false ∧ cidOverflows (start eightContexts 0x2000 0x60008100) = false := by
  decide

theorem witness_FastEntrySwitchesContext :
    ∃ t, Invariant (start eightContexts 0x2000 0x60008100) ∧ 1 < eightContexts.nctx ∧
      (start eightContexts 0x2000 0x60008100).sr.ce = true ∧ cidOverflows (start eightContexts 0x2000 0x60008100) = false ∧
      enterException .systemCall 0 (start eightContexts 0x2000 0x60008100) = .next t :=
  ⟨_, invariant_of (by decide) rfl rfl, by decide, by decide, by decide, rfl⟩

/-- V77: context 7 of 8; a CID of 9, which names no context. -/
theorem witness_CidOverflowPolicies :
    let s (p : Caution) (sr : Word) := start { eightContexts with cidOverflow := p } 0x2000 sr
    ∀ p ∈ [Caution.refuse, .execute], ∀ sr ∈ [(0x70008101 : Word), 0x90008101],
      Invariant (s p sr) ∧ 1 < (s p sr).cfg.nctx ∧ (s p sr).sr.ce = true ∧
      (s p sr).cfg.nctx ≤ (s p sr).sr.cid.toNat + 1 ∧ (s p sr).cfg.cidOverflow = p := by
  intro s p hp sr hsr
  simp only [List.mem_cons, List.not_mem_nil, or_false] at hp hsr
  rcases hp with rfl | rfl <;> rcases hsr with rfl | rfl <;>
    exact ⟨invariant_of (by decide) rfl rfl, by decide, by decide, by decide, rfl⟩

theorem witness_ResetWinsOverEverything :
    (nextInputs (withInputs { Inputs.quiet with reset := true, extIrq := true } slotState)).reset = true := by decide

theorem witness_StepRunsDecodedInstruction :
    let calm := withInputs .quiet (about specConfig 0x8007 0x44004800)
    let tick := withInputs { Inputs.quiet with tickIrq := true } (about specConfig 0x8007 0x44004800)
    let s := about resetConfig 0x8001 0x24000000
    (NextIs calm (.lJr 9) ∧ replacement (nextInputs calm) (effect (.lJr 9) (beginStep calm)) (beginStep calm) = none) ∧
    (NextIs tick (.lJr 9) ∧
      replacement (nextInputs tick) (effect (.lJr 9) (beginStep tick)) (beginStep tick) = some .tickTimer) ∧
    (s.inputs = [] ∧ s.sr.ime = false ∧ s.sr.lee = false ∧ s.cfg.bigEndian = true ∧ s.pc.toNat % 4 = 0 ∧ s.stored = [] ∧
      readBytes s.mem s.pc 4 = some [0x24, 0, 0, 0] ∧ decodeBytes [0x24, 0, 0, 0] = .ok .lRfe) :=
  ⟨⟨nextIs_of jrBytes (by decide) (by decide), by decide⟩, ⟨nextIs_of jrBytes (by decide) (by decide), by decide⟩, by decide⟩

theorem witness_FetchFaultsInOrder :
    let miss := userState
    let page := withInputs { Inputs.quiet with mmu := some [⟨.fetch, 0x2000, false, .pageFault⟩] } userState
    let bus := withInputs { Inputs.quiet with fetchBusError := true } supState
    (∀ s ∈ [miss, page, bus], (nextInputs s).reset = false ∧ s.sr.lee = false ∧ s.pc.toNat % 4 = 0 ∧
      cidOverflows s = false) ∧
    ((miss.cfg.hasImmu && miss.sr.ime) = true ∧ mmuLookup .fetch miss.pc miss.sr.sm (beginStep miss).mmu = none) ∧
    ((page.cfg.hasImmu && page.sr.ime) = true ∧
      mmuLookup .fetch page.pc page.sr.sm (beginStep page).mmu = some .pageFault) ∧
    ((bus.cfg.hasImmu && bus.sr.ime) = false ∧ (nextInputs bus).fetchBusError = true) := by decide

/-- Tick alone, external alone, both; for l.jr and for a store of the load/store class. -/
theorem witness_InterruptReplacesInstruction :
    let inp (t x : Bool) := { Inputs.quiet with tickIrq := t, extIrq := x }
    let six (t x : Bool) := withInputs (inp t x) (about specConfig 0x8007 0x44004800)
    let word (t x : Bool) := aboutClass specConfig 0x8007 (.store 0x1000 .word [3] 7) (inp t x)
    ∀ p ∈ [(true, false), (false, true), (true, true)], ∀ s ∈ [six p.1 p.2, word p.1 p.2],
      (∃ v out, NextHas s (.completes v) out) ∧ NoDebugTrap s ∧ cidOverflows s = false ∧
      (TickPending s ↔ p.1 = true) ∧ (ExtPending s ↔ p.2 = true) := by
  intro inp six word p hp s hs
  simp only [List.mem_cons, List.not_mem_nil, or_false] at hp hs
  rcases hp with rfl | rfl | rfl <;> rcases hs with rfl | rfl <;>
    refine ⟨?_, by unfold NoDebugTrap; decide, by decide, by unfold TickPending; decide, by unfold ExtPending; decide⟩
  all_goals
    first
    | exact ⟨_, _, nextHas_of (nextIs_of (i := .lJr 9) jrBytes (by decide) (by decide))⟩
    | exact ⟨_, _, nextHas_class (.store 0x1000 .word [3] 7) (by decide)⟩

/-- An instruction that raises with an interrupt asserted, and one that completes with every interrupt masked; of the six, and
of a class. -/
theorem witness_MaskedOrLateInterruptWaits :
    let ext := { Inputs.quiet with extIrq := true }
    let raising := withInputs ext (about specConfig 0x8007 0x20000001)
    let masked := withInputs { ext with tickIrq := true } (about specConfig 0x8001 0x44004800)
    let range := aboutClass { specConfig with ngpr := 16 } 0x8007 (.plain [16] []) ext
    let maskedClass := aboutClass specConfig 0x8001 (.plain [] [(3, 7)]) ext
    (NextIs raising (.lSys 1) ∧ NoDebugTrap raising ∧ ∃ e ea v, effect (.lSys 1) (beginStep raising) = .raises e ea v) ∧
    (NextIs masked (.lJr 9) ∧ NoDebugTrap masked ∧ ¬ TickPending masked ∧ ¬ ExtPending masked) ∧
    (NoDebugTrap range ∧ ∃ e ea v out, NextHas range (.raises e ea v) out) ∧
    (NoDebugTrap maskedClass ∧ ¬ TickPending maskedClass ∧ ¬ ExtPending maskedClass ∧
      ∃ v out, NextHas maskedClass (.completes v) out) :=
  ⟨⟨nextIs_of sysBytes (by decide) (by decide), by unfold NoDebugTrap; decide, _, _, _, rfl⟩,
    ⟨nextIs_of jrBytes (by decide) (by decide), by unfold NoDebugTrap; decide, by unfold TickPending; decide,
      by unfold ExtPending; decide⟩,
    ⟨by unfold NoDebugTrap; decide, _, _, _, _, nextHas_class (.plain [16] []) (by decide)⟩,
    ⟨by unfold NoDebugTrap; decide, by unfold TickPending; decide, by unfold ExtPending; decide, _, _,
      nextHas_class (.plain [] [(3, 7)]) (by decide)⟩⟩

/-- l.jr, which completes; Range (10) and Illegal Instruction (5) against the Trap's 7, and System Call, a tie; loads of the
class that raise Data Page Fault (8), Alignment (6) and D-TLB Miss (7), and one that completes. -/
theorem witness_DebugTrapByPriority :
    let cfg := { resetConfig with hasDebug := true, ngpr := 16 }
    let inp := { Inputs.quiet with debugTrap := true }
    let jr := withInputs inp (about cfg 0x8001 0x44004800)
    let range := withInputs inp (about cfg 0x8001 0x44008800)
    let illegal := withInputs inp (about cfg 0x8000 0x24000000)
    let sys := withInputs inp (about cfg 0x8001 0x20000001)
    let load (ea : Word) := aboutClass cfg 0x8021 (.load ea .word [] 3 false)
      { inp with mmu := some [⟨.load, 0x1000, true, .pageFault⟩] }
    let plain := aboutClass cfg 0x8001 (.plain [] []) inp
    (∃ v out, NextHas jr (.completes v) out) ∧ (∃ v out, NextHas plain (.completes v) out) ∧
    (∃ ea v out, NextHas range (.raises .range ea v) out ∧ 7 < priority false .range) ∧
    (∃ ea v out, NextHas illegal (.raises .illegalInsn ea v) out ∧ priority false .illegalInsn < 7) ∧
    (∃ ea v out, NextHas sys (.raises .systemCall ea v) out ∧ priority false .systemCall = 7) ∧
    (∃ ea v out, NextHas (load 0x1000) (.raises .dataPageFault ea v) out ∧ 7 < priority false .dataPageFault) ∧
    (∃ ea v out, NextHas (load 0x1001) (.raises .alignment ea v) out ∧ priority false .alignment < 7) ∧
    (∃ ea v out, NextHas (load 0x1004) (.raises .dtlbMiss ea v) out ∧ priority false .dtlbMiss = 7) ∧
    ∀ s ∈ [jr, range, illegal, sys, load 0x1000, load 0x1001, load 0x1004, plain],
      s.cfg.hasDebug = true ∧ (nextInputs s).debugTrap = true ∧ cidOverflows s = false :=
  ⟨⟨_, _, nextHas_of (nextIs_of (i := .lJr 9) jrBytes (by decide) (by decide))⟩,
    ⟨_, _, nextHas_class (.plain [] []) (by decide)⟩,
    ⟨_, _, _, nextHas_of (nextIs_of (i := .lJr 17) [0x44, 0x00, 0x88, 0x00] (by decide) (by decide)), by decide⟩,
    ⟨_, _, _, nextHas_of (nextIs_of (i := .lRfe) [0x24, 0x00, 0x00, 0x00] (by decide) (by decide)), by decide⟩,
    ⟨_, _, _, nextHas_of (nextIs_of (i := .lSys 1) sysBytes (by decide) (by decide)), by decide⟩,
    ⟨_, _, _, nextHas_class (.load 0x1000 .word [] 3 false) (by decide), by decide⟩,
    ⟨_, _, _, nextHas_class (.load 0x1001 .word [] 3 false) (by decide), by decide⟩,
    ⟨_, _, _, nextHas_class (.load 0x1004 .word [] 3 false) (by decide), by decide⟩, by decide⟩

theorem witness_IllegalWordRaises :
    let s := about { specConfig with classify := [(0, .illegal)] } 0x8001 0
    FetchGives s [0, 0, 0, 0] ∧ cidOverflows s = false ∧ decode (wordOfFour 0 0 0 0) = .error .otherOpcode ∧
      classOf (wordOfFour 0 0 0 0) s.cfg.classify = some .illegal :=
  ⟨fetchGives_of (by decide), by decide, by decide, by decide⟩

/-- SR[LEE] set; `pc` odd; the last byte of the word stored to; nothing written at the last address of the word. -/
theorem witness_FetchStops :
    let lee := start specConfig 0x2000 0x8081
    let odd := start specConfig 0x2001 0x8001
    let stored := { start specConfig 0x2000 0x8001 with stored := [0x2003] }
    let hole := { start specConfig 0x2000 0x8001 with mem := [(0x2000, 0), (0x2001, 0), (0x2002, 0)], stored := [0x2004] }
    (∀ s ∈ [lee, odd, stored, hole], (nextInputs s).reset = false ∧ (nextInputs s).fetchBusError = false) ∧
    (lee.sr.lee = true ∧ lee.cfg.littleEndian = .refuse) ∧ (odd.sr.lee = false ∧ odd.pc.toNat % 4 ≠ 0) ∧
    (stored.sr.lee = false ∧ stored.pc.toNat % 4 = 0 ∧ stored.sr.ime = false ∧ stored.cfg.storedFetch = .refuse ∧
      ∃ a ∈ stored.stored, a ∈ addresses stored.pc 4) ∧
    (hole.sr.lee = false ∧ hole.pc.toNat % 4 = 0 ∧ hole.sr.ime = false ∧
      (∀ a ∈ hole.stored, a ∉ addresses hole.pc 4) ∧ readBytes hole.mem hole.pc 4 = none) := by decide

/-- One load for each clause, with registers at the end of the range; a store satisfies the same conditions. -/
theorem witness_DataAccessFaultsInOrder :
    let load (ea : Word) : Presented := .load ea .half [31] 31 true
    let page := { userState with mmu := [⟨.load, 0x1002, false, .pageFault⟩] }
    (∀ r ∈ (load 0x1002).regFields, r.val < userState.cfg.ngpr) ∧
    (∀ r ∈ (Presented.store 0x1002 .half [31] 7).regFields, r.val < userState.cfg.ngpr) ∧
    cidOverflows userState = false ∧ cidOverflows page = false ∧ cidOverflows supState = false ∧
    (0x1001 : Word).toNat % Width.half.bytes ≠ 0 ∧ (0x1002 : Word).toNat % Width.half.bytes = 0 ∧
    ((userState.cfg.hasDmmu && userState.sr.dme) = true ∧
      mmuLookup .load 0x1002 userState.sr.sm userState.mmu = none) ∧
    ((page.cfg.hasDmmu && page.sr.dme) = true ∧ mmuLookup .load 0x1002 page.sr.sm page.mmu = some .pageFault) ∧
    (supState.cfg.hasDmmu && supState.sr.dme) = false := by decide

/-- A word at the last addresses of the address space, a half word in a little-endian machine, a translated byte; a half word
whose second byte nothing has written. -/
theorem witness_LoadCompletes :
    let word := { start resetConfig 0x2000 0x8001 with
      mem := [(0xFFFFFFFC, 1), (0xFFFFFFFD, 2), (0xFFFFFFFE, 3), (0xFFFFFFFF, 4)] }
    let half := { start { resetConfig with bigEndian := false } 0x2000 0x8001 with mem := [(0x1002, 1), (0x1003, 2)] }
    let byte := { start resetConfig 0x2000 0x8021 with mem := [(0, 0x80)], mmu := [⟨.load, 0x1001, true, .ok 0⟩] }
    let hole := { start resetConfig 0x2000 0x8001 with mem := [(0x1000, 1)] }
    (∀ s ∈ [word, half, byte, hole], ∀ r ∈ [(31 : RegNum), 0], r.val < s.cfg.ngpr) ∧
    (∀ d v, WriteAllowed word (d, v) ∧ WriteAllowed half (d, v) ∧ WriteAllowed byte (d, v)) ∧
    ((0xFFFFFFFC : Word).toNat % Width.word.bytes = 0 ∧ translateAddress .load 0xFFFFFFFC word = .ok 0xFFFFFFFC ∧
      readBytes word.mem 0xFFFFFFFC Width.word.bytes = some [1, 2, 3, 4] ∧
      word.cfg.bigEndian = true ∧ word.sr.lee = false) ∧
    ((0x1002 : Word).toNat % Width.half.bytes = 0 ∧ translateAddress .load 0x1002 half = .ok 0x1002 ∧
      readBytes half.mem 0x1002 Width.half.bytes = some [2, 1].reverse ∧ half.cfg.bigEndian = false) ∧
    ((0x1001 : Word).toNat % Width.byte.bytes = 0 ∧ translateAddress .load 0x1001 byte = .ok 0 ∧
      readBytes byte.mem 0 Width.byte.bytes = some [0x80]) ∧
    ((0x1000 : Word).toNat % Width.half.bytes = 0 ∧ translateAddress .load 0x1000 hole = .ok 0x1000 ∧
      ∃ a ∈ addresses 0x1000 Width.half.bytes, readByte a hole.mem = none) :=
  ⟨by decide, fun _ _ => ⟨allowed_of (.inl rfl) (.inr (.inl (by simp [start, resetConfig]))),
    allowed_of (.inl rfl) (.inr (.inl (by simp [start, resetConfig]))),
    allowed_of (.inl rfl) (.inr (.inl (by simp [start, resetConfig])))⟩, by decide, by decide, by decide, by decide⟩

theorem witness_StoreCompletes :
    (∀ r ∈ [(31 : RegNum)], r.val < supState.cfg.ngpr) ∧ (0xFFFFFFFC : Word).toNat % Width.word.bytes = 0 ∧
      (0xFFFFFFFE : Word).toNat % Width.half.bytes = 0 ∧ (0xFFFFFFFF : Word).toNat % Width.byte.bytes = 0 ∧
      translateAddress .store 0xFFFFFFFC supState = .ok 0xFFFFFFFC ∧
      translateAddress .store 0xFFFFFFFE supState = .ok 0xFFFFFFFE ∧
      translateAddress .store 0xFFFFFFFF supState = .ok 0xFFFFFFFF := by decide

/-- The result writes of the witnesses below: none, one, and two with register 0, where it is hard-wired, among them. -/
def someWrites : List (List RegWrite) := [[], [(31, 7)], [(0, 7), (31, 1), (31, 2)]]

/-- The result writes of `someWrites` are allowed outside a delay slot where no policy refuses them, and name implemented
registers. -/
theorem someWrites_allowed {s : State} (ds : s.ds = .none) (r0 : s.cfg.r0 ≠ .refuse) (n : s.cfg.ngpr = 32) :
    ∀ ws ∈ someWrites, (∀ r ∈ [(31 : RegNum)] ++ ws.map Prod.fst, r.val < s.cfg.ngpr) ∧ ∀ w ∈ ws, WriteAllowed s w :=
  fun ws _ => ⟨fun r _ => by rw [n]; exact r.isLt, allAllowed_of ds (.inl r0)⟩

/-- FPEE with a flag set by the instruction, with none set at all, and with one left set; no FPEE; no FPU. -/
theorem witness_FloatingPointWritesThenRaises :
    let s (fpu : Bool) (e : Word) :=
      { start { resetConfig with hasFpu := fpu, r0 := .hardwired } 0x2000 0x8001 with fpcsr := e }
    (∀ f e, ∀ ws ∈ someWrites,
      (∀ r ∈ [(31 : RegNum)] ++ ws.map Prod.fst, r.val < (s f e).cfg.ngpr) ∧ ∀ w ∈ ws, WriteAllowed (s f e) w) ∧
      cidOverflows (s true 0) = false ∧ cidOverflows (s false 0) = false ∧ (s true 1).cfg.hasFpu = true ∧
      (s true 1).fpcsr.getLsbD 0 = true ∧ (0x100 : BitVec 9) ≠ 0 ∧ (s true 0xFFFFFFFE).fpcsr.getLsbD 0 = false ∧
      (s true 0xFFFFF007).fpcsr.getLsbD 0 = true ∧ (s true 0xFFFFF007).fpcsr.extractLsb' 3 9 = 0 ∧
      (s true 0x801).fpcsr.getLsbD 0 = true ∧ (s true 0x801).fpcsr.extractLsb' 3 9 ≠ 0 ∧
      (s false 0).cfg.hasFpu = false :=
  ⟨fun _ _ => someWrites_allowed rfl (by simp [start]) rfl, by decide⟩

/-- OVE set and clear; OV set, cleared and given no value. -/
theorem witness_ArithmeticRangeByFlag :
    let s (ove : Bool) := start { resetConfig with r0 := .hardwired } 0x2000 (if ove then 0x9001 else 0x8001)
    (∀ ove, cidOverflows (s ove) = false ∧ (s ove).sr.ove = ove) ∧
    (∀ ove, ∀ ws ∈ someWrites,
      (∀ r ∈ [(31 : RegNum)] ++ ws.map Prod.fst, r.val < (s ove).cfg.ngpr) ∧ ∀ w ∈ ws, WriteAllowed (s ove) w) ∧
    (some true = some true ∧ (s true).sr.ove = true) ∧ (none ≠ some true ∨ (s true).sr.ove = false) ∧
    (some false ≠ some true ∨ (s true).sr.ove = false) ∧ (some true ≠ some true ∨ (s false).sr.ove = false) :=
  ⟨by decide, fun _ => someWrites_allowed rfl (by simp [start]) rfl, by decide, by decide, by decide, by decide⟩

/-- OV, CY and the result of an add that overflows with OVE clear; a set-flag comparison, which writes F alone; an add that
overflows with OVE set leaves CY and F. -/
theorem test_arith_flags :
    after (commit (effectPresented false (.arith [3] [(4, 7)] (some true) (some true) none) (start resetConfig 0x2000 0x8001)))
        (fun t => t.pc == 0x2004 && packSr t.sr == 0x8C01 && (context t 0).gpr[4] == 7) = true ∧
      after (commit (effectPresented false (.arith [3] [] none none (some true)) (start resetConfig 0x2000 0x9001)))
        (fun t => t.pc == 0x2004 && packSr t.sr == 0x9201) = true ∧
      after (commit (effectPresented false (.arith [3] [(4, 7)] (some true) (some true) (some true))
          (start resetConfig 0x2000 0x9001)))
        (fun t => t.pc == 0xB00 && !t.sr.cy && !t.sr.f) = true := by decide

/-- In a delay slot; with delay slots and without, the target from r31, at the end of the address space. -/
theorem witness_JumpClassSetsDelaySlot :
    let s (nd : Bool) := start { specConfig with nd := nd, r0 := .hardwired } 0x2000 0x8001
    (0xFFFFFFFC : Word).toNat % 4 = 0 ∧ (slotted (s false)).ds ≠ .none ∧
    (∀ nd, (s nd).ds = .none ∧ (s nd).cfg.nd = nd) ∧
    ∀ nd, ∀ ws ∈ someWrites,
      (∀ r ∈ (some (31 : RegNum)).toList ++ [] ++ ws.map Prod.fst, r.val < (s nd).cfg.ngpr) ∧
        ∀ w ∈ ws, WriteAllowed (s nd) w :=
  ⟨by decide, by decide, fun _ => ⟨rfl, rfl⟩, fun _ => someWrites_allowed rfl (by simp [start]) rfl⟩

theorem witness_UntakenBranchGoesOn :
    let s (nd : Bool) := start { resetConfig with nd := nd, r0 := .hardwired } 0x2000 0x8001
    ∀ nd, (s nd).ds = .none ∧ ∀ ws ∈ someWrites,
      (∀ r ∈ (none : Option RegNum).toList ++ [31] ++ ws.map Prod.fst, r.val < (s nd).cfg.ngpr) ∧
        ∀ w ∈ ws, WriteAllowed (s nd) w :=
  fun _ => ⟨rfl, someWrites_allowed rfl (by simp [start]) rfl⟩

/-- Each policy, with delay slots and without. -/
theorem witness_MisalignedClassJumpPolicies :
    let s (p : Misaligned) (nd : Bool) := start { specConfig with misaligned := p, nd := nd, r0 := .hardwired } 0x2000 0x8001
    (0xFFFFFFFF : Word).toNat % 4 ≠ 0 ∧
    (∀ p ∈ [Misaligned.refuse, .ignoreLow, .alignment], ∀ nd : Bool, (s p nd).ds = .none ∧ (s p nd).cfg.misaligned = p ∧
      (s p nd).cfg.nd = nd ∧ cidOverflows (s p nd) = false) ∧
    ∀ p nd, ∀ ws ∈ someWrites,
      (∀ r ∈ (some (31 : RegNum)).toList ++ [] ++ ws.map Prod.fst, r.val < (s p nd).cfg.ngpr) ∧
        ∀ w ∈ ws, WriteAllowed (s p nd) w :=
  ⟨by decide, by decide, fun _ _ => someWrites_allowed rfl (by simp [start]) rfl⟩

/-- No result and one; in a delay slot, too; the first register that is not implemented. -/
theorem witness_PlainClassWritesOrRaisesRange :
    let few := start { resetConfig with ngpr := 16 } 0x2000 0x8001
    (∀ x ∈ [few, slotted few], ∀ ws ∈ [[], [((15 : RegNum), (7 : Word))]],
      (∀ r ∈ [(15 : RegNum)] ++ ws.map Prod.fst, r.val < x.cfg.ngpr) ∧ ∀ w ∈ ws, WriteAllowed x w) ∧
      (∃ r ∈ [] ++ [((16 : RegNum), (7 : Word))].map Prod.fst, few.cfg.ngpr ≤ r.val) ∧ cidOverflows few = false := by
  refine ⟨fun x hx ws hws => ?_, by decide, by decide⟩
  simp only [List.mem_cons, List.not_mem_nil, or_false] at hx hws
  rcases hx with rfl | rfl <;> rcases hws with rfl | rfl <;> refine ⟨by decide, fun w m => ?_⟩
  all_goals first
    | exact absurd m List.not_mem_nil
    | rw [List.mem_singleton.1 m]; exact allowed_of (.inr (by decide)) (.inl (by decide))

/-- A fetch that finds no permission, from a state that meets the invariant. -/
theorem witness_StepKeepsInvariant :
    let s := withInputs { Inputs.quiet with mmu := some [⟨.fetch, 0x2000, true, .pageFault⟩] } (start eightContexts 0x2000 0x8141)
    Invariant s ∧ ∃ t, step s = .next t :=
  ⟨invariant_of (by decide) rfl rfl, goesOn_next (by decide)⟩

theorem witness_StepKeepsConfiguration : ∃ t, step (about resetConfig 0x8001 0xB4600011) = .next t :=
  goesOn_next (by decide)

/-- l.sys and reset from user mode. -/
theorem witness_SupervisorOnlyByException :
    (about resetConfig 0x8000 0x20000001).sr.sm = false ∧
    after (step (about resetConfig 0x8000 0x20000001)) (fun t => t.sr.sm) = true ∧
    after (step (withInputs { Inputs.quiet with reset := true } userState)) (fun t => t.sr.sm) = true := by decide

/-- l.jr completes in user mode; l.rfe raises. -/
theorem witness_UserModeWritesNoPrivilegedState :
    let s := start resetConfig 0x2000 0x8000
    s.sr.sm = false ∧ (∃ t, exec (.lJr 9) s = .next t) ∧ ∃ t, exec .lRfe s = .next t :=
  ⟨by decide, ⟨_, rfl⟩, ⟨_, rfl⟩⟩

/-- A legal CID, and one that names none of the eight contexts. -/
theorem witness_UnimplementedContextsUntouched :
    let s := start eightContexts 0x2000 0x60008101
    let far := start eightContexts 0x2000 0x80008001
    (Invariant s ∧ CidLegal s ∧ (∃ t, exec (.lSys 1) s = .next t) ∧ s.cfg.nctx ≤ (8 : CtxNum).val ∧ (8 : CtxNum) ≠ cur s) ∧
      (∃ t, exec (.lSys 1) far = .next t) ∧ far.cfg.nctx ≤ (15 : CtxNum).val ∧ (15 : CtxNum) ≠ cur far :=
  ⟨⟨invariant_of (by decide) rfl rfl, by decide, ⟨_, rfl⟩, by decide, by decide⟩, ⟨_, rfl⟩, by decide, by decide⟩

/-- A legal CID stays legal over l.sys; l.rfe with a saved CID that names none of the eight contexts. -/
theorem witness_CidStaysLegalButForRfe :
    let s := about eightContexts 0x60008101 0x20000001
    let far := withSaved 0 0x2004 0x80008066 0 (about eightContexts 0x8001 0x24000000)
    (Invariant s ∧ CidLegal s ∧ ∃ t, step s = .next t) ∧
      CidLegal far ∧ NextIs far .lRfe ∧ after (step far) (fun t => t.sr.cid == 8) = true := by
  refine ⟨⟨⟨by decide, by decide, trivial, by decide, by decide⟩, by decide, goesOn_next (by decide)⟩, by decide,
    nextIs_of [0x24, 0, 0, 0] (by decide) (by decide), by decide⟩

theorem witness_SixInstructionsLeaveMemory :
    (∃ t, exec (.lSys 1) supState = .next t) ∧ (∃ t, exec (.lTrap 0) supState = .next t) ∧
      (∃ t, exec .lRfe supState = .next t) ∧ (∃ t, exec (.lJr 9) supState = .next t) ∧
      (∃ t, exec (.lMfspr 3 0 17) supState = .next t) ∧ ∃ t, exec (.lMtspr 0 4 32) supState = .next t :=
  ⟨⟨_, rfl⟩, ⟨_, rfl⟩, goesOn_next (by decide), ⟨_, rfl⟩, ⟨_, rfl⟩, ⟨_, rfl⟩⟩

/-- Both MMUs disabled by SR; both absent; an entry. -/
theorem witness_HandlerRunsUntranslated :
    (supState.sr.ime = false ∧ supState.sr.dme = false) ∧
    ((start { specConfig with hasImmu := false, hasDmmu := false } 0x2000 0x8061).cfg.hasImmu = false ∧
      (start { specConfig with hasImmu := false, hasDmmu := false } 0x2000 0x8061).cfg.hasDmmu = false) ∧
    ∃ t, enterException .systemCall 0 userState = .next t := ⟨by decide, by decide, _, rfl⟩

/-- V30. -/
theorem witness_NestedEntryOverwrites :
    ¬ 1 < userState.cfg.nctx ∧
      ∃ t u, enterException .systemCall 0 userState = .next t ∧ enterException .trap 0 t = .next u :=
  ⟨by decide, _, _, rfl, rfl⟩

end Sys2Proof.Tests
end

section
/-! PROOFS. A step keeps the configuration and uses up one record of inputs and one number (R5, R45; log 1, 2, 33):
`beginStep` does the counting, and no part of the step after it touches any of the three. -/

namespace Sys2Proof.Machine

/-- `t` has the configuration of `s`, the same inputs to come and the same number for the free values. -/
structure SameRun (s t : State) : Prop where
  cfg : t.cfg = s.cfg
  inputs : t.inputs = s.inputs
  draws : t.draws = s.draws

theorem SameRun.refl (s : State) : SameRun s s := ⟨rfl, rfl, rfl⟩

theorem SameRun.trans {s t u : State} (h : SameRun s t) (k : SameRun t u) : SameRun s u :=
  ⟨k.cfg.trans h.cfg, k.inputs.trans h.inputs, k.draws.trans h.draws⟩

/-! ### The operations -/

/-- The form in which the frame lemmas say that only registers are written. -/
theorem SameRun.of_ctx {s t : State} (h : t = { s with ctx := t.ctx }) : SameRun s t := by
  rw [h]; exact ⟨rfl, rfl, rfl⟩

theorem sameRun_advance (s : State) : SameRun s (advance s) := ⟨by simp, by simp, by simp⟩

theorem sameRun_entered (e : Exc) (ea : Word) (s : State) : SameRun s (entered e ea s) := ⟨rfl, rfl, rfl⟩

theorem sameRun_enterException {e : Exc} {ea : Word} {s t : State} (h : enterException e ea s = .next t) :
    SameRun s t := by
  obtain ⟨e', ea', rfl⟩ := enterException_entered h
  exact sameRun_entered e' ea' s

theorem sameRun_setGpr {r : RegNum} {v : Word} {s t : State} (h : setGpr r v s = .ok t) : SameRun s t :=
  .of_ctx (setGprAt_frame h).1

theorem sameRun_setGprs {ws : List RegWrite} {s t : State} (h : setGprs ws s = .ok t) : SameRun s t :=
  .of_ctx (setGprs_frame h).1

theorem sameRun_sprWriteNumber {n : Half} {v : Word} {s t : State} (h : sprWriteNumber n v s = .ok t) :
    SameRun s t := by
  rcases sprWriteNumber_cases h with rfl | ⟨sr, -, rfl⟩ | rfl | ⟨c, f, -, rfl⟩ | ⟨-, -, rfl⟩
  · exact .refl t
  all_goals exact ⟨rfl, rfl, rfl⟩

/-- A jump taken, with or without a delay slot (R140, R141), as `jumpTo_completes` gives it. -/
theorem sameRun_jumped (a : Word) (r : Option RegNum) (s : State) :
    SameRun s (if s.cfg.nd then { s with pc := a } else { s with pc := s.pc + 4, ds := .target a r }) := by
  split <;> exact ⟨rfl, rfl, rfl⟩

theorem sameRun_untakenBranch (s : State) : SameRun s (untakenBranch s) := by
  unfold untakenBranch
  split
  · exact ⟨rfl, rfl, rfl⟩
  · split <;> exact ⟨rfl, rfl, rfl⟩

/-! ### Instructions and the step -/

theorem sameRun_exec {i : Instr} {s t : State} (h : exec i s = .next t) : SameRun s t := by
  rcases exec_next h with hc | ⟨e, ea, rfl⟩
  · rcases effect_completes hc with rfl | ⟨-, -, -, -, -, a, -, rfl⟩ | ⟨a, r, -, rfl⟩ | ⟨d, v, u, hu, rfl⟩ |
      ⟨-, n, v, u, hu, rfl⟩
    · exact sameRun_advance s
    · exact ⟨rfl, rfl, rfl⟩
    · exact sameRun_jumped a r s
    · exact (sameRun_setGpr hu).trans (sameRun_advance u)
    · exact (sameRun_sprWriteNumber hu).trans (sameRun_advance u)
  · exact sameRun_entered e ea s

theorem sameRun_effectPresented_completes {be : Bool} {p : Presented} {s u : State}
    (h : effectPresented be p s = .completes u) : SameRun s u := by
  rcases effectPresented_completes h with ⟨pa, w, v, rfl⟩ | ⟨ws, t, ht, hu⟩
  · exact .trans (t := storeBytes pa w v s) ⟨rfl, rfl, rfl⟩ (sameRun_advance _)
  · refine (sameRun_setGprs ht).trans ?_
    rcases hu with ⟨w, rfl⟩ | ⟨ov, cy, f, rfl⟩ | ⟨-, rfl | ⟨a, r, -, rfl⟩⟩
    · exact .trans (t := { t with fpcsr := w }) ⟨rfl, rfl, rfl⟩ (sameRun_advance _)
    · exact .trans (t := { t with sr := arithSr ov cy f t.sr }) ⟨rfl, rfl, rfl⟩ (sameRun_advance _)
    · exact sameRun_untakenBranch t
    · exact sameRun_jumped a r t

theorem sameRun_effectPresented_raises {be : Bool} {p : Presented} {s u : State} {e : Exc} {ea : Word}
    (h : effectPresented be p s = .raises e ea u) : SameRun s u := by
  rcases effectPresented_raises h with rfl | ⟨ws, t, ht, w, rfl⟩ | ⟨ws, o, rfl⟩
  · exact .refl u
  · exact (sameRun_setGprs ht).trans ⟨rfl, rfl, rfl⟩
  · exact .trans (.of_ctx (openResults_frame ws s)) ⟨rfl, rfl, rfl⟩

theorem sameRun_commit_effectPresented {be : Bool} {p : Presented} {s t : State}
    (h : commit (effectPresented be p s) = .next t) : SameRun s t := by
  rcases commit_next h with hc | ⟨e, ea, u, hr, he⟩
  · exact sameRun_effectPresented_completes hc
  · exact (sameRun_effectPresented_raises hr).trans (sameRun_enterException he)

theorem sameRun_step {s t : State} (h : step s = .next t) : SameRun (beginStep s) t := by
  rcases step_cases h with rfl | ⟨e, ea, he⟩ | ⟨bs, i, -, -, -, -, -, hi⟩ | ⟨be, p, hp⟩
  · exact ⟨rfl, rfl, rfl⟩
  · exact sameRun_enterException he
  · exact sameRun_exec hi
  · exact sameRun_commit_effectPresented hp

/-- Settles O48: the step works on `beginStep s`, which takes one record and one number, and keeps all three from there. -/
theorem stepKeepsConfiguration : Obligations.StepKeepsConfiguration := by
  intro s t h
  obtain ⟨hcfg, hinputs, hdraws⟩ := sameRun_step h
  exact ⟨hcfg, hinputs, hdraws⟩

end Sys2Proof.Machine
end

section
/-! PROOFS. What every step keeps of `pc`, of the delay slot and of memory (R24, R25, R70, R74): the part of the invariant
that does not speak of SR[CID]. -/

namespace Sys2Proof.Machine

/-- The checks of a well-formed configuration (R5, R20, R35, R40, R74). -/
theorem wellFormed_iff (cfg : Config) :
    cfg.wellFormed = true ↔ (1 ≤ cfg.ngpr ∧ cfg.ngpr ≤ 32) ∧ (1 ≤ cfg.nctx ∧ cfg.nctx ≤ 16) ∧
      cfg.vectorBase.wellFormed = true ∧ cxrSprWellFormed cfg.cxrSpr = true := by
  simp [Config.wellFormed, and_assoc]

/-- The invariant but for its clause about SR[CID]. -/
structure Placed (s : State) : Prop where
  cfg : s.cfg.wellFormed = true
  pc : s.pc.toNat % 4 = 0
  ds : s.ds.good s.cfg.nd
  mem : Memory.wf s.mem

theorem invariant_iff (s : State) : Invariant s ↔ Placed s ∧ (s.cfg.nctx = 1 → s.sr.cid = 0) :=
  ⟨fun ⟨hcfg, hpc, hds, hcid, hmem⟩ => ⟨⟨hcfg, hpc, hds, hmem⟩, hcid⟩,
    fun ⟨⟨hcfg, hpc, hds, hmem⟩, hcid⟩ => ⟨hcfg, hpc, hds, hcid, hmem⟩⟩

/-! ### Addresses that are multiples of 4 -/

theorem add_aligned {a b : Word} (ha : a.toNat % 4 = 0) (hb : b.toNat % 4 = 0) : (a + b).toNat % 4 = 0 := by
  rw [BitVec.toNat_add]
  omega

theorem vectorBaseOf_aligned {cfg : Config} (h : cfg.wellFormed = true) (eph : Bool) :
    (vectorBaseOf cfg eph).toNat % 4 = 0 := by
  obtain ⟨-, -, hbase, -⟩ := (wellFormed_iff cfg).1 h
  unfold vectorBaseOf
  cases hv : cfg.vectorBase with
  | fixed base =>
    simp only [hv, VectorBase.wellFormed, decide_eq_true_eq] at hbase
    show base.toNat % 4 = 0
    omega
  | eph => cases eph <;> rfl

theorem vectorOffset_aligned (e : Exc) : (vectorOffset e).toNat % 4 = 0 := by cases e <;> rfl

/-! ### The operations -/

/-- The rule for an operation that leaves the configuration, `pc`, the delay slot and memory alone. -/
theorem Placed.congr {s t : State} (h : Placed s) (cfg : t.cfg = s.cfg) (pc : t.pc = s.pc) (ds : t.ds = s.ds)
    (mem : t.mem = s.mem) : Placed t :=
  ⟨cfg ▸ h.cfg, pc ▸ h.pc, by rw [ds, cfg]; exact h.ds, mem ▸ h.mem⟩

/-- The form in which the frame lemmas say that only registers are written. -/
theorem Placed.of_ctx {s t : State} (h : Placed s) (frame : t = { s with ctx := t.ctx }) : Placed t := by
  rw [frame]
  exact h.congr rfl rfl rfl rfl

theorem placed_beginStep {s : State} (h : Placed s) : Placed (beginStep s) := h.congr rfl rfl rfl rfl

theorem placed_advance {s : State} (h : Placed s) : Placed (advance s) := by
  refine ⟨by simpa using h.cfg, ?_, by rw [advance_ds]; trivial, by simpa using h.mem⟩
  cases hds : s.ds with
  | none =>
    rw [advance_pc_of_none hds]
    exact add_aligned h.pc rfl
  | target t r =>
    rw [advance_pc_of_target hds]
    have good := h.ds
    rw [hds] at good
    exact good.2

theorem placed_entered {s : State} (h : Placed s) (e : Exc) (ea : Word) : Placed (entered e ea s) :=
  ⟨h.cfg, add_aligned (vectorBaseOf_aligned h.cfg _) (vectorOffset_aligned e), trivial, h.mem⟩

theorem placed_enterException {e : Exc} {ea : Word} {s t : State} (hs : Placed s)
    (h : enterException e ea s = .next t) : Placed t := by
  obtain ⟨e', ea', rfl⟩ := enterException_entered h
  exact placed_entered hs e' ea'

theorem placed_enterReset {s : State} (h : Placed s) : Placed (enterReset s) :=
  ⟨h.cfg, add_aligned (vectorBaseOf_aligned h.cfg _) (vectorOffset_aligned _), trivial, h.mem⟩

theorem placed_storeBytes {s : State} (h : Placed s) (pa : Word) (w : Width) (v : Word) :
    Placed (storeBytes pa w v s) := ⟨h.cfg, h.pc, h.ds, storeBytes_wf pa w v h.mem⟩

theorem placed_setGpr {r : RegNum} {v : Word} {s t : State} (hs : Placed s) (h : setGpr r v s = .ok t) : Placed t :=
  hs.of_ctx (setGprAt_frame h).1

theorem placed_setGprs {ws : List RegWrite} {s t : State} (hs : Placed s) (h : setGprs ws s = .ok t) : Placed t :=
  hs.of_ctx (setGprs_frame h).1

theorem placed_sprWriteNumber {n : Half} {v : Word} {s t : State} (hs : Placed s)
    (h : sprWriteNumber n v s = .ok t) : Placed t := by
  rcases sprWriteNumber_cases h with rfl | ⟨sr, -, rfl⟩ | rfl | ⟨c, f, -, rfl⟩ | ⟨-, -, rfl⟩
  · exact hs
  all_goals exact hs.congr rfl rfl rfl rfl

/-- A jump taken to a multiple of 4 (R140, R141): a delay slot is set only where there are delay slots. -/
theorem placed_jumped {s : State} (h : Placed s) {a : Word} (ha : a.toNat % 4 = 0) (r : Option RegNum) :
    Placed (if s.cfg.nd then { s with pc := a } else { s with pc := s.pc + 4, ds := .target a r }) := by
  split
  · exact ⟨h.cfg, ha, h.ds, h.mem⟩
  · rename_i hnd
    exact ⟨h.cfg, add_aligned h.pc rfl, ⟨by simpa using hnd, ha⟩, h.mem⟩

theorem placed_untakenBranch {s : State} (h : Placed s) : Placed (untakenBranch s) := by
  have next : (s.pc + 4).toNat % 4 = 0 := add_aligned h.pc rfl
  unfold untakenBranch
  split
  · exact ⟨h.cfg, next, h.ds, h.mem⟩
  · rename_i hnd
    split
    · exact ⟨h.cfg, next, ⟨by simpa using hnd, add_aligned h.pc rfl⟩, h.mem⟩
    · exact ⟨h.cfg, next, h.ds, h.mem⟩

/-! ### Instructions and the step -/

theorem placed_exec {i : Instr} {s t : State} (hs : Placed s) (h : exec i s = .next t) : Placed t := by
  rcases exec_next h with hc | ⟨e, ea, rfl⟩
  · rcases effect_completes hc with rfl | ⟨-, -, -, -, -, a, ha, rfl⟩ | ⟨a, r, ha, rfl⟩ | ⟨d, v, u, hu, rfl⟩ |
      ⟨-, n, v, u, hu, rfl⟩
    · exact placed_advance hs
    · exact ⟨hs.cfg, ha, trivial, hs.mem⟩
    · exact placed_jumped hs ha r
    · exact placed_advance (placed_setGpr hs hu)
    · exact placed_advance (placed_sprWriteNumber hs hu)
  · exact placed_entered hs e ea

theorem placed_effectPresented_completes {be : Bool} {p : Presented} {s u : State} (hs : Placed s)
    (h : effectPresented be p s = .completes u) : Placed u := by
  rcases effectPresented_completes h with ⟨pa, w, v, rfl⟩ | ⟨ws, t, ht, hu⟩
  · exact placed_advance (placed_storeBytes hs pa w v)
  · have written : Placed t := placed_setGprs hs ht
    rcases hu with ⟨w, rfl⟩ | ⟨ov, cy, f, rfl⟩ | ⟨-, rfl | ⟨a, r, ha, rfl⟩⟩
    · exact placed_advance (written.congr rfl rfl rfl rfl)
    · exact placed_advance (written.congr rfl rfl rfl rfl)
    · exact placed_untakenBranch written
    · exact placed_jumped written ha r

theorem placed_effectPresented_raises {be : Bool} {p : Presented} {s u : State} {e : Exc} {ea : Word} (hs : Placed s)
    (h : effectPresented be p s = .raises e ea u) : Placed u := by
  rcases effectPresented_raises h with rfl | ⟨ws, t, ht, w, rfl⟩ | ⟨ws, o, rfl⟩
  · exact hs
  · exact (placed_setGprs hs ht).congr rfl rfl rfl rfl
  · exact (hs.of_ctx (openResults_frame ws s)).congr rfl rfl rfl rfl

theorem placed_commit_effectPresented {be : Bool} {p : Presented} {s t : State} (hs : Placed s)
    (h : commit (effectPresented be p s) = .next t) : Placed t := by
  rcases commit_next h with hc | ⟨e, ea, u, hr, he⟩
  · exact placed_effectPresented_completes hs hc
  · exact placed_enterException (placed_effectPresented_raises hs hr) he

theorem placed_step {s t : State} (hs : Placed s) (h : step s = .next t) : Placed t := by
  have begun : Placed (beginStep s) := placed_beginStep hs
  rcases step_cases h with rfl | ⟨e, ea, he⟩ | ⟨bs, i, -, -, -, -, -, hi⟩ | ⟨be, p, hp⟩
  · exact placed_enterReset begun
  · exact placed_enterException begun he
  · exact placed_exec begun hi
  · exact placed_commit_effectPresented begun hp

end Sys2Proof.Machine
end

section
/-! PROOFS. The current context (R23, R35): SR[CID] stays legal over every step but an l.rfe with fast context switching off,
and no instruction touches a context that is neither implemented nor current. With the section before, the invariant. -/

namespace Sys2Proof.Machine

/-! ### SR[CID] over the operations -/

/-- The rule for an operation that leaves the configuration and SR[CID] alone. -/
theorem cidLegal_congr {s t : State} (h : CidLegal s) (cfg : t.cfg = s.cfg) (cid : t.sr.cid = s.sr.cid) :
    CidLegal t := by
  unfold CidLegal
  rw [cfg, cid]
  exact h

theorem cidLegal_advance {s : State} (h : CidLegal s) : CidLegal (advance s) := cidLegal_congr h (by simp) (by simp)

/-- Entry increments a CID only where that leaves it in its range (R241, R242). -/
theorem cidLegal_entered {s : State} (h : CidLegal s) (e : Exc) (ea : Word) :
    CidLegal (entered e ea s) := by
  show (entryCid s).toNat < s.cfg.nctx
  unfold entryCid
  split
  · rename_i room
    simp only [cidOverflows, Bool.and_eq_true, Bool.not_eq_true', Bool.and_eq_false_imp, decide_eq_false_iff_not] at room
    obtain ⟨on, inRange⟩ := room
    have next : s.sr.cid.toNat + 1 < s.cfg.nctx := Nat.lt_of_not_le (inRange on)
    rw [BitVec.toNat_add]
    exact (Nat.mod_le _ _).trans_lt next
  · exact h

theorem cidLegal_enterException {e : Exc} {ea : Word} {s t : State} (hs : CidLegal s)
    (h : enterException e ea s = .next t) : CidLegal t := by
  obtain ⟨e', ea', rfl⟩ := enterException_entered h
  exact cidLegal_entered hs e' ea'

theorem cidLegal_enterReset {s : State} (h : CidLegal s) : CidLegal (enterReset s) := Nat.zero_lt_of_lt h

theorem cidLegal_setGpr {r : RegNum} {v : Word} {s t : State} (hs : CidLegal s) (h : setGpr r v s = .ok t) :
    CidLegal t := by
  rw [(setGprAt_frame h).1]
  exact hs

theorem cidLegal_setGprs {ws : List RegWrite} {s t : State} (hs : CidLegal s) (h : setGprs ws s = .ok t) :
    CidLegal t := by
  rw [(setGprs_frame h).1]
  exact hs

/-- An SPR write leaves SR[CID] as it is or makes it a CID that names a context: SR by log 7's choice, CXR by R156. -/
theorem cidLegal_sprWriteNumber {n : Half} {v : Word} {s t : State} (hs : CidLegal s)
    (h : sprWriteNumber n v s = .ok t) : CidLegal t := by
  rcases sprWriteNumber_cases h with rfl | ⟨sr, hsr, rfl⟩ | rfl | ⟨c, f, -, rfl⟩ | ⟨hv, -, rfl⟩
  · exact hs
  · obtain ⟨-, kept | ⟨-, legal⟩⟩ := srWrite_ok hsr
    · exact cidLegal_congr hs rfl kept
    · exact legal
  · exact hs
  · exact hs
  · show (v.extractLsb' 16 4).toNat < s.cfg.nctx
    simp only [BitVec.extractLsb'_toNat] at hv ⊢
    omega

theorem cidLegal_jumped {s : State} (h : CidLegal s) (a : Word) (r : Option RegNum) :
    CidLegal (if s.cfg.nd then { s with pc := a } else { s with pc := s.pc + 4, ds := .target a r }) := by
  split <;> exact h

theorem cidLegal_untakenBranch {s : State} (h : CidLegal s) : CidLegal (untakenBranch s) := by
  unfold untakenBranch
  split
  · exact h
  · split <;> exact h

/-- l.rfe (R122): with fast context switching on, the CID it restores is the decremented one, so a legal one; with one context
it is 0 (R35); else it is the saved one, whatever that is. -/
theorem cidLegal_returned {s : State} (h : CidLegal s) (low : ¬ (switching s = true ∧ s.sr.cid = 0))
    (saved : esrCidAltered (returnContext s) s = false) (a : Word) :
    CidLegal (returned (returnContext s) a s) ∨ (s.sr.ce = false ∧ 1 < s.cfg.nctx ∧
      (returned (returnContext s) a s).sr.cid = (unpackSr (context s (cur s)).esr).cid) := by
  by_cases many : 1 < s.cfg.nctx
  · cases on : s.sr.ce with
    | true =>
      have hsw : switching s = true := by simp [switching, hasContexts, many, on]
      have hcid : s.sr.cid ≠ 0 := fun zero => low ⟨hsw, zero⟩
      have hret : returnContext s = (s.sr.cid - 1).toFin := by simp [returnContext, hsw]
      have hsaved : (unpackSr (context s (returnContext s)).esr).cid = s.sr.cid - 1 := by
        simp only [esrCidAltered, hsw, Bool.true_and, decide_eq_false_iff_not, not_not] at saved
        exact BitVec.toFin_inj.1 (saved.trans hret)
      refine .inl ?_
      show (restoredSr s.cfg (context s (returnContext s)).esr).cid.toNat < s.cfg.nctx
      rw [restoredSr_eq, if_pos many, hsaved]
      have hlegal : s.sr.cid.toNat < s.cfg.nctx := h
      bv_omega
    | false =>
      have hret : returnContext s = cur s := by simp [returnContext, switching, on]
      refine .inr ⟨rfl, many, ?_⟩
      rw [hret, returned_sr, restoredSr_eq, if_pos many]
  · refine .inl ?_
    show (restoredSr s.cfg (context s (returnContext s)).esr).cid.toNat < s.cfg.nctx
    rw [restoredSr_eq, if_neg many]
    exact Nat.zero_lt_of_lt h

/-! ### SR[CID] over instructions and the step -/

theorem cidLegal_exec {i : Instr} {s t : State} (hs : CidLegal s) (h : exec i s = .next t) :
    CidLegal t ∨ (i = .lRfe ∧ s.sr.ce = false ∧ 1 < s.cfg.nctx ∧
      t.sr.cid = (unpackSr (context s (cur s)).esr).cid) := by
  rcases exec_next h with hc | ⟨e, ea, rfl⟩
  · rcases effect_completes hc with rfl | ⟨rfl, -, -, low, saved, a, -, rfl⟩ | ⟨a, r, -, rfl⟩ | ⟨d, v, u, hu, rfl⟩ |
      ⟨-, n, v, u, hu, rfl⟩
    · exact .inl (cidLegal_advance hs)
    · exact (cidLegal_returned hs low saved a).imp_right fun escape => ⟨rfl, escape⟩
    · exact .inl (cidLegal_jumped hs a r)
    · exact .inl (cidLegal_advance (cidLegal_setGpr hs hu))
    · exact .inl (cidLegal_advance (cidLegal_sprWriteNumber hs hu))
  · exact .inl (cidLegal_entered hs e ea)

theorem cidLegal_effectPresented_completes {be : Bool} {p : Presented} {s u : State} (hs : CidLegal s)
    (h : effectPresented be p s = .completes u) : CidLegal u := by
  rcases effectPresented_completes h with ⟨pa, w, v, rfl⟩ | ⟨ws, t, ht, hu⟩
  · exact cidLegal_advance (cidLegal_congr hs rfl rfl)
  · have written : CidLegal t := cidLegal_setGprs hs ht
    rcases hu with ⟨w, rfl⟩ | ⟨ov, cy, f, rfl⟩ | ⟨-, rfl | ⟨a, r, -, rfl⟩⟩
    · exact cidLegal_advance (cidLegal_congr written rfl rfl)
    · exact cidLegal_advance (cidLegal_congr written rfl rfl)
    · exact cidLegal_untakenBranch written
    · exact cidLegal_jumped written a r

theorem cidLegal_effectPresented_raises {be : Bool} {p : Presented} {s u : State} {e : Exc} {ea : Word}
    (hs : CidLegal s) (h : effectPresented be p s = .raises e ea u) : CidLegal u := by
  rcases effectPresented_raises h with rfl | ⟨ws, t, ht, w, rfl⟩ | ⟨ws, o, rfl⟩
  · exact hs
  · exact cidLegal_congr (cidLegal_setGprs hs ht) rfl rfl
  · rw [openResults_frame ws s]
    exact hs

theorem cidLegal_commit_effectPresented {be : Bool} {p : Presented} {s t : State}
    (hs : CidLegal s) (h : commit (effectPresented be p s) = .next t) : CidLegal t := by
  rcases commit_next h with hc | ⟨e, ea, u, hr, he⟩
  · exact cidLegal_effectPresented_completes hs hc
  · exact cidLegal_enterException (cidLegal_effectPresented_raises hs hr) he

theorem cidLegal_step {s t : State} (hs : CidLegal s) (h : step s = .next t) :
    CidLegal t ∨ (NextIs s .lRfe ∧ s.sr.ce = false ∧ 1 < s.cfg.nctx ∧
      t.sr.cid = (unpackSr (context s (cur s)).esr).cid) := by
  have begun : CidLegal (beginStep s) := hs
  rcases step_cases h with rfl | ⟨e, ea, he⟩ | ⟨bs, i, hr, hl, hp, hb, hd, hi⟩ | ⟨be, p, hp⟩
  · exact .inl (cidLegal_enterReset begun)
  · exact .inl (cidLegal_enterException begun he)
  · refine (cidLegal_exec begun hi).imp_right ?_
    rintro ⟨rfl, escape⟩
    exact ⟨⟨bs, ⟨hr, hl, hp, hb⟩, hd⟩, escape⟩
  · exact .inl (cidLegal_commit_effectPresented begun hp)

/-- Settles O59: only l.rfe without fast context switching can leave the legal values, whatever the rest of the invariant. -/
theorem cidStaysLegalButForRfe : Obligations.CidStaysLegalButForRfe := by
  intro s t _ hs h
  refine (cidLegal_step hs h).imp_right ?_
  rintro ⟨hrfe, off, -, restored⟩
  exact ⟨hrfe, off, restored⟩

/-! ### The invariant -/

/-- Settles O46: `pc`, the delay slot and memory by `placed_step`; where there is one context SR[CID] = 0 is the one legal
value, which `cidLegal_step` keeps there. -/
theorem stepKeepsInvariant : Obligations.StepKeepsInvariant := by
  intro s t hinv h
  obtain ⟨hplaced, hcid⟩ := (invariant_iff s).1 hinv
  have hcfg : t.cfg = s.cfg := (sameRun_step h).cfg
  refine (invariant_iff t).2 ⟨placed_step hplaced h, fun hone => ?_⟩
  rw [hcfg] at hone
  have legal : CidLegal s := by simp [CidLegal, hcid hone, hone]
  rcases cidLegal_step legal h with legal' | ⟨-, -, many, -⟩
  · rw [CidLegal, hcfg, hone] at legal'
    exact BitVec.eq_of_toNat_eq (Nat.lt_one_iff.1 legal')
  · omega

/-- Settles O47: the address 0x100, no delay slot, CID 0 and empty memory, under `resetConfig`. -/
theorem resetMeetsInvariant : Obligations.ResetMeetsInvariant :=
  ⟨by decide, rfl, trivial, fun _ => rfl, by decide⟩

/-! ### Contexts that are not implemented -/

theorem cur_implemented {s : State} (h : CidLegal s) : (cur s).val < s.cfg.nctx := by
  unfold cur
  split
  · exact h
  · exact Nat.zero_lt_of_lt h

/-- An SPR write touches only contexts that are implemented (R49). -/
theorem sprWriteNumber_otherContexts {n : Half} {v : Word} {s t : State} (h : sprWriteNumber n v s = .ok t)
    {c : CtxNum} (hc : s.cfg.nctx ≤ c.val) : context t c = context s c := by
  rcases sprWriteNumber_cases h with rfl | ⟨sr, -, rfl⟩ | rfl | ⟨d, f, hd, rfl⟩ | ⟨-, -, rfl⟩
  · rfl
  · rfl
  · rfl
  · exact context_updateContext_other (fun same => by subst same; omega) f s
  · rfl

theorem exec_otherContexts {i : Instr} {s t : State} (h : exec i s = .next t) {c : CtxNum} (hc : s.cfg.nctx ≤ c.val)
    (other : c ≠ cur s) : context t c = context s c := by
  rcases exec_next h with hcomp | ⟨e, ea, rfl⟩
  · rcases effect_completes hcomp with rfl | ⟨-, -, -, -, -, a, -, rfl⟩ | ⟨a, r, -, rfl⟩ | ⟨d, v, u, hu, rfl⟩ |
      ⟨-, n, v, u, hu, rfl⟩
    · exact context_advance s c
    · rfl
    · split <;> rfl
    · obtain ⟨-, others, -⟩ := setGprAt_frame hu
      exact (context_advance u c).trans (others c other)
    · exact (context_advance u c).trans (sprWriteNumber_otherContexts hu hc)
  · exact context_entered_other other e ea

/-- Settles O51: l.mfspr and entry write the current context, l.mtspr an implemented one. -/
theorem unimplementedContextsUntouched : Obligations.UnimplementedContextsUntouched := by
  intro i s t h
  exact ⟨fun c hc other => exec_otherContexts h hc other, fun _ hlegal => cur_implemented hlegal⟩

end Sys2Proof.Machine
end

section
/-! PROOFS. SR as a word (R26, R27): the place of every field, and that the fields of the word are the record. -/

namespace Sys2Proof.Machine

/-- The four bits of CID are the top of the SR word. -/
theorem packSr_cid (s : SR) : (packSr s).extractLsb' 28 4 = s.cid := by
  ext j hj
  rw [BitVec.getElem_extractLsb', packSr]
  simp only [BitVec.getLsbD_append]
  interval_cases j <;> simp

/-- Bits 27-17 read as 0. -/
theorem packSr_reserved (s : SR) {j : Nat} (lo : 17 ≤ j) (hi : j ≤ 27) : (packSr s).getLsbD j = false := by
  simp only [packSr, BitVec.getLsbD_append]
  interval_cases j <;> simp

/-- Bits 16-0 are the fields of R27's table, FO reading as 1. -/
theorem packSr_fields (s : SR) :
    [0, 1, 2, 3, 4, 5, 6, 7, 8, 9, 10, 11, 12, 13, 14, 15, 16].map (packSr s).getLsbD =
      [s.sm, s.tee, s.iee, s.dce, s.ice, s.dme, s.ime, s.lee, s.ce, s.f, s.cy, s.ov, s.ove, s.dsx, s.eph, true,
        s.sumra] := by
  simp only [List.map, packSr, BitVec.getLsbD_append]
  simp

/-- Settles O53; the number above the low 28 bits is the extracted field CID. -/
theorem srWordLayout : Obligations.SrWordLayout := by
  intro s
  refine ⟨packSr_fields s, fun j lo hi => packSr_reserved s lo hi, ?_⟩
  calc (packSr s).toNat / 2 ^ 28
      = ((packSr s).extractLsb' 28 4).toNat := by
        rw [BitVec.extractLsb'_toNat, Nat.shiftRight_eq_div_pow]
        omega
    _ = s.cid.toNat := by rw [packSr_cid]

theorem unpackSr_packSr (s : SR) : unpackSr (packSr s) = s := by
  have fields := packSr_fields s
  simp only [List.map, List.cons.injEq] at fields
  simp only [unpackSr, packSr_cid, fields]

/-- Settles O54: each field is read from the bit `packSr` put it at. -/
theorem srSurvivesEsr : Obligations.SrSurvivesEsr := unpackSr_packSr

end Sys2Proof.Machine
end

section
/-! PROOFS. The SPR numbers (R49, R154, R157): the register each number of the table names, and no other number names one. -/

namespace Sys2Proof.Machine

/-- A number that the table gives to no register of group 0 can name CXR alone (R40). -/
theorem sprOf_of_not_taken {cfg : Config} {n : Half} (h : sprNumberTaken n = false) :
    sprOf cfg n = if cfg.cxrSpr = some n ∧ 1 < cfg.nctx then some .cxr else none := by
  simp only [sprNumberTaken, decide_eq_false_iff_not, not_or] at h
  obtain ⟨h2, h17, h20, hcopies, hshadow⟩ := h
  have h32 : ¬ (32 ≤ n.toNat ∧ n.toNat < 48) := by omega
  have h48 : ¬ (48 ≤ n.toNat ∧ n.toNat < 64) := by omega
  have h64 : ¬ (64 ≤ n.toNat ∧ n.toNat < 80) := by omega
  simp only [sprOf, h2, h17, h20, h32, h48, h64, hshadow, if_false, hasContexts_iff]

theorem copyOf_val (cfg : Config) (c : CtxNum) (f : CtxNum → Spr) :
    copyOf cfg c.val f = if c.val < cfg.nctx then some (f c) else none := by
  simp [copyOf]

/-- The number of copy `c` of a register of group 0, whose copies begin at `k` (R49). -/
theorem copyNumber_toNat {k : Nat} (hk : k < 1024) (c : CtxNum) : (BitVec.ofNat 16 (k + c.val)).toNat = k + c.val :=
  Nat.mod_eq_of_lt (by omega)

theorem sprOf_epcr (cfg : Config) (c : CtxNum) :
    sprOf cfg (BitVec.ofNat 16 (32 + c.val)) = if c.val < cfg.nctx then some (.epcr c) else none := by
  rw [sprOf, copyNumber_toNat (by decide)]
  simp (disch := omega) only [if_neg, if_pos, Nat.add_sub_cancel_left, copyOf_val]

theorem sprOf_eear (cfg : Config) (c : CtxNum) :
    sprOf cfg (BitVec.ofNat 16 (48 + c.val)) = if c.val < cfg.nctx then some (.eear c) else none := by
  rw [sprOf, copyNumber_toNat (by decide)]
  simp (disch := omega) only [if_neg, if_pos, Nat.add_sub_cancel_left, copyOf_val]

theorem sprOf_esr (cfg : Config) (c : CtxNum) :
    sprOf cfg (BitVec.ofNat 16 (64 + c.val)) = if c.val < cfg.nctx then some (.esr c) else none := by
  rw [sprOf, copyNumber_toNat (by decide)]
  simp (disch := omega) only [if_neg, if_pos, Nat.add_sub_cancel_left, copyOf_val]

/-- The shadow registers (R157, log 9): a number is read back into its context and its register. -/
theorem sprOf_shadowGpr (cfg : Config) (c : CtxNum) (r : RegNum) :
    sprOf cfg (BitVec.ofNat 16 (1024 + 32 * c.val + r.val)) =
      if cfg.shadowGprMap = true ∧ c.val < cfg.nctx ∧ r.val < cfg.ngpr then some (.gpr c r) else none := by
  have hk : (BitVec.ofNat 16 (1024 + 32 * c.val + r.val)).toNat = 1024 + 32 * c.val + r.val :=
    Nat.mod_eq_of_lt (by omega)
  have hctx : (1024 + 32 * c.val + r.val - 1024) / 32 = c.val := by omega
  have hreg : (1024 + 32 * c.val + r.val - 1024) % 32 = r.val := by omega
  have hnum : Fin.ofNat 32 (1024 + 32 * c.val + r.val - 1024) = r := Fin.ext hreg
  rw [sprOf, hk]
  iterate 6 rw [if_neg (by omega)]
  rw [if_pos (by omega), hctx, hreg, hnum, copyOf_val, ← ite_and]
  exact if_congr (and_assoc.trans (and_congr_right' and_comm)) rfl rfl

/-- Settles O14: a lemma for each kind of copy; CXR's number, and one outside the table, are taken by none of group 0. -/
theorem sprNumbersNameRegisters : Obligations.SprNumbersNameRegisters := by
  intro cfg c r hwf
  obtain ⟨-, -, -, hcxr⟩ := (wellFormed_iff cfg).1 hwf
  refine ⟨rfl, rfl, rfl, sprOf_epcr cfg c, sprOf_eear cfg c, sprOf_esr cfg c, sprOf_shadowGpr cfg c r, ?_, ?_⟩
  · intro n hn
    rw [hn, cxrSprWellFormed, Bool.not_eq_true'] at hcxr
    simp [sprOf_of_not_taken hcxr, hn]
  · intro n h2 h17 h20 hrange hn
    have free : sprNumberTaken n = false := by
      have : n.toNat ≠ 2 := fun h => h2 (BitVec.eq_of_toNat_eq h)
      have : n.toNat ≠ 17 := fun h => h17 (BitVec.eq_of_toNat_eq h)
      have : n.toNat ≠ 20 := fun h => h20 (BitVec.eq_of_toNat_eq h)
      rw [sprNumberTaken, decide_eq_false_iff_not]
      omega
    simp [sprOf_of_not_taken free, hn]

end Sys2Proof.Machine
end

section
/-! PROOFS. What a step stops on before it decodes (R24, R48, R72, R82). -/

namespace Sys2Proof.Machine

theorem storedSinceLaunch_iff (pa : Word) (s : State) :
    storedSinceLaunch pa s = true ↔ ∃ a ∈ s.stored, a ∈ addresses pa 4 := by
  simp [storedSinceLaunch, and_comm]

/-- With the MMU disabled and no bus error the fetch is one of the bytes at `pc` (R84). -/
theorem fetch_untranslated {s : State} (h : s.sr.ime = false) : fetch false s = fetchBytes s.pc s := by
  simp [fetch, translateAddress, translates, h]

theorem fetchBytes_stored {pa : Word} {s : State} (policy : s.cfg.storedFetch = .refuse)
    (stored : ∃ a ∈ s.stored, a ∈ addresses pa 4) : fetchBytes pa s = .refuses .fetchAfterStore :=
  if_pos ⟨policy, (storedSinceLaunch_iff pa s).2 stored⟩

theorem fetchBytes_unwritten {pa : Word} {s : State} (stored : ∀ a ∈ s.stored, a ∉ addresses pa 4)
    (unwritten : readBytes s.mem pa 4 = none) : fetchBytes pa s = .faults .unwrittenMemory := by
  have fresh : ¬ (s.cfg.storedFetch = .refuse ∧ storedSinceLaunch pa s = true) := by
    rintro ⟨-, hit⟩
    obtain ⟨a, ha, hpa⟩ := (storedSinceLaunch_iff pa s).1 hit
    exact stored a ha hpa
  rw [fetchBytes, if_neg fresh, unwritten]

section Fetching

variable {inp : Inputs} {s : State} (hr : inp.reset = false) (hl : s.sr.lee = false) (hp : s.pc.toNat % 4 = 0)
include hr hl hp

/-- Without reset, in big-endian order and at an aligned `pc`, a step refuses where its fetch does (R223). -/
theorem stepWith_of_fetch_refuses {r : Refusal} (h : fetch inp.fetchBusError s = .refuses r) :
    stepWith inp s = .refused r := by
  simp [stepWith, hr, hl, (aligned4_iff _).2 hp, h]

/-- Likewise it faults where its fetch does. -/
theorem stepWith_of_fetch_faults {f : Fault} (h : fetch inp.fetchBusError s = .faults f) :
    stepWith inp s = .fault f := by
  simp [stepWith, hr, hl, (aligned4_iff _).2 hp, h]

end Fetching

/-- Settles O38: the first two before the fetch, the last two as what the untranslated fetch ends in. -/
theorem fetchStops : Obligations.FetchStops := by
  intro s hr
  refine ⟨fun hl policy => ?_, fun hl hp => ?_, fun hl hp hi hb => ?_⟩
  · simp [step, stepWith, hr, hl, policy]
  · simp [step, stepWith, hr, hl, hp, aligned4]
  · have fetched : fetch (nextInputs s).fetchBusError (beginStep s) = fetchBytes s.pc (beginStep s) := by
      rw [hb]
      exact fetch_untranslated (s := beginStep s) hi
    refine ⟨fun policy stored => ?_, fun stored unwritten => ?_⟩
    · exact stepWith_of_fetch_refuses (s := beginStep s) hr hl hp
        (fetched.trans (fetchBytes_stored (s := beginStep s) policy stored))
    · exact stepWith_of_fetch_faults (s := beginStep s) hr hl hp
        (fetched.trans (fetchBytes_unwritten (s := beginStep s) stored unwritten))

end Sys2Proof.Machine
end

section
/-! PROOFS. Range for a register that is not implemented (R21, R214), with what exception entry leaves (R224 to R232). -/

namespace Sys2Proof.Machine

/-! ### Exception entry -/

theorem switching_iff (s : State) : switching s = true ↔ 1 < s.cfg.nctx ∧ s.sr.ce = true := by
  simp [switching, hasContexts_iff]

theorem inDelaySlot_eq (s : State) : inDelaySlot s = !decide (s.ds = .none) := by
  unfold inDelaySlot
  cases s.ds <;> simp

theorem epcrValue_current {e : Exc} (h : savesNext e = false) (s : State) : epcrValue e s = currentEpcr s := by
  unfold epcrValue currentEpcr
  rw [inDelaySlot_eq, h]
  cases s.ds <;> simp

theorem entryCid_of_room {s : State} (room : cidOverflows s = false) :
    entryCid s = if 1 < s.cfg.nctx ∧ s.sr.ce = true then s.sr.cid + 1 else s.sr.cid := by
  simp [entryCid, room, switching_iff]

/-- What entry leaves in CCRS (R241, R244): `cur` is SR[CID] wherever there are contexts to switch. -/
theorem entered_ccrs_eq (e : Exc) (ea : Word) (s : State) :
    (entered e ea s).ccrs = if 1 < s.cfg.nctx ∧ s.sr.ce = true then s.sr.cid.setWidth 16 else s.ccrs := by
  simp only [entered_ccrs, switching_iff]
  split
  · rename_i on
    obtain ⟨many, -⟩ := on
    rw [cur_of_contexts ((hasContexts_iff s.cfg).2 many)]
    exact BitVec.ofNat_toNat 16 s.sr.cid
  · rfl

/-- Entry with room for the new CID is the whole of `Enter` (R224 to R232, R241, R244). -/
theorem entersAs_entered (e : Exc) (ea : Word) {s : State} (room : cidOverflows s = false) :
    EntersAs (vectorOffset e) (epcrValue e s) (if writesEear s.cfg e then ea else currentEear s) s (entered e ea s) where
  pc := rfl
  ds := rfl
  epcr := by rw [context_entered_same]; rfl
  esr := by rw [context_entered_same]; rfl
  eear := by rw [context_entered_same]; rfl
  gpr := by rw [context_entered_same]; rfl
  otherContexts := fun _ other => context_entered_other other e ea
  newSr := by rw [entered_sr, inDelaySlot_eq]; rfl
  ove := fun h => (Bool.and_eq_true_iff.1 h).1
  cid := entryCid_of_room room
  ccrs := entered_ccrs_eq e ea s
  memory := fun _ => rfl
  rest := rfl

/-! ### Who raises Range -/

theorem not_regsImplemented {cfg : Config} {regs : List RegNum} (h : ∃ r ∈ regs, cfg.ngpr ≤ r.val) :
    ¬ regsImplemented cfg regs = true := by
  obtain ⟨r, hr, hge⟩ := h
  exact fun all => absurd ((regsImplemented_iff cfg regs).1 all r hr) (Nat.not_lt.2 hge)

theorem userStops_of_sm {s : State} (h : s.sr.sm = true) : userStops s = false := by simp [userStops, h]

theorem userStops_of_policy {s : State} (h : s.cfg.userPriv = .ignore ∨ s.cfg.userPriv = .sumra) :
    userStops s = false := by
  rcases h with h | h <;> simp [userStops, h]

theorem effectLJr_unimplemented {b : RegNum} {s : State} (hds : s.ds = .none) (hb : s.cfg.ngpr ≤ b.val) :
    effectLJr b s = .raises .range 0 s := by
  rw [effectLJr, inDelaySlot_none hds, if_neg Bool.false_ne_true, if_neg (not_regsImplemented ⟨b, by simp, hb⟩)]

theorem effectLMfspr_unimplemented {d a : RegNum} {s : State} (goes : userStops s = false)
    (h : s.cfg.ngpr ≤ d.val ∨ s.cfg.ngpr ≤ a.val) (k : Half) : effectLMfspr d a k s = .raises .range 0 s := by
  rw [effectLMfspr, goes, if_neg Bool.false_ne_true, if_neg (not_regsImplemented (by simpa using h))]

theorem effectLMtspr_unimplemented {a b : RegNum} {s : State} (goes : userStops s = false)
    (h : s.cfg.ngpr ≤ a.val ∨ s.cfg.ngpr ≤ b.val) (k : Half) : effectLMtspr a b k s = .raises .range 0 s := by
  rw [effectLMtspr, goes, if_neg Bool.false_ne_true, if_neg (not_regsImplemented (by simpa using h))]

/-- Every class looks at its register fields first; the jump class after the refusal in a delay slot (R145). -/
theorem effectPresented_unimplemented {p : Presented} {s : State} (h : ∃ r ∈ p.regFields, s.cfg.ngpr ≤ r.val)
    (slot : p.insnClass = .jump → s.ds = .none) (be : Bool) : effectPresented be p s = .raises .range 0 s := by
  have missing := not_regsImplemented h
  cases p with
  | jump regs taken target tr ws =>
    have hds : inDelaySlot s = false := inDelaySlot_none (slot rfl)
    rw [effectPresented, effectJump, hds, if_neg Bool.false_ne_true]
    exact if_neg missing
  | load | store | floatingPoint | arith | plain => exact if_neg missing

/-- Settles O25: each of them raises Range from the state before it, and entry does the rest. -/
theorem unimplementedRegisterRaisesRange : Obligations.UnimplementedRegisterRaisesRange := by
  intro x y k s room
  have enters : EntersAs 0xB00 (currentEpcr s) (currentEear s) s (entered .range 0 s) := by
    rw [← epcrValue_current (e := .range) rfl s]
    exact entersAs_entered .range 0 room
  have raised : commit (.raises .range 0 s) = .next (entered .range 0 s) := enterException_of_room room
  refine ⟨entered .range 0 s, enters, fun hds hx => ?_, fun goes hxy => ?_, fun be p hp slot => ?_⟩
  · rw [exec, execLJr, effectLJr_unimplemented hds hx, raised]
  · have goes : userStops s = false := goes.elim userStops_of_sm userStops_of_policy
    rw [exec, exec, execLMfspr, execLMtspr, effectLMfspr_unimplemented goes hxy, effectLMtspr_unimplemented goes hxy]
    exact ⟨raised, raised⟩
  · rw [effectPresented_unimplemented hp slot, raised]

end Sys2Proof.Machine
end

section
/-! PROOFS. Writes of register 0 (R22, log 3): what l.mfspr and the abstract classes come to where it is hard-wired or under the
cautious policy. -/

namespace Sys2Proof.Machine

/-! ### Register writes by their policies -/

/-- R144 does not stop a write of register `d` of the current context. -/
theorem writesPendingReg_allowed {d : RegNum} {s : State} (slot : s.cfg.slotWrite = .refuse → pendingReg s ≠ some d) :
    (writesPendingReg (cur s) d s && s.cfg.slotWrite == .refuse) = false := by
  simp only [writesPendingReg, Bool.and_eq_false_imp, decide_true, Bool.and_true, decide_eq_true_eq, beq_eq_false_iff_ne]
  exact fun pending policy => slot policy pending

theorem setGpr_allowed {w : RegWrite} {s : State} (h : WriteAllowed s w) :
    setGpr w.1 w.2 s = .ok (if w.1 = 0 ∧ s.cfg.r0 = .hardwired then s else storeGpr (cur s) w.1 w.2 s) :=
  setGprAt_allowed (fun ⟨policy, pending, _⟩ => h.slot policy pending) h.r0

/-- The cautious reading of R22. -/
theorem setGpr_zero_refused {v : Word} {s : State} (slot : s.cfg.slotWrite = .refuse → pendingReg s ≠ some 0)
    (policy : s.cfg.r0 = .refuse) (hv : v ≠ 0) : setGpr 0 v s = .error .nonZeroWriteToR0 := by
  rw [setGpr, setGprAt, writesPendingReg_allowed slot]
  simpa [policy] using hv

/-- A list of result writes is refused at the first write that is, whatever registers the allowed ones before it have
written. -/
theorem setGprs_error {first : List RegWrite} {s : State} {r : RegNum} {v : Word} {e : Refusal}
    (allowed : ∀ w ∈ first, WriteAllowed s w) (refused : ∀ c, setGpr r v { s with ctx := c } = .error e)
    (rest : List RegWrite) : setGprs (first ++ (r, v) :: rest) s = .error e := by
  induction first generalizing s with
  | nil =>
    have here : setGpr r v s = .error e := refused s.ctx
    simp [setGprs, here]
  | cons w first ih =>
    have made := setGpr_allowed (allowed w (by simp))
    have frame := (setGprAt_frame made).1
    rw [List.cons_append, setGprs, made]
    refine ih (fun x hx => ?_) ?_
    · obtain ⟨slot, r0⟩ := allowed x (by simp [hx])
      rw [frame]
      exact ⟨slot, r0⟩
    · rw [frame]
      exact refused

/-! ### Who refuses -/

/-- A class instruction with result writes is refused where one of them is; a jump of the class outside a delay slot. -/
theorem effectPresented_refuses {p : Presented} {s : State} {regs : List RegNum} {ws : List RegWrite} {flags : BitVec 9}
    {ov cy f : Option Bool} {taken : Bool} {target : Word} {tr : Option RegNum} {e : Refusal}
    (hp : p = .floatingPoint regs ws flags ∨ p = .arith regs ws ov cy f ∨ p = .plain regs ws ∨
      (p = .jump regs taken target tr ws ∧ s.ds = .none))
    (regsIn : ∀ q ∈ p.regFields, q.val < s.cfg.ngpr) (h : setGprs ws s = .error e) (be : Bool) :
    effectPresented be p s = .refuses e := by
  have implemented : regsImplemented s.cfg p.regFields = true := (regsImplemented_iff s.cfg _).2 regsIn
  rcases hp with rfl | rfl | rfl | ⟨rfl, hds⟩
  case inr.inr.inr =>
    rw [effectPresented, effectJump, inDelaySlot_none hds, if_neg Bool.false_ne_true]
    exact (if_pos implemented).trans (by rw [h])
  all_goals exact (if_pos implemented).trans (by simp [h, advancing])

/-! ### l.mfspr in supervisor mode -/

theorem sprHolds_sprRead (p : Spr) (s : State) : SprHolds s p (sprRead p s) := by
  cases p with
  | cpucfgr =>
    show (cpucfgrWord s).getLsbD 10 = s.cfg.nd
    unfold cpucfgrWord
    cases s.cfg.nd <;> simp
  | sr | fpcsr | epcr c | eear c | esr c | gpr c r | cxr => rfl

/-- Past its checks l.mfspr is the write of the register that the number names into rD (R150, R154). -/
theorem exec_lMfspr_reads {d a : RegNum} {k : Half} {s : State} {p : Spr} (sm : s.sr.sm = true)
    (hd : d.val < s.cfg.ngpr) (ha : a.val < s.cfg.ngpr) (slot : s.cfg.slotWrite = .refuse → pendingReg s ≠ some d)
    (hp : sprOf s.cfg (numberOf s a k) = some p) :
    exec (.lMfspr d a k) s = commit (advancing (setGpr d (sprRead p s) s)) := by
  have implemented : regsImplemented s.cfg [d, a] = true := (regsImplemented_iff s.cfg _).2 (by simp [hd, ha])
  have value : mfsprValue (sprNumber (gpr s a) k) s = .ok (sprRead p s) := by
    change sprOf s.cfg (sprNumber (gpr s a) k) = some p at hp
    simp [mfsprValue, sm, sprReadNumber, hp]
  simp [exec, execLMfspr, effectLMfspr, userStops_of_sm sm, implemented, mfsprWrite, writesPendingReg_allowed slot,
    value]

/-! ### What is left when the write is made -/

theorem advanced_advance {s t : State} (pc : t.pc = s.pc) (ds : t.ds = s.ds) : Advanced s (advance t) where
  plain h := by rw [advance_pc_of_none (ds.trans h), pc]
  slot a r h := advance_pc_of_target (ds.trans h)
  ds := advance_ds t

theorem advance_frame (s : State) : advance s = { s with pc := (advance s).pc, ds := (advance s).ds } := by
  rw [advance_ds]
  exact advance_eq s

theorem onlyGprWritten_store (c : CtxNum) (r : RegNum) (v : Word) (s : State) :
    OnlyGprWritten c r v s (advance (storeGpr c r v s)) where
  value := by rw [context_advance, storeGpr_read, if_pos rfl]
  otherRegs q hq := by rw [context_advance, storeGpr_read, if_neg hq]
  sameContext := by
    rw [context_advance]
    simp [storeGpr]
  otherContexts d hd := (context_advance _ d).trans (context_updateContext_other hd _ s)
  memory _ := by simp
  rest := by
    rw [advance_ctx]
    exact advance_frame _

/-- Settles O16: l.mfspr by the policy for register 0, the classes by their first write that is refused. -/
theorem mfsprIntoR0 : Obligations.MfsprIntoR0 := by
  intro s hn slot
  refine ⟨fun a k p sm ha hp => ?_, ?_⟩
  · rw [exec_lMfspr_reads sm hn ha slot hp]
    refine ⟨sprRead p s, sprHolds_sprRead p s, fun policy => ?_, fun policy hv => ?_, fun policy hv => ?_⟩
    · have made : setGpr 0 (sprRead p s) s = .ok s := by
        simpa [policy] using setGpr_allowed (w := (0, sprRead p s)) ⟨slot, by simp [policy]⟩
      rw [made]
      exact ⟨advance s, rfl, advanced_advance rfl rfl, advance_frame s⟩
    · have made : setGpr 0 (sprRead p s) s = .ok (storeGpr (cur s) 0 0 s) := by
        simpa [policy, hv] using setGpr_allowed (w := (0, sprRead p s)) ⟨slot, fun _ _ => hv⟩
      rw [made]
      exact ⟨_, rfl, advanced_advance rfl rfl, onlyGprWritten_store (cur s) 0 0 s⟩
    · rw [setGpr_zero_refused slot policy hv]
      rfl
  · intro policy be regs first rest v flags taken target tr ov cy f p ws regsIn allowed hv hclass
    have refused : setGprs ws s = .error .nonZeroWriteToR0 :=
      setGprs_error allowed (fun _ => setGpr_zero_refused slot policy hv) rest
    rw [effectPresented_refuses hclass regsIn refused, commit]

end Sys2Proof.Machine
end

section
/-! PROOFS. Translation and the fetch (R71, R84): accesses that are not translated, and a fetch that ends in an exception. -/

namespace Sys2Proof.Machine

/-! ### Translation -/

theorem translateAddress_off {kind : AccessKind} {s : State} (off : translates kind s = false) (a : Word) :
    translateAddress kind a s = .ok a := by
  simp [translateAddress, off]

/-- Entry disables both MMUs (R230). -/
theorem translates_entered (kind : AccessKind) (e : Exc) (ea : Word) (s : State) :
    translates kind (entered e ea s) = false := by
  cases kind <;> simp [translates]

/-- Settles O55: `translates` is false by the configuration or by SR, and after an entry by the SR that entry leaves. -/
theorem handlerRunsUntranslated : Obligations.HandlerRunsUntranslated := by
  intro e ea a kind s t
  refine ⟨fun fetchOff dataOff => translateAddress_off ?_ a, fun h => ?_⟩
  · cases kind with
    | fetch => exact Bool.and_eq_false_iff.2 (fetchOff rfl)
    | load | store => exact Bool.and_eq_false_iff.2 (dataOff (by decide))
  · obtain ⟨e', ea', rfl⟩ := enterException_entered h
    exact translateAddress_off (translates_entered kind e' ea' s) a

/-! ### A fetch that raises -/

section FetchRaises

variable {s : State} {busError : Bool}

theorem fetch_tlbMiss (on : translates .fetch s = true) (missing : mmuLookup .fetch s.pc s.sr.sm s.mmu = none) :
    fetch busError s = .raises .itlbMiss := by
  simp [fetch, translateAddress, on, missing]

theorem fetch_pageFault (on : translates .fetch s = true)
    (fault : mmuLookup .fetch s.pc s.sr.sm s.mmu = some .pageFault) : fetch busError s = .raises .insnPageFault := by
  simp [fetch, translateAddress, on, fault]

theorem fetch_busError
    (reaches : translates .fetch s = false ∨ ∃ pa, mmuLookup .fetch s.pc s.sr.sm s.mmu = some (.ok pa)) :
    fetch true s = .raises .busError := by
  rcases reaches with off | ⟨pa, hit⟩
  · simp [fetch, translateAddress_off off]
  · cases on : translates .fetch s with
    | false => simp [fetch, translateAddress_off on]
    | true => simp [fetch, translateAddress, on, hit]

end FetchRaises

/-- A step that gets as far as its fetch enters the exception the fetch raises, with EEAR the fetch address (R84, R223). -/
theorem step_of_fetch_raises {s : State} {e : Exc} (reset : (nextInputs s).reset = false)
    (order : s.sr.lee = false ∨ s.cfg.littleEndian = .execute) (aligned : s.pc.toNat % 4 = 0)
    (h : fetch (nextInputs s).fetchBusError (beginStep s) = .raises e) :
    step s = enterException e s.pc (beginStep s) := by
  have runs : ¬ (s.sr.lee = true ∧ s.cfg.littleEndian = .refuse) := by
    rintro ⟨lee, refuse⟩
    simp [lee, refuse] at order
  simp [step, stepWith, reset, runs, (aligned4_iff _).2 aligned, h]

/-- An exception of the `current` class that writes EEAR, entered with room for the new CID (R226, R229). -/
theorem enterException_currentWithEear {e : Exc} {s : State} (room : cidOverflows s = false) (current : savesNext e = false)
    (eear : writesEear s.cfg e = true) (ea : Word) :
    ∃ t, enterException e ea s = .next t ∧ EntersAs (vectorOffset e) (currentEpcr s) ea s t := by
  refine ⟨entered e ea s, enterException_of_room room, ?_⟩
  simpa [epcrValue_current current, eear] using entersAs_entered e ea room

/-- Settles O33: the three ways `fetch` raises, each entered from `beginStep s`. -/
theorem fetchFaultsInOrder : Obligations.FetchFaultsInOrder := by
  intro s reset order aligned room
  have enters {e : Exc} (current : savesNext e = false) (eear : writesEear s.cfg e = true)
      (h : fetch (nextInputs s).fetchBusError (beginStep s) = .raises e) :
      ∃ t, step s = .next t ∧ EntersAs (vectorOffset e) (currentEpcr s) s.pc (beginStep s) t := by
    rw [step_of_fetch_raises reset order aligned h]
    exact enterException_currentWithEear (s := beginStep s) room current eear s.pc
  refine ⟨fun on missing => ?_, fun on fault => ?_, fun reaches bus => ?_⟩
  · exact enters (e := .itlbMiss) rfl rfl (fetch_tlbMiss (s := beginStep s) on missing)
  · exact enters (e := .insnPageFault) rfl rfl (fetch_pageFault (s := beginStep s) on fault)
  · rw [bus] at enters
    exact enters (e := .busError) rfl rfl (fetch_busError (s := beginStep s) reaches)

end Sys2Proof.Machine
end

section
/-! PROOFS. What the six instructions leave (R70, R86): each writes registers, `pc` and the delay slot and nothing else. -/

namespace Sys2Proof.Machine

/-- `t` differs from `s` in registers, `pc` and the delay slot at most. -/
def OnlyRegisters (s t : State) : Prop :=
  t = { s with pc := t.pc, ds := t.ds, ctx := t.ctx, sr := t.sr, ccrs := t.ccrs, fpcsr := t.fpcsr }

theorem OnlyRegisters.refl (s : State) : OnlyRegisters s s := rfl

theorem OnlyRegisters.trans {s t u : State} (h : OnlyRegisters s t) (k : OnlyRegisters t u) : OnlyRegisters s u := by
  unfold OnlyRegisters at h k ⊢
  rw [k, h]

theorem onlyRegisters_advance (s : State) : OnlyRegisters s (advance s) := by
  unfold OnlyRegisters
  rw [advance_eq]

theorem onlyRegisters_entered (e : Exc) (ea : Word) (s : State) : OnlyRegisters s (entered e ea s) := rfl

theorem onlyRegisters_setGpr {r : RegNum} {v : Word} {s t : State} (h : setGpr r v s = .ok t) : OnlyRegisters s t := by
  unfold OnlyRegisters
  rw [(setGprAt_frame h).1]

theorem onlyRegisters_sprWriteNumber {n : Half} {v : Word} {s t : State} (h : sprWriteNumber n v s = .ok t) :
    OnlyRegisters s t := by
  rcases sprWriteNumber_cases h with rfl | ⟨sr, -, rfl⟩ | rfl | ⟨c, f, -, rfl⟩ | ⟨-, -, rfl⟩
  · exact .refl t
  all_goals rfl

theorem onlyRegisters_exec {i : Instr} {s t : State} (h : exec i s = .next t) : OnlyRegisters s t := by
  rcases exec_next h with hc | ⟨e, ea, rfl⟩
  · rcases effect_completes hc with rfl | ⟨-, -, -, -, -, a, -, rfl⟩ | ⟨a, r, -, rfl⟩ | ⟨d, v, u, hu, rfl⟩ |
      ⟨-, n, v, u, hu, rfl⟩
    · exact onlyRegisters_advance s
    · rfl
    · unfold OnlyRegisters
      split <;> rfl
    · exact (onlyRegisters_setGpr hu).trans (onlyRegisters_advance u)
    · exact (onlyRegisters_sprWriteNumber hu).trans (onlyRegisters_advance u)
  · exact onlyRegisters_entered e ea s

/-- Settles O52: nothing the statement lists is among the registers, `pc` or the delay slot. -/
theorem sixInstructionsLeaveMemory : Obligations.SixInstructionsLeaveMemory := by
  intro i s t h
  have frame := onlyRegisters_exec h
  rw [frame]
  exact ⟨fun _ => rfl, rfl, rfl, rfl, rfl, rfl⟩

end Sys2Proof.Machine
end

section
/-! PROOFS. Jumps to a target that is no multiple of 4 (R74; log 5, 24): l.jr and the jump class, with the result writes that a
taken jump of the class makes first. -/

namespace Sys2Proof.Machine

/-! ### Targets -/

/-- The low two bits dropped (R74). -/
theorem dropLow_toNat (t : Word) : ((t >>> 2) <<< 2).toNat = t.toNat - t.toNat % 4 := by
  simp only [BitVec.toNat_shiftLeft, BitVec.toNat_ushiftRight, Nat.shiftRight_eq_div_pow, Nat.shiftLeft_eq]
  have := t.isLt
  omega

section Misaligned

variable {cfg : Config} {t : Word} (odd : t.toNat % 4 ≠ 0)
include odd

theorem checkTarget_refuse (policy : cfg.misaligned = .refuse) : checkTarget cfg t = .refuses := by
  simp [checkTarget, aligned4, odd, policy]

theorem checkTarget_ignoreLow (policy : cfg.misaligned = .ignoreLow) : checkTarget cfg t = .goes ((t >>> 2) <<< 2) := by
  simp [checkTarget, aligned4, odd, policy]

theorem checkTarget_alignment (policy : cfg.misaligned = .alignment) : checkTarget cfg t = .raises := by
  simp [checkTarget, aligned4, odd, policy]

end Misaligned

/-! ### A jump by what its target comes to -/

section JumpTo

variable {t : Word} {s : State} (r : Option RegNum)

theorem jumpTo_of_refuses (h : checkTarget s.cfg t = .refuses) : jumpTo t r s = .refuses .misalignedTarget := by
  simp [jumpTo, h]

theorem jumpTo_of_raises (h : checkTarget s.cfg t = .raises) : jumpTo t r s = .raises .alignment t s := by
  simp [jumpTo, h]

theorem jumpTo_of_goes {u : Word} (h : checkTarget s.cfg t = .goes u) :
    jumpTo t r s =
      .completes (if s.cfg.nd then { s with pc := u } else { s with pc := s.pc + 4, ds := .target u r }) := by
  simp only [jumpTo, h]
  split <;> rfl

end JumpTo

/-- Past its checks l.jr is the jump to what its register holds (R140). -/
theorem exec_lJr_jumps {b : RegNum} {s : State} (hds : s.ds = .none) (hb : b.val < s.cfg.ngpr) :
    exec (.lJr b) s = commit (jumpTo (gpr s b) (some b) s) := by
  have implemented : regsImplemented s.cfg [b] = true := (regsImplemented_iff s.cfg _).2 (by simpa using hb)
  simp [exec, execLJr, effectLJr, inDelaySlot_none hds, implemented]

/-- Alignment at a jump outside a delay slot, with EEAR the target (R74, R226, R229). -/
theorem enterException_alignment {s : State} (hds : s.ds = .none) (room : cidOverflows s = false) (target : Word) :
    ∃ t, enterException .alignment target s = .next t ∧ EntersAs 0x600 s.pc target s t := by
  have enters := enterException_currentWithEear (e := .alignment) room rfl rfl target
  rwa [currentEpcr, if_pos hds] at enters

/-- Settles O12: l.jr is `jumpTo` past its checks, and `checkTarget` says what a misaligned target comes to. -/
theorem misalignedJumpPolicies : Obligations.MisalignedJumpPolicies := by
  intro b s hds hb odd
  rw [exec_lJr_jumps hds hb]
  refine ⟨fun policy => ?_, fun policy room => ?_⟩
  · rw [jumpTo_of_goes _ (checkTarget_ignoreLow odd policy)]
    exact ⟨_, _, rfl, dropLow_toNat _, rfl⟩
  · rw [jumpTo_of_raises _ (checkTarget_alignment odd policy)]
    exact enterException_alignment hds room (gpr s b)

/-! ### Result writes that are allowed -/

theorem resultOf_of_not_written {ws : List RegWrite} {r : RegNum} (h : r ∉ ws.map Prod.fst) (s : State) :
    resultOf s ws r = (context s (cur s)).gpr[r] := by
  have unwritten : ws.reverse.lookup r = none := by
    rw [List.lookup_eq_none_iff]
    rintro ⟨q, v⟩ hq
    have : r ≠ q := fun e => h (List.mem_map.2 ⟨(q, v), by simpa using hq, e.symm⟩)
    simpa using this
  simp [resultOf, unwritten]

/-- A later write of the same register counts, and the first of a list is made before the others. -/
theorem resultOf_cons (w : RegWrite) (ws : List RegWrite) {s t : State} (frame : t = { s with ctx := t.ctx })
    (first : ∀ r, (context t (cur t)).gpr[r] = resultOf s [w] r) (r : RegNum) :
    resultOf t ws r = resultOf s (w :: ws) r := by
  have policy : t.cfg.r0 = s.cfg.r0 := by rw [frame]
  have one := first r
  simp only [resultOf, policy, List.reverse_cons, List.reverse_nil, List.nil_append, List.lookup_append] at one ⊢
  split
  · rename_i hard
    rwa [if_pos hard] at one
  · rename_i soft
    rw [one, if_neg soft]
    cases ws.reverse.lookup r <;> simp

/-- One allowed result write: a hard-wired register 0 keeps what it has, another register holds the value. -/
theorem setGpr_resultOf {w : RegWrite} {s : State} (allowed : WriteAllowed s w) :
    ∃ t, setGpr w.1 w.2 s = .ok t ∧ ∀ r, (context t (cur s)).gpr[r] = resultOf s [w] r := by
  refine ⟨_, setGpr_allowed allowed, fun r => ?_⟩
  obtain ⟨d, v⟩ := w
  by_cases hard : d = 0 ∧ s.cfg.r0 = .hardwired
  · rw [if_pos hard]
    by_cases hr : r = 0
    · simp [resultOf, hr, hard.2]
    · exact (resultOf_of_not_written (by simpa [hard.1] using hr) s).symm
  · rw [if_neg hard, storeGpr_read]
    by_cases hr : r = d
    · subst hr
      simp [resultOf, hard]
    · rw [if_neg hr]
      exact (resultOf_of_not_written (by simpa using hr) s).symm

theorem WriteAllowed.of_ctx {w : RegWrite} {s t : State} (h : WriteAllowed s w) (frame : t = { s with ctx := t.ctx }) :
    WriteAllowed t w := by
  obtain ⟨slot, r0⟩ := h
  rw [frame]
  exact ⟨slot, r0⟩

theorem setGprs_resultOf {ws : List RegWrite} {s : State} (allowed : ∀ w ∈ ws, WriteAllowed s w) :
    ∃ t, setGprs ws s = .ok t ∧ ∀ r, (context t (cur s)).gpr[r] = resultOf s ws r := by
  induction ws generalizing s with
  | nil => exact ⟨s, rfl, fun r => (resultOf_of_not_written (by simp) s).symm⟩
  | cons w ws ih =>
    obtain ⟨u, made, first⟩ := setGpr_resultOf (allowed w (by simp))
    have frame := (setGprAt_frame made).1
    have hcur : cur u = cur s := by rw [frame]; rfl
    obtain ⟨t, others, values⟩ := ih fun x hx => (allowed x (by simp [hx])).of_ctx frame
    rw [hcur] at values
    refine ⟨t, by simp only [setGprs, made, others], fun r => (values r).trans ?_⟩
    exact resultOf_cons w ws frame (hcur ▸ first) r

/-- Result writes that are all allowed are made, and nothing else is written. -/
theorem setGprs_allowed {ws : List RegWrite} {s : State} (allowed : ∀ w ∈ ws, WriteAllowed s w) :
    ∃ t, setGprs ws s = .ok t ∧ t = { s with ctx := t.ctx } ∧ ResultsWritten ws s t := by
  obtain ⟨t, made, values⟩ := setGprs_resultOf allowed
  obtain ⟨frame, otherContexts, sameContext⟩ := setGprs_frame made
  refine ⟨t, made, frame, values, fun r hr => ?_, sameContext, otherContexts, fun a => ?_, ?_⟩
  · rw [values, resultOf_of_not_written hr]
  · rw [frame]
  · rw [frame]

/-- `pc` and the delay slot are outside what `ResultsWritten` speaks of. -/
theorem ResultsWritten.goesTo {ws : List RegWrite} {s t : State} (h : ResultsWritten ws s t) (pc : Word)
    (ds : DelaySlot) : ResultsWritten ws s { t with pc := pc, ds := ds } where
  values := h.values
  frame :=
    { otherRegs := h.frame.otherRegs
      sameContext := h.frame.sameContext
      otherContexts := h.frame.otherContexts
      memory := h.frame.memory
      rest := congrArg (fun u : State => { u with pc := pc, ds := ds }) h.frame.rest }

/-! ### The jump class -/

/-- The effect with its exception, if it raises one, entered from `s`. -/
def Effect.raisedFrom (s : State) : Effect → Effect
  | .raises e ea _ => .raises e ea s
  | other => other

/-- A taken jump of the class makes its result writes and then jumps; what it raises it raises from the state before it, with
none of them kept (R173). -/
theorem effectPresented_jump_taken {regs : List RegNum} {target : Word} {tr : Option RegNum} {ws : List RegWrite}
    {s t : State} (hds : s.ds = .none) (regsIn : ∀ r ∈ tr.toList ++ regs ++ ws.map Prod.fst, r.val < s.cfg.ngpr)
    (made : setGprs ws s = .ok t) (be : Bool) :
    effectPresented be (.jump regs true target tr ws) s = (jumpTo target tr t).raisedFrom s := by
  have implemented := (regsImplemented_iff s.cfg _).2 regsIn
  simp only [effectPresented, effectJump, inDelaySlot_none hds, implemented, made]
  cases jumpTo target tr t <;> rfl

/-- Settles O58: the result writes are all made, and `checkTarget` says what the jump from there comes to. -/
theorem misalignedClassJumpPolicies : Obligations.MisalignedClassJumpPolicies := by
  intro regs target tr ws s hds regsIn allowed odd
  obtain ⟨t, made, frame, written⟩ := setGprs_allowed allowed
  have hcfg : t.cfg = s.cfg := by rw [frame]
  have hpc : t.pc = s.pc := by rw [frame]
  have htds : t.ds = .none := by rw [frame]; exact hds
  rw [effectPresented_jump_taken hds regsIn made]
  refine ⟨fun policy => ?_, fun policy => ?_, fun policy room => ?_⟩
  · rw [jumpTo_of_refuses tr (checkTarget_refuse odd (hcfg ▸ policy))]
    rfl
  · rw [jumpTo_of_goes tr (checkTarget_ignoreLow odd (hcfg ▸ policy))]
    refine ⟨_, _, dropLow_toNat target, rfl, ?_, fun slots => ?_, fun noSlots => ?_⟩
    · split
      · exact written.goesTo _ t.ds
      · exact written.goesTo _ _
    · simp [hcfg, hpc, slots]
    · simp [hcfg, htds, noSlots]
  · rw [jumpTo_of_raises tr (checkTarget_alignment odd (hcfg ▸ policy))]
    obtain ⟨u, next, enters⟩ := enterException_alignment hds room target
    exact ⟨u, enters, next⟩

end Sys2Proof.Machine
end

section
/-! PROOFS. The encoding (R100 to R107): an instruction is one row of the table, so a word decodes to it exactly when the word
has the row's fixed bits and the instruction's operands in the row's fields. -/

namespace Sys2Proof.Machine

/-! ### Fields of a word -/

/-- The field `x` at bit `lo` of a word whose other bits are 0. -/
def placed {n : Nat} (lo : Nat) (x : BitVec n) : Word := x.setWidth 32 <<< lo

/-- The bits of the field of `n` bits from bit `lo` up. -/
def fieldMask (lo n : Nat) : Word := placed lo (BitVec.allOnes n)

theorem placed_zero {n : Nat} (x : BitVec n) : placed 0 x = x.setWidth 32 := BitVec.shiftLeft_zero _

theorem getLsbD_placed {n : Nat} (lo : Nat) (x : BitVec n) (j : Nat) :
    (placed lo x).getLsbD j = (decide (j < 32) && decide (lo ≤ j) && x.getLsbD (j - lo)) := by
  rw [placed, BitVec.getLsbD_shiftLeft, BitVec.getLsbD_setWidth]
  by_cases h : j < lo
  · simp [h]
  · have : j < 32 → j - lo < 32 := by omega
    by_cases h32 : j < 32 <;> simp [h32, this, Nat.not_lt.1 h, h]

theorem getLsbD_fieldMask (lo n j : Nat) :
    (fieldMask lo n).getLsbD j = (decide (j < 32) && decide (lo ≤ j) && decide (j - lo < n)) := by
  rw [fieldMask, getLsbD_placed, BitVec.getLsbD_allOnes]

/-- A field read from a word and put back is the word's bits there. -/
theorem placed_extractLsb' (w : Word) (lo n : Nat) : placed lo (w.extractLsb' lo n) = w &&& fieldMask lo n := by
  ext j hj
  simp only [← BitVec.getLsbD_eq_getElem, BitVec.getLsbD_and, getLsbD_placed, getLsbD_fieldMask,
    BitVec.getLsbD_extractLsb']
  by_cases h : lo ≤ j
  · simp [hj, h, Bool.and_comm]
  · simp [h]

theorem placed_and_fieldMask {n : Nat} (lo : Nat) (x : BitVec n) : placed lo x &&& fieldMask lo n = placed lo x := by
  ext j hj
  simp only [← BitVec.getLsbD_eq_getElem, BitVec.getLsbD_and, getLsbD_placed, getLsbD_fieldMask]
  by_cases h : j - lo < n
  · simp +contextual [h]
  · simp [BitVec.getLsbD_of_ge x _ (Nat.not_lt.1 h)]

/-- A field has no bit in a mask that leaves its place free. -/
theorem placed_and_of_free {n lo : Nat} {m : Word} (free : fieldMask lo n &&& m = 0#32) (x : BitVec n) :
    placed lo x &&& m = 0#32 := by
  rw [← placed_and_fieldMask, BitVec.and_assoc, free, BitVec.and_zero]

theorem extractLsb'_placed_same {n lo : Nat} (fits : lo + n ≤ 32) (x : BitVec n) : (placed lo x).extractLsb' lo n = x := by
  ext j hj
  have : lo + j < 32 := by omega
  rw [BitVec.getElem_extractLsb', getLsbD_placed]
  simp [this, ← BitVec.getLsbD_eq_getElem]

theorem extractLsb'_placed_other {n lo lo' n' : Nat} (apart : lo' + n' ≤ lo ∨ lo + n ≤ lo') (x : BitVec n) :
    (placed lo x).extractLsb' lo' n' = 0#n' := by
  ext j hj
  rw [BitVec.getElem_extractLsb', getLsbD_placed]
  by_cases h : lo ≤ lo' + j
  · simp [BitVec.getLsbD_of_ge x (lo' + j - lo) (by omega)]
  · simp [h]

/-! ### Encoding by fields -/

@[simp] theorem encode_lSys (k : Half) : encode (.lSys k) = 0x20000000#32 ||| placed 0 k := by rw [encode, placed_zero]

@[simp] theorem encode_lTrap (k : Half) : encode (.lTrap k) = 0x21000000#32 ||| placed 0 k := by rw [encode, placed_zero]

@[simp] theorem encode_lRfe : encode .lRfe = 0x24000000#32 := rfl

@[simp] theorem encode_lJr (b : RegNum) : encode (.lJr b) = 0x44000000#32 ||| placed 11 (BitVec.ofFin (w := 5) b) := rfl

@[simp] theorem encode_lMfspr (d a : RegNum) (k : Half) :
    encode (.lMfspr d a k) =
      0xB4000000#32 ||| placed 21 (BitVec.ofFin (w := 5) d) ||| placed 16 (BitVec.ofFin (w := 5) a) ||| placed 0 k := by
  rw [encode, placed_zero]
  rfl

@[simp] theorem encode_lMtspr (a b : RegNum) (k : Half) :
    encode (.lMtspr a b k) =
      0xC0000000#32 ||| placed 21 (k.extractLsb' 11 5) ||| placed 16 (BitVec.ofFin (w := 5) a) |||
        placed 11 (BitVec.ofFin (w := 5) b) ||| placed 0 (k.extractLsb' 0 11) := by
  rw [encode, placed_zero]
  rfl

/-! ### Rows -/

/-- The instruction of the row of `i` whose operands are what the row's fields of `w` hold. -/
def instrOfRow (w : Word) : Instr → Instr
  | .lSys _ => .lSys (immLow w)
  | .lTrap _ => .lTrap (immLow w)
  | .lRfe => .lRfe
  | .lJr _ => .lJr (regField w 11)
  | .lMfspr _ _ _ => .lMfspr (regField w 21) (regField w 16) (immLow w)
  | .lMtspr _ _ _ => .lMtspr (regField w 16) (regField w 11) (immSplit w)

/-- `w` has the fixed bits of the row of `i`. -/
def MatchesRow (w : Word) (i : Instr) : Prop := w &&& encodingMask i = encodingMatch i

/-- The operands stand where the row's mask is 0 (R104). -/
theorem matchesRow_encode (i : Instr) : MatchesRow (encode i) i := by
  cases i <;>
    simp (disch := decide) [MatchesRow, encodingMask, encodingMatch, BitVec.and_or_distrib_right, placed_and_of_free]

/-- The two parts in which l.mtspr holds K (R103). -/
theorem split_append (k : Half) : k.extractLsb' 11 5 ++ k.extractLsb' 0 11 = k :=
  BitVec.extractLsb'_append_extractLsb' (w := 5) (len := 11)

/-- Each field of the encoding holds its operand (R102, R103). -/
theorem instrOfRow_encode (i : Instr) : instrOfRow (encode i) i = i := by
  cases i <;>
    simp (disch := decide) [instrOfRow, regField, immLow, immSplit, split_append, BitVec.extractLsb'_or,
      extractLsb'_placed_same, extractLsb'_placed_other]

theorem ofFin_regField (w : Word) (lo : Nat) : BitVec.ofFin (w := 5) (regField w lo) = w.extractLsb' lo 5 := rfl

/-- A row's fields are the bits that its mask leaves free, so an operand read from `w` keeps exactly those of its bits. -/
theorem encode_instrOfRow (w : Word) (i : Instr) :
    encode (instrOfRow w i) = encodingMatch i ||| (w &&& ~~~encodingMask i) := by
  cases i with
  | lRfe => simp [instrOfRow, encodingMask, encodingMatch]
  | _ =>
    simp only [instrOfRow, encodingMask, encodingMatch, immLow, immSplit, BitVec.extractLsb'_append_eq_left,
      BitVec.extractLsb'_append_eq_right, ofFin_regField, encode_lSys, encode_lTrap, encode_lJr, encode_lMfspr,
      encode_lMtspr, placed_extractLsb', BitVec.or_assoc, ← BitVec.and_or_distrib_left]
    exact congrArg (_ ||| w &&& ·) (by decide)

theorem encode_instrOfRow_of_matchesRow {w : Word} {i : Instr} (h : MatchesRow w i) : encode (instrOfRow w i) = w :=
  calc encode (instrOfRow w i)
      = (w &&& encodingMask i) ||| (w &&& ~~~encodingMask i) := by rw [encode_instrOfRow, h]
    _ = w := by rw [← BitVec.and_or_distrib_left, BitVec.or_not_self, BitVec.and_allOnes]

/-! ### Decoding by rows -/

section Decode

variable {w M m : Word} (h : w &&& M = m)
include h

/-- A word with the fixed bits `m` of one row misses a row that differs from it in a bit fixed by both. -/
theorem misses_of_match {N n : Word} (differ : m &&& N ≠ n &&& M) : w &&& N ≠ n := by
  rintro rfl
  apply differ
  rw [← h, BitVec.and_assoc, BitVec.and_assoc, BitVec.and_comm M N]

theorem ne_of_match {v : Word} (differ : v &&& M ≠ m) : w ≠ v := by
  rintro rfl
  exact differ h

end Decode

theorem decode_lTrap {w : Word} (h : w &&& 0xFFFF0000#32 = 0x21000000#32) : decode w = .ok (.lTrap (immLow w)) := by
  rw [decode, if_neg (misses_of_match h (by decide)), if_pos h]

theorem decode_lJr {w : Word} (h : w &&& 0xFFFF07FF#32 = 0x44000000#32) : decode w = .ok (.lJr (regField w 11)) := by
  rw [decode, if_neg (misses_of_match h (by decide)), if_neg (misses_of_match h (by decide)),
    if_neg (ne_of_match h (by decide)), if_pos h]

theorem decode_lMfspr {w : Word} (h : w &&& 0xFC000000#32 = 0xB4000000#32) :
    decode w = .ok (.lMfspr (regField w 21) (regField w 16) (immLow w)) := by
  rw [decode, if_neg (misses_of_match h (by decide)), if_neg (misses_of_match h (by decide)),
    if_neg (ne_of_match h (by decide)), if_neg (misses_of_match h (by decide)), if_pos h]

theorem decode_lMtspr {w : Word} (h : w &&& 0xFC000000#32 = 0xC0000000#32) :
    decode w = .ok (.lMtspr (regField w 16) (regField w 11) (immSplit w)) := by
  rw [decode, if_neg (misses_of_match h (by decide)), if_neg (misses_of_match h (by decide)),
    if_neg (ne_of_match h (by decide)), if_neg (misses_of_match h (by decide)), if_neg (misses_of_match h (by decide)),
    if_pos h]

theorem decode_of_matchesRow {w : Word} {i : Instr} (h : MatchesRow w i) : decode w = .ok (instrOfRow w i) := by
  cases i with
  | lSys k => exact if_pos h
  | lTrap k => exact decode_lTrap h
  | lRfe =>
    obtain rfl : w = 0x24000000#32 := BitVec.and_allOnes.symm.trans h
    rfl
  | lJr b => exact decode_lJr h
  | lMfspr d a k => exact decode_lMfspr h
  | lMtspr a b k => exact decode_lMtspr h

/-- A word that decodes is accepted by a row, which gives it its operands. -/
theorem matchesRow_of_decode {w : Word} {i : Instr} (h : decode w = .ok i) : MatchesRow w i ∧ instrOfRow w i = i := by
  unfold decode at h
  split_ifs at h with sys trap rfe jr mfspr mtspr <;> cases h
  · exact ⟨sys, rfl⟩
  · exact ⟨trap, rfl⟩
  · exact ⟨BitVec.and_allOnes.trans rfe, rfl⟩
  · exact ⟨jr, rfl⟩
  · exact ⟨mfspr, rfl⟩
  · exact ⟨mtspr, rfl⟩

/-- The bytes of a word in the order of their addresses decode as the word (R72, R100). -/
theorem decodeBytes_fourOfWord (w : Word) : decodeBytes (fourOfWord w) = decode w := by
  have : wordOfFour (w.extractLsb' 24 8) (w.extractLsb' 16 8) (w.extractLsb' 8 8) (w.extractLsb' 0 8) = w := by
    rw [wordOfFour, BitVec.extractLsb'_append_extractLsb'_eq_extractLsb' (by decide),
      BitVec.extractLsb'_append_extractLsb'_eq_extractLsb' (by decide),
      BitVec.extractLsb'_append_extractLsb'_eq_extractLsb' (by decide)]
    exact BitVec.extractLsb'_eq_self
  rw [fourOfWord, decodeBytes, this]

/-- Decoding and encoding are inverse to each other (R104, R108). -/
theorem decode_eq_ok_iff (w : Word) (i : Instr) : decode w = .ok i ↔ encode i = w := by
  constructor
  · intro h
    obtain ⟨row, operands⟩ := matchesRow_of_decode h
    rw [← operands, encode_instrOfRow_of_matchesRow row]
  · rintro rfl
    rw [decode_of_matchesRow (matchesRow_encode i), instrOfRow_encode]

/-- Settles O1: the bytes decode as the word, and the word by the equivalence. -/
theorem decodeOfEncode : Obligations.DecodeOfEncode := by
  intro i
  have word : decode (encode i) = .ok i := (decode_eq_ok_iff _ i).2 rfl
  exact ⟨word, (decodeBytes_fourOfWord _).trans word⟩

/-- Settles O2, the other direction of the equivalence. -/
theorem encodeOfDecode : Obligations.EncodeOfDecode := fun w i => (decode_eq_ok_iff w i).1

/-! ### Words of no row -/

/-- `stepBytes` classifies the word that it decodes. -/
theorem wordOfBytes_four (b0 b1 b2 b3 : Byte) : wordOfBytes [b0, b1, b2, b3] = wordOfFour b0 b1 b2 b3 := by
  ext j hj
  simp only [wordOfBytes, wordOfFour, ← BitVec.getLsbD_eq_getElem, BitVec.getLsbD_append, List.foldl]
  interval_cases j <;> simp

theorem stepBytes_of_not_decoded {b0 b1 b2 b3 : Byte} (h : ∀ i, decode (wordOfFour b0 b1 b2 b3) ≠ .ok i) (inp : Inputs)
    (s : State) : stepBytes inp [b0, b1, b2, b3] s = stepOther inp (wordOfFour b0 b1 b2 b3) s := by
  rw [stepBytes, decodeBytes, wordOfBytes_four]
  cases hd : decode (wordOfFour b0 b1 b2 b3) with
  | ok i => exact absurd hd (h i)
  | error e => rfl

section StepOther

variable {inp : Inputs} {w : Word} {s : State}

theorem stepOther_unclassified (h : classOf w s.cfg.classify = none) :
    stepOther inp w s = .refused .wordNotClassified := by
  simp [stepOther, h]

theorem stepOther_illegal (h : classOf w s.cfg.classify = some .illegal) :
    stepOther inp w s = enterException .illegalInsn s.pc s := by
  simp [stepOther, h]

theorem stepOther_presented {p : Presented} (h : classOf w s.cfg.classify = some (.other p.insnClass))
    (presented : inp.presented = some p) (kept : replacement inp (effectPresented inp.dataBusError p s) s = none) :
    stepOther inp w s = commit (effectPresented inp.dataBusError p s) := by
  have found : presentedOfClass p.insnClass inp.presented = some p := by simp [presentedOfClass, presented, Option.filter]
  simp [stepOther, h, found, settleStep, kept]

theorem stepOther_notPresented {c : InsnClass} (h : classOf w s.cfg.classify = some (.other c))
    (others : ∀ p, inp.presented = some p → p.insnClass ≠ c) : stepOther inp w s = .refused (.noSemantics c) := by
  have missing : presentedOfClass c inp.presented = none := Option.filter_eq_none_iff.2 (by simpa using others)
  simp [stepOther, h, missing]

end StepOther

/-- Settles O4: a word that decodes has the fixed bits of a row; the others go to `stepOther`. -/
theorem otherWordsGoToClassify : Obligations.OtherWordsGoToClassify := by
  intro inp s b0 b1 b2 b3 w sys trap rfe jr mfspr mtspr
  have undecoded (i : Instr) : decode w ≠ .ok i := by
    intro h
    have row := (matchesRow_of_decode h).1
    cases i with
    | lSys k => exact sys row
    | lTrap k => exact trap row
    | lRfe => exact rfe (BitVec.and_allOnes.symm.trans row)
    | lJr b => exact jr row
    | lMfspr d a k => exact mfspr row
    | lMtspr a b k => exact mtspr row
  rw [stepBytes_of_not_decoded undecoded]
  refine ⟨undecoded, stepOther_unclassified, stepOther_illegal, ?_, fun c => stepOther_notPresented⟩
  rintro _ p classed presented rfl
  exact stepOther_presented classed presented

end Sys2Proof.Machine
end

section
/-! PROOFS. l.sys, l.trap and l.rfe (R120 to R124): the exceptions they enter, the order of l.rfe's checks, and that l.rfe
undoes exception entry (R224, R243). -/

namespace Sys2Proof.Machine

/-! ### Entering what an instruction raises -/

theorem savesNext_iff (e : Exc) : savesNext e = true ↔ e = .systemCall ∨ e = .floatingPoint := by
  cases e <;> simp [savesNext]

theorem epcrValue_next {e : Exc} (h : savesNext e = true) (s : State) : epcrValue e s = nextEpcr s := by
  unfold epcrValue nextEpcr
  rw [inDelaySlot_eq, h]
  cases s.ds <;> simp

/-- EPCR for every type (R226). -/
theorem epcrValue_eq (e : Exc) (s : State) :
    epcrValue e s = if e = .systemCall ∨ e = .floatingPoint then nextEpcr s else currentEpcr s := by
  split
  · rename_i next
    exact epcrValue_next ((savesNext_iff e).2 next) s
  · rename_i current
    exact epcrValue_current (Bool.eq_false_iff.2 (mt (savesNext_iff e).1 current)) s

theorem commit_raises_enters (e : Exc) (ea : Word) {s : State} (room : cidOverflows s = false) :
    ∃ t, commit (.raises e ea s) = .next t ∧
      EntersAs (vectorOffset e) (epcrValue e s) (if writesEear s.cfg e then ea else currentEear s) s t :=
  ⟨entered e ea s, enterException_of_room room, entersAs_entered e ea room⟩

/-! ### l.sys and l.trap -/

/-- Settles O5: l.sys raises System Call, which is of the `next` class and does not write EEAR. -/
theorem sysEntersSystemCall : Obligations.SysEntersSystemCall := by
  intro k s room
  rw [← epcrValue_next (e := .systemCall) rfl]
  exact commit_raises_enters .systemCall 0 room

theorem effectLTrap_raises {k : Half} {s : State} (h : s.cfg.trapPolicy = .always ∨ srBitNamed k s.sr = true) :
    effectLTrap k s = .raises .trap 0 s := by
  unfold effectLTrap
  rcases h with policy | bit
  · rw [policy]
  · rw [bit]
    cases s.cfg.trapPolicy <;> rfl

/-- Settles O6: the trap is entered as any exception is; the two other readings of K look at the SR bit it names. -/
theorem trapEntersTrap : Obligations.TrapEntersTrap := by
  intro k s
  refine ⟨fun room h => ?_, fun policy clear => ?_, fun policy clear => ?_⟩
  · rw [exec, execLTrap, effectLTrap_raises h, ← epcrValue_current (e := .trap) rfl]
    exact commit_raises_enters .trap 0 room
  · simp [exec, execLTrap, effectLTrap, policy, srBitNamed, clear, commit]
  · refine ⟨advance s, ?_, advanced_advance rfl rfl, advance_frame s⟩
    simp [exec, execLTrap, effectLTrap, policy, srBitNamed, clear, commit]

/-! ### l.rfe in user mode -/

theorem exec_lRfe_user {s : State} (user : s.sr.sm = false) : exec .lRfe s = commit (privilegeEffect s) := by
  rw [exec, execLRfe, effectLRfe, if_pos user]

theorem privilegeEffect_illegal {s : State} (h : s.cfg.userPriv ≠ .refuse) :
    privilegeEffect s = .raises .illegalInsn s.pc s := by
  unfold privilegeEffect
  split
  · contradiction
  · rfl

/-- Settles O9: the check of the mode comes first, and its outcome is the policy's. -/
theorem rfeInUserMode : Obligations.RfeInUserMode := by
  intro s user
  rw [exec_lRfe_user user]
  refine ⟨fun policy => ?_, fun policy room => ?_⟩
  · rw [privilegeEffect, policy, commit]
  · rw [privilegeEffect_illegal policy, ← epcrValue_current (e := .illegalInsn) rfl]
    exact commit_raises_enters .illegalInsn s.pc room

/-! ### l.rfe in supervisor mode -/

section Supervisor

variable {s : State} (sm : s.sr.sm = true)
include sm

theorem exec_lRfe_inSlot (slot : s.ds ≠ .none) : exec .lRfe s = .refused .rfeInDelaySlot := by
  simp [exec, execLRfe, effectLRfe, sm, inDelaySlot_eq, slot, commit]

theorem exec_lRfe_underflow (hds : s.ds = .none) (on : switching s = true) (zero : s.sr.cid = 0) :
    exec .lRfe s = .refused .cidUnderflow := by
  simp [exec, execLRfe, effectLRfe, sm, inDelaySlot_none hds, on, zero, commit]

/-- Past its checks l.rfe is the return through the context it reads (R122). -/
theorem exec_lRfe_returns (hds : s.ds = .none) (low : switching s = true → s.sr.cid ≠ 0) :
    exec .lRfe s = commit (returnEffect (returnContext s) s) := by
  rw [exec, execLRfe, effectLRfe, if_neg (by simp [sm]), inDelaySlot_none hds, if_neg Bool.false_ne_true,
    if_neg fun ⟨on, zero⟩ => low on zero]

end Supervisor

section Return

variable {c : CtxNum} {s : State}

theorem returnEffect_of_refuses (h : checkTarget s.cfg (context s c).epcr = .refuses) :
    returnEffect c s = .refuses .misalignedReturn := by
  simp [returnEffect, h]

theorem returnEffect_of_raises (h : checkTarget s.cfg (context s c).epcr = .raises) :
    returnEffect c s = .raises .alignment (context s c).epcr s := by
  simp [returnEffect, h]

theorem returnEffect_altered {u : Word} (h : checkTarget s.cfg (context s c).epcr = .goes u) (on : switching s = true)
    (altered : (unpackSr (context s c).esr).cid.toFin ≠ c) : returnEffect c s = .refuses .esrCidAltered := by
  simp [returnEffect, h, esrCidAltered, on, altered]

theorem returnEffect_of_goes {u : Word} (h : checkTarget s.cfg (context s c).epcr = .goes u)
    (saved : switching s = true → (unpackSr (context s c).esr).cid.toFin = c) :
    returnEffect c s = .completes (returned c u s) := by
  have : esrCidAltered c s = false := by simpa [esrCidAltered] using saved
  simp [returnEffect, h, this]

end Return

/-- l.rfe goes where the saved address takes it, with every check passed (R122). -/
theorem exec_lRfe_goes {s : State} {u : Word} (sm : s.sr.sm = true) (hds : s.ds = .none)
    (legal : switching s = true →
      s.sr.cid ≠ 0 ∧ (unpackSr (context s (returnContext s)).esr).cid.toFin = returnContext s)
    (goes : checkTarget s.cfg (context s (returnContext s)).epcr = .goes u) :
    exec .lRfe s = .next (returned (returnContext s) u s) := by
  rw [exec_lRfe_returns sm hds fun on => (legal on).1, returnEffect_of_goes goes fun on => (legal on).2, commit]

/-- An address that the policies let pass. -/
theorem checkTarget_passes {cfg : Config} {t : Word} (h : t.toNat % 4 = 0 ∨ cfg.misaligned = .ignoreLow) :
    ∃ u, checkTarget cfg t = .goes u := by
  by_cases aligned : t.toNat % 4 = 0
  · exact ⟨t, checkTarget_of_aligned aligned⟩
  · exact ⟨_, checkTarget_ignoreLow aligned (h.resolve_left aligned)⟩

/-- Settles O7: the checks in R122's order, the statement's context being `returnContext s`. -/
theorem rfeRestoresPcAndSr : Obligations.RfeRestoresPcAndSr := by
  intro s sm fast c saved
  refine ⟨exec_lRfe_inSlot sm, exec_lRfe_underflow sm, fun hds low odd policy => ?_,
    fun hds on low passes altered => ?_, fun hds legal aligned => ?_⟩
  · rw [exec_lRfe_returns sm hds low]
    exact congrArg commit (returnEffect_of_refuses (checkTarget_refuse odd policy))
  · obtain ⟨u, goes⟩ := checkTarget_passes passes
    rw [exec_lRfe_returns sm hds fun _ => low]
    exact congrArg commit (returnEffect_altered goes on altered)
  · rw [exec_lRfe_goes sm hds legal (checkTarget_of_aligned aligned), returned, restoredSr_eq]
    rfl

/-- Settles O8: `checkTarget` says what a misaligned return address comes to. -/
theorem rfeOpenPoints : Obligations.RfeOpenPoints := by
  intro s sm hds fast c k saved odd
  refine ⟨fun legal policy => ?_, fun low policy room => ?_⟩
  · refine ⟨_, exec_lRfe_goes sm hds legal (checkTarget_ignoreLow odd policy), dropLow_toNat _, restoredSr_eq _ _, ?_⟩
    rw [returned, hds]
  · rw [exec_lRfe_returns sm hds low, returnEffect_of_raises (c := returnContext s) (checkTarget_alignment odd policy)]
    exact enterException_alignment hds room k.epcr

/-! ### l.rfe after entry -/

theorem epcrValue_aligned {s : State} (h : s.pc.toNat % 4 = 0) (e : Exc) : (epcrValue e s).toNat % 4 = 0 := by
  unfold epcrValue
  split_ifs
  · bv_omega
  · exact add_aligned h rfl
  · exact h

/-- With one context SR[CID] is 0, so that restoring SR from its word loses nothing (R35, R122). -/
theorem restoredSr_packSr {s : State} (h : Invariant s) : restoredSr s.cfg (packSr s.sr) = s.sr := by
  rw [restoredSr_eq, unpackSr_packSr]
  split
  · rfl
  · rename_i single
    obtain ⟨-, ⟨_, -⟩, -, -⟩ := (wellFormed_iff s.cfg).1 h.cfg
    rw [← h.cid (by omega)]

theorem cur_of_switching {s : State} (on : switching s = true) : cur s = s.sr.cid.toFin :=
  cur_of_contexts (Bool.and_eq_true_iff.1 on).1

section AfterEntry

variable {s : State} (room : cidOverflows s = false) (e : Exc) (ea : Word)
include room

theorem entered_cid : (entered e ea s).sr.cid = if switching s = true then s.sr.cid + 1 else s.sr.cid := by
  simp only [switching_iff]
  exact entryCid_of_room room

/-- Entry increments SR[CID] exactly where l.rfe decrements it (R241, R243). -/
theorem returnContext_entered : returnContext (entered e ea s) = cur s := by
  have same : switching (entered e ea s) = switching s := rfl
  rw [returnContext, same]
  split
  · rename_i on
    rw [entered_cid room, if_pos on, BitVec.add_sub_cancel, cur_of_switching on]
  · rename_i off
    rw [cur, entered_cid room, if_neg off]
    rfl

/-- Nor does the increment wrap where there is room (R35, R242). -/
theorem entered_cid_ne_zero (few : s.cfg.nctx ≤ 16) (on : switching s = true) : (entered e ea s).sr.cid ≠ 0 := by
  have inRange : s.sr.cid.toNat + 1 < s.cfg.nctx := by simpa [cidOverflows, on] using room
  rw [entered_cid room, if_pos on]
  bv_omega

end AfterEntry

/-- Settles O10: entry leaves supervisor mode, no delay slot and, in the context l.rfe reads, the saved address and SR. -/
theorem returnUndoesEntry : Obligations.ReturnUndoesEntry := by
  intro e ea s t inv room h
  obtain rfl : entered e ea s = t := by simpa [enterException_of_room room] using h
  obtain ⟨-, ⟨-, few⟩, -, -⟩ := (wellFormed_iff s.cfg).1 inv.cfg
  have reads : returnContext (entered e ea s) = cur s := returnContext_entered room e ea
  have esr : (context (entered e ea s) (cur s)).esr = packSr s.sr := by rw [context_entered_same]; rfl
  have epcr : (context (entered e ea s) (cur s)).epcr = epcrValue e s := by rw [context_entered_same]; rfl
  have legal (on : switching s = true) : (entered e ea s).sr.cid ≠ 0 ∧
      (unpackSr (context (entered e ea s) (cur s)).esr).cid.toFin = cur s := by
    refine ⟨entered_cid_ne_zero room e ea few on, ?_⟩
    rw [esr, unpackSr_packSr, cur_of_switching on]
  have goes : checkTarget s.cfg (context (entered e ea s) (cur s)).epcr = .goes (epcrValue e s) := by
    rw [epcr]
    exact checkTarget_of_aligned (epcrValue_aligned inv.pc e)
  have back := exec_lRfe_goes (s := entered e ea s) rfl rfl (reads.symm ▸ legal) (reads.symm ▸ goes)
  rw [back, reads, returned, esr, entered_cfg, restoredSr_packSr inv, ← epcrValue_eq]
  rfl

end Sys2Proof.Machine
end

section
/-! PROOFS. l.jr and the delay slot (R140 to R145): the jump itself, what l.mfspr and l.mtspr do with the pending target, and
the write of the register that the pending jump read. -/

namespace Sys2Proof.Machine

/-! ### l.jr -/

theorem exec_lJr_inSlot {s : State} (slot : s.ds ≠ .none) (b : RegNum) :
    exec (.lJr b) s = .refused .jumpInDelaySlot := by
  simp [exec, execLJr, effectLJr, inDelaySlot_eq, slot, commit]

/-- l.jr to an implemented register that holds a multiple of 4 (R140, R141). -/
theorem exec_lJr_of_aligned {b : RegNum} {s : State} (hds : s.ds = .none) (hb : b.val < s.cfg.ngpr)
    (aligned : (gpr s b).toNat % 4 = 0) :
    exec (.lJr b) s = .next
      (if s.cfg.nd then { s with pc := gpr s b } else { s with pc := s.pc + 4, ds := .target (gpr s b) (some b) }) := by
  rw [exec_lJr_jumps hds hb, jumpTo_of_goes _ (checkTarget_of_aligned aligned), commit]

/-- Settles O11: past the two checks of l.jr, `checkTarget` says whether the jump is made. -/
theorem jrFollowsItsRule : Obligations.JrFollowsItsRule := by
  intro b s
  refine ⟨fun slot => exec_lJr_inSlot slot b, fun hds hb room => ?_, fun hds hb odd policy => ?_,
    fun hds hb aligned slots => ?_, fun hds hb aligned noSlots => ?_⟩
  · have current : epcrValue .range s = s.pc := by rw [epcrValue_current rfl, currentEpcr, if_pos hds]
    rw [exec, execLJr, effectLJr_unimplemented hds hb, ← current]
    exact commit_raises_enters .range 0 room
  · rw [exec_lJr_jumps hds hb, jumpTo_of_refuses _ (checkTarget_refuse odd policy), commit]
  · simp [exec_lJr_of_aligned hds hb aligned, slots]
  · simp [exec_lJr_of_aligned hds hb aligned, noSlots]

/-! ### l.mfspr and l.mtspr that complete -/

theorem effectLMfspr_completes {d a : RegNum} {k : Half} {s u : State} (h : effectLMfspr d a k s = .completes u) :
    ∃ t, mfsprWrite d a k s = .ok t ∧ u = advance t := by
  unfold effectLMfspr at h
  split_ifs at h
  · exact absurd h (privilegeEffect_not_completes s u)
  · exact advancing_completes h

theorem effectLMtspr_completes {a b : RegNum} {k : Half} {s u : State} (h : effectLMtspr a b k s = .completes u) :
    ∃ t, mtsprWrite a b k s = .ok t ∧ u = advance t := by
  unfold effectLMtspr at h
  split_ifs at h
  · exact absurd h (privilegeEffect_not_completes s u)
  · exact advancing_completes h

theorem mfsprWrite_keeps_pc_ds {d a : RegNum} {k : Half} {s t : State} (h : mfsprWrite d a k s = .ok t) :
    t.pc = s.pc ∧ t.ds = s.ds := by
  unfold mfsprWrite at h
  split_ifs at h
  split at h
  · rw [(setGprAt_frame h).1]
    exact ⟨rfl, rfl⟩
  · cases h

theorem sprWriteNumber_keeps_pc_ds {n : Half} {v : Word} {s t : State} (h : sprWriteNumber n v s = .ok t) :
    t.pc = s.pc ∧ t.ds = s.ds := by
  rcases sprWriteNumber_cases h with rfl | ⟨sr, -, rfl⟩ | rfl | ⟨c, f, -, rfl⟩ | ⟨-, -, rfl⟩ <;> exact ⟨rfl, rfl⟩

theorem mtsprWrite_keeps_pc_ds {a b : RegNum} {k : Half} {s t : State} (h : mtsprWrite a b k s = .ok t) :
    t.pc = s.pc ∧ t.ds = s.ds := by
  unfold mtsprWrite at h
  split at h
  · exact sprWriteNumber_keeps_pc_ds h
  · cases h
    exact ⟨rfl, rfl⟩

/-- Settles O13: both instructions leave `pc` and the delay slot to `advance`. -/
theorem slotCompletionTakesJump : Obligations.SlotCompletionTakesJump := by
  intro i s u hi h
  refine ⟨by rw [exec_eq_commit, h, commit], ?_⟩
  rcases hi with ⟨d, a, k, rfl⟩ | ⟨a, b, k, rfl⟩
  · obtain ⟨t, written, rfl⟩ := effectLMfspr_completes h
    obtain ⟨pc, ds⟩ := mfsprWrite_keeps_pc_ds written
    exact advanced_advance pc ds
  · obtain ⟨t, written, rfl⟩ := effectLMtspr_completes h
    obtain ⟨pc, ds⟩ := mtsprWrite_keeps_pc_ds written
    exact advanced_advance pc ds

/-! ### Writes of the register that the pending jump read -/

/-- An access that is aligned, translated and answered by the bus (R85). -/
theorem memAccess_reaches {kind : AccessKind} {ea pa : Word} {n : Nat} {s : State} (aligned : ea.toNat % n = 0)
    (translated : translateAddress kind ea s = .ok pa) : memAccess kind ea n false s = .reaches pa := by
  simp [memAccess, aligned, translated]

/-- A load whose bytes can be read is the write of its destination (R170). -/
theorem effectPresented_load_reads {ea pa : Word} {width : Width} {regs : List RegNum} {dest : RegNum} {signed : Bool}
    {bs : List Byte} {s : State} (regsIn : ∀ q ∈ dest :: regs, q.val < s.cfg.ngpr)
    (aligned : ea.toNat % width.bytes = 0) (translated : translateAddress .load ea s = .ok pa)
    (read : readBytes s.mem pa width.bytes = some bs) :
    effectPresented false (.load ea width regs dest signed) s =
      advancing (setGpr dest (extendLoaded width signed (wordOfBytes (inOrder s bs))) s) := by
  have implemented := (regsImplemented_iff s.cfg _).2 regsIn
  simp [effectPresented, effectLoad, implemented, memAccess_reaches aligned translated, read]

section PendingRegister

variable {r : RegNum} {s : State} (policy : s.cfg.slotWrite = .refuse) (pending : pendingReg s = some r)
include policy pending

theorem writesPendingReg_refused : (writesPendingReg (cur s) r s && s.cfg.slotWrite == .refuse) = true := by
  simp [writesPendingReg, policy, pending]

/-- R144 under the spec's policy. -/
theorem setGpr_pending_refused (v : Word) : setGpr r v s = .error .slotWritesJumpRegister :=
  if_pos (writesPendingReg_refused policy pending)

/-- l.mfspr is refused before it reads the special-purpose register (R150). -/
theorem exec_lMfspr_pending_refused {a : RegNum} (sm : s.sr.sm = true) (hr : r.val < s.cfg.ngpr)
    (ha : a.val < s.cfg.ngpr) (k : Half) : exec (.lMfspr r a k) s = .refused .slotWritesJumpRegister := by
  have implemented : regsImplemented s.cfg [r, a] = true := (regsImplemented_iff s.cfg _).2 (by simp [hr, ha])
  have refused : mfsprWrite r a k s = .error .slotWritesJumpRegister :=
    if_pos (writesPendingReg_refused policy pending)
  simp [exec, execLMfspr, effectLMfspr, userStops_of_sm sm, implemented, refused, advancing, commit]

end PendingRegister

/-- Settles O17: each of the instructions comes to a write of the pending jump's register, and `setGpr` refuses it. -/
theorem slotWriteOfJumpRegister : Obligations.SlotWriteOfJumpRegister := by
  intro r a k s t policy hds hr
  have pending : pendingReg s = some r := by rw [pendingReg, hds]
  refine ⟨fun sm ha => exec_lMfspr_pending_refused policy pending sm hr ha k, ?_, ?_⟩
  · intro be regs first rest v flags ov cy f p ws regsIn allowed hclass
    have refused : setGprs ws s = .error .slotWritesJumpRegister :=
      setGprs_error allowed (fun c => setGpr_pending_refused (s := { s with ctx := c }) policy pending v) rest
    rw [effectPresented_refuses (taken := false) (target := 0) (tr := none) (hclass.imp_right (Or.imp_right .inl)) regsIn
      refused, commit]
  · intro ea pa width regs signed bs regsIn aligned translated read
    have implemented : ∀ q ∈ r :: regs, q.val < s.cfg.ngpr := List.forall_mem_cons.2 ⟨hr, regsIn⟩
    rw [effectPresented_load_reads implemented aligned translated read, setGpr_pending_refused policy pending,
      advancing, commit]

end Sys2Proof.Machine
end

section
/-! PROOFS. l.mfspr and l.mtspr (R150 to R158): the write that each comes to past its checks, in supervisor mode and in user
mode, and what that write is for each register and for a number that names none. -/

namespace Sys2Proof.Machine

/-! ### Past the checks -/

section Checked

variable {d a b : RegNum} {k : Half} {s : State}

theorem exec_lMfspr_goes (goes : userStops s = false) (hd : d.val < s.cfg.ngpr) (ha : a.val < s.cfg.ngpr) :
    exec (.lMfspr d a k) s = commit (advancing (mfsprWrite d a k s)) := by
  have implemented : regsImplemented s.cfg [d, a] = true := (regsImplemented_iff s.cfg _).2 (by simp [hd, ha])
  simp [exec, execLMfspr, effectLMfspr, goes, implemented]

theorem exec_lMtspr_goes (goes : userStops s = false) (ha : a.val < s.cfg.ngpr) (hb : b.val < s.cfg.ngpr) :
    exec (.lMtspr a b k) s = commit (advancing (mtsprWrite a b k s)) := by
  have implemented : regsImplemented s.cfg [a, b] = true := (regsImplemented_iff s.cfg _).2 (by simp [ha, hb])
  simp [exec, execLMtspr, effectLMtspr, goes, implemented]

/-- l.mtspr in supervisor mode is `SprWrite` of the number with rB (R151, R152). -/
theorem exec_lMtspr_writes (sm : s.sr.sm = true) (ha : a.val < s.cfg.ngpr) (hb : b.val < s.cfg.ngpr) :
    exec (.lMtspr a b k) s = commit (advancing (sprWriteNumber (numberOf s a k) (gpr s b) s)) := by
  rw [exec_lMtspr_goes (userStops_of_sm sm) ha hb, mtsprWrite, if_pos sm]
  rfl

theorem exec_lMtspr_named {p : Spr} (sm : s.sr.sm = true) (ha : a.val < s.cfg.ngpr) (hb : b.val < s.cfg.ngpr)
    (hp : sprOf s.cfg (numberOf s a k) = some p) :
    exec (.lMtspr a b k) s = commit (advancing (sprWrite p (gpr s b) s)) := by
  rw [exec_lMtspr_writes sm ha hb, sprWriteNumber, hp]

end Checked

/-! ### l.mfspr of a register in supervisor mode -/

/-- Settles O15: l.mfspr is the write of the register's value into rD, and an ordinary write is made. -/
theorem mfsprReadsRegister : Obligations.MfsprReadsRegister := by
  intro d a k s p sm hd ha ⟨slot, r0⟩ hp
  have made : setGpr d (sprRead p s) s = .ok (storeGpr (cur s) d (sprRead p s) s) :=
    setGprAt_ordinary (fun ⟨policy, pending, _⟩ => slot policy pending) r0
  rw [exec_lMfspr_reads sm hd ha slot hp, made]
  exact ⟨_, sprRead p s, rfl, sprHolds_sprRead p s, onlyGprWritten_store (cur s) d _ s, advanced_advance rfl rfl⟩

/-! ### l.mtspr to the exception registers, FPCSR and CPUCFGR -/

theorem onlyContextWritten_update (c : CtxNum) (f : Context → Context) (s : State) :
    OnlyContextWritten c (f (context s c)) s (advance (updateContext c f s)) where
  value := by simp
  otherContexts e he := (context_advance _ e).trans (context_updateContext_other he f s)
  memory _ := by simp
  rest := by
    rw [advance_ctx]
    exact advance_frame _

/-- Settles O18: `SprWrite` of each of these registers is one update of the state, which `advance` follows. -/
theorem mtsprWritesRegister : Obligations.MtsprWritesRegister := by
  intro a b k s sm ha hb
  refine ⟨fun c hp => ?_, fun c hp => ?_, fun c hp => ?_, fun hp => ?_, fun hp => ?_⟩ <;>
    rw [exec_lMtspr_named sm ha hb hp]
  · exact ⟨_, rfl, advanced_advance rfl rfl, onlyContextWritten_update c (fun x => { x with epcr := gpr s b }) s⟩
  · exact ⟨_, rfl, advanced_advance rfl rfl, onlyContextWritten_update c (fun x => { x with eear := gpr s b }) s⟩
  · exact ⟨_, rfl, advanced_advance rfl rfl, onlyContextWritten_update c (fun x => { x with esr := gpr s b }) s⟩
  · exact ⟨_, rfl, advanced_advance rfl rfl, advance_frame { s with fpcsr := gpr s b }⟩
  · exact ⟨_, rfl, advanced_advance rfl rfl, advance_frame s⟩

/-! ### l.mtspr to SR -/

theorem of_writtenCe {cfg : Config} {n : Nat} {b : Bool} (h : writtenCe cfg n b = true) : b = true := by
  unfold writtenCe at h
  split at h
  · exact h
  · exact (Bool.and_eq_true_iff.1 h).1

theorem writtenCe_of_contexts {cfg : Config} (many : 1 < cfg.nctx) (n : Nat) (b : Bool) : writtenCe cfg n b = b :=
  if_pos ((hasContexts_iff cfg).2 many)

theorem writtenIf_cases {α : Type} [DecidableEq α] (changes : Bool) (old new : α) :
    writtenIf changes old new = new ∨ writtenIf changes old new = old := by
  unfold writtenIf
  split_ifs <;> simp

theorem writtenCid_cases (cfg : Config) (n : Nat) (old new : BitVec 4) :
    writtenCid cfg n old new = old ∨
      (1 < cfg.nctx ∧ writtenCid cfg n old new = new ∧ new.toNat < cfg.nctx) := by
  unfold writtenCid
  split
  · rename_i legal
    obtain ⟨many, exist⟩ := Bool.and_eq_true_iff.1 legal
    rcases writtenIf_cases (Config.freeCidWritten n) old new with h | h
    · exact .inr ⟨(hasContexts_iff cfg).1 many, h, of_decide_eq_true exist⟩
    · exact .inl h
  · exact .inl rfl

section SrWrite

variable {cfg : Config} {n : Nat} {old : SR} {v : Word}

/-- R155 under the spec's policy for U10: the write where CID and DSX stay, and the refusal elsewhere. -/
theorem srWrite_cautious (policy : cfg.srFields = .refuse) :
    srWrite cfg n old v =
      if (unpackSr v).cid = old.cid ∧ (unpackSr v).dsx = old.dsx then
        .ok { unpackSr v with ce := writtenCe cfg n (unpackSr v).ce }
      else .error .srWriteChangesCidOrDsx := by
  simp only [srWrite, policy]

/-- R155 under the executing policy (log 7). -/
theorem srWrite_open (policy : cfg.srFields = .execute) :
    srWrite cfg n old v = .ok
      { unpackSr v with
        ce := writtenCe cfg n (unpackSr v).ce
        dsx := writtenIf (Config.freeDsxWritten n) old.dsx (unpackSr v).dsx
        cid := writtenCid cfg n old.cid (unpackSr v).cid } := by
  simp only [srWrite, policy]

end SrWrite

section ToSr

variable {a b : RegNum} {k : Half} {s : State} (sm : s.sr.sm = true) (ha : a.val < s.cfg.ngpr) (hb : b.val < s.cfg.ngpr)
  (hn : numberOf s a k = 17)
include sm ha hb hn

theorem exec_lMtspr_sr_made {sr : SR} (made : srWrite s.cfg s.draws s.sr (gpr s b) = .ok sr) :
    exec (.lMtspr a b k) s = .next (advance { s with sr := sr }) := by
  have named : sprOf s.cfg (numberOf s a k) = some .sr := by rw [hn]; rfl
  rw [exec_lMtspr_named sm ha hb named, sprWrite, made]
  rfl

theorem exec_lMtspr_sr_refused {e : Refusal} (refused : srWrite s.cfg s.draws s.sr (gpr s b) = .error e) :
    exec (.lMtspr a b k) s = .refused e := by
  have named : sprOf s.cfg (numberOf s a k) = some .sr := by rw [hn]; rfl
  rw [exec_lMtspr_named sm ha hb named, sprWrite, refused]
  rfl

end ToSr

/-- Settles O19: `srWrite` under the spec's policy; only SR[CE] may differ from the word written. -/
theorem mtsprSrCautious : Obligations.MtsprSrCautious := by
  intro a b k s sm ha hb hn policy new
  refine ⟨fun hcid hdsx => ?_, fun differ => ?_⟩
  · have made := (srWrite_cautious (n := s.draws) (v := gpr s b) policy).trans (if_pos ⟨hcid, hdsx⟩)
    refine ⟨_, exec_lMtspr_sr_made sm ha hb hn made, advanced_advance rfl rfl, ?_⟩
    rw [advance_sr]
    exact ⟨advance_frame _, rfl, of_writtenCe, fun many => writtenCe_of_contexts many _ _⟩
  · have refused := (srWrite_cautious (n := s.draws) (v := gpr s b) policy).trans
      (if_neg fun ⟨hcid, hdsx⟩ => differ.elim (· hcid) (· hdsx))
    exact exec_lMtspr_sr_refused sm ha hb hn refused

/-- Settles O20: `srWrite` under the executing policy, with what SR[CE], SR[DSX] and SR[CID] may become. -/
theorem mtsprSrOpenFields : Obligations.MtsprSrOpenFields := by
  intro a b k s sm ha hb hn policy new
  refine ⟨_, exec_lMtspr_sr_made sm ha hb hn (srWrite_open policy), advanced_advance rfl rfl, ?_⟩
  rw [advance_sr]
  exact ⟨advance_frame _, rfl, of_writtenCe, fun many => writtenCe_of_contexts many _ _, writtenIf_cases _ _ _,
    writtenCid_cases _ _ _ _⟩

/-! ### l.mtspr to CXR -/

theorem highHalf_toNat (v : Word) : (v.extractLsb' 16 16).toNat = v.toNat / 65536 := by
  rw [BitVec.extractLsb'_toNat, Nat.shiftRight_eq_div_pow]
  exact Nat.mod_eq_of_lt (by omega)

theorem lowHalf_toNat (v : Word) : (v.extractLsb' 0 16).toNat = v.toNat % 65536 := by
  rw [BitVec.extractLsb'_toNat, Nat.shiftRight_zero]

/-- A CCID below 16 is a CID of four bits. -/
theorem ccidField_toNat {v : Word} (small : v.toNat / 65536 < 16) : (v.extractLsb' 16 4).toNat = v.toNat / 65536 := by
  rw [BitVec.extractLsb'_toNat, Nat.shiftRight_eq_div_pow]
  exact Nat.mod_eq_of_lt small

/-- CXR has a number only where there are contexts (R40). -/
theorem contexts_of_cxr {cfg : Config} {n : Half} (h : sprOf cfg n = some .cxr) : 1 < cfg.nctx := by
  simpa using sprOf_some h

/-- Settles O21: the high half of rB is compared with NCTX, and becomes SR[CID], which is the current context. -/
theorem mtsprCxrSwitchesContext : Obligations.MtsprCxrSwitchesContext := by
  intro a b k s sm ha hb hp few ccid
  rw [exec_lMtspr_named sm ha hb hp, sprWrite, highHalf_toNat]
  refine ⟨fun exist => ?_, fun missing => ?_⟩
  · have cid := ccidField_toNat (exist.trans_le few)
    rw [if_pos exist]
    refine ⟨_, rfl, advanced_advance rfl rfl, ?_⟩
    have contexts := (hasContexts_iff s.cfg).2 (contexts_of_cxr hp)
    rw [cur_of_contexts (by rw [advance_cfg]; exact contexts), advance_sr, advance_ccrs]
    exact ⟨lowHalf_toNat _, rfl, cid, cid, advance_frame _⟩
  · rw [if_neg (Nat.not_lt.2 missing)]
    rfl

/-! ### l.mtspr to a shadow register -/

section ShadowWrite

variable {c : CtxNum} {r : RegNum} {v : Word} {s : State}

theorem setGprAt_pending_refused (pending : s.cfg.slotWrite = .refuse ∧ pendingReg s = some r ∧ c = cur s) :
    setGprAt c r v s = .error .slotWritesJumpRegister := by
  obtain ⟨policy, reg, rfl⟩ := pending
  exact setGpr_pending_refused policy reg v

/-- The cautious reading of R22, in any context. -/
theorem setGprAt_zero_refused (slot : ¬ (s.cfg.slotWrite = .refuse ∧ pendingReg s = some 0 ∧ c = cur s))
    (policy : s.cfg.r0 = .refuse) (hv : v ≠ 0) : setGprAt c 0 v s = .error .nonZeroWriteToR0 := by
  rw [setGprAt, writesPendingReg, if_neg (by simp; tauto)]
  simpa [policy] using hv

end ShadowWrite

/-- Settles O22: `SprWrite` of a shadow register is the write of that register by the policies for R144 and R22. -/
theorem mtsprWritesShadowGpr : Obligations.MtsprWritesShadowGpr := by
  intro a b k s c r sm ha hb hp pending
  rw [exec_lMtspr_named sm ha hb hp, sprWrite]
  refine ⟨fun h => ?_, fun slot r0 => ?_, fun slot hr policy hv => ?_, fun slot hr policy => ?_⟩
  · rw [setGprAt_pending_refused h]
    rfl
  · have soft : ¬ (r = 0 ∧ s.cfg.r0 = .hardwired) := by
      rintro ⟨hr, hard⟩
      simpa [hard] using r0 hr
    have zero : r = 0 → s.cfg.r0 = .refuse → gpr s b = 0 := fun hr policy => by simpa [policy] using r0 hr
    rw [setGprAt_allowed slot zero, if_neg soft]
    exact ⟨_, rfl, advanced_advance rfl rfl, onlyGprWritten_store c r _ s⟩
  · subst hr
    rw [setGprAt_zero_refused slot policy hv]
    rfl
  · rw [setGprAt_allowed slot (fun _ h => by simp [policy] at h), if_pos ⟨hr, policy⟩]
    exact ⟨_, rfl, advanced_advance rfl rfl, advance_frame s⟩

/-! ### The write of rD by its policies -/

theorem setGprs_singleton (w : RegWrite) (s : State) : setGprs [w] s = setGpr w.1 w.2 s := by
  obtain ⟨r, v⟩ := w
  simp only [setGprs]
  cases setGpr r v s <;> rfl

/-- An instruction that is one result write and an advanced `pc` (R22, R144). -/
theorem writesResult_setGpr (w : RegWrite) (s : State) : WritesResult w s (commit (advancing (setGpr w.1 w.2 s))) where
  slot policy pending := by
    rw [setGpr_pending_refused policy pending]
    rfl
  r0 slot hr policy hv := by
    rw [hr] at slot ⊢
    rw [setGpr_zero_refused slot policy hv]
    rfl
  completes allowed := by
    obtain ⟨t, made, frame, written⟩ := setGprs_allowed (ws := [w]) (s := s) (by simpa using allowed)
    rw [setGprs_singleton] at made
    rw [made]
    refine ⟨advance t, rfl, ?_, advanced_advance (by rw [frame]) (by rw [frame])⟩
    rw [advance_frame t]
    exact written.goesTo _ _

section MfsprWrite

variable {d a : RegNum} {k : Half} {s : State}

/-- The R144 check of l.mfspr is the one that the write of rD makes. -/
theorem mfsprWrite_of_value {v : Word} (h : mfsprValue (numberOf s a k) s = .ok v) :
    mfsprWrite d a k s = setGpr d v s := by
  have value : mfsprValue (sprNumber (gpr s a) k) s = .ok v := h
  by_cases refused : (writesPendingReg (cur s) d s && s.cfg.slotWrite == .refuse) = true
  · rw [mfsprWrite, if_pos refused, setGpr, setGprAt, if_pos refused]
  · rw [mfsprWrite, if_neg refused, value]

/-- A read that is refused: R144's refusal comes first (R150). -/
theorem mfsprWrite_of_refusal {e : Refusal} (h : mfsprValue (numberOf s a k) s = .error e) :
    mfsprWrite d a k s =
      .error (if s.cfg.slotWrite = .refuse ∧ pendingReg s = some d then .slotWritesJumpRegister else e) := by
  have value : mfsprValue (sprNumber (gpr s a) k) s = .error e := h
  by_cases pending : s.cfg.slotWrite = .refuse ∧ pendingReg s = some d
  · rw [if_pos pending]
    exact if_pos (writesPendingReg_refused pending.1 pending.2)
  · rw [if_neg pending, mfsprWrite, writesPendingReg_allowed fun policy reg => pending ⟨policy, reg⟩, value]
    rfl

variable (goes : userStops s = false) (hd : d.val < s.cfg.ngpr) (ha : a.val < s.cfg.ngpr)
include goes hd ha

theorem exec_lMfspr_writesResult {v : Word} (h : mfsprValue (numberOf s a k) s = .ok v) :
    WritesResult (d, v) s (exec (.lMfspr d a k) s) := by
  rw [exec_lMfspr_goes goes hd ha, mfsprWrite_of_value h]
  exact writesResult_setGpr (d, v) s

theorem exec_lMfspr_refused {e : Refusal} (h : mfsprValue (numberOf s a k) s = .error e) :
    exec (.lMfspr d a k) s =
      if s.cfg.slotWrite = .refuse ∧ pendingReg s = some d then .refused .slotWritesJumpRegister else .refused e := by
  rw [exec_lMfspr_goes goes hd ha, mfsprWrite_of_refusal h]
  split <;> rfl

end MfsprWrite

/-! ### Numbers that name no register -/

section Unnamed

variable {n : Half} {s : State} (unnamed : sprOf s.cfg n = none)
include unnamed

theorem sprReadNumber_unnamed_refused (policy : s.cfg.unmappedSpr = .refuse) :
    sprReadNumber n s = .error .sprOutOfScope := by
  rw [sprReadNumber, unnamed, policy]

theorem sprReadNumber_unnamed (policy : s.cfg.unmappedSpr ≠ .refuse) :
    ∃ v, sprReadNumber n s = .ok v ∧ (s.cfg.unmappedSpr = .zero → v = 0) := by
  rw [sprReadNumber, unnamed]
  cases h : s.cfg.unmappedSpr with
  | refuse => exact absurd h policy
  | zero => exact ⟨0, rfl, fun _ => rfl⟩
  | free => exact ⟨_, rfl, fun zero => by cases zero⟩

theorem sprWriteNumber_unnamed_refused (policy : s.cfg.unmappedSpr = .refuse) (v : Word) :
    sprWriteNumber n v s = .error .sprOutOfScope := by
  rw [sprWriteNumber, unnamed, policy]

theorem sprWriteNumber_unnamed (policy : s.cfg.unmappedSpr ≠ .refuse) (v : Word) : sprWriteNumber n v s = .ok s := by
  rw [sprWriteNumber, unnamed]
  cases h : s.cfg.unmappedSpr with
  | refuse => exact absurd h policy
  | zero | free => rfl

end Unnamed

/-! ### l.mfspr of such a number, in either mode where it is read as in supervisor mode (log 8) -/

section ReadUnnamed

variable {d a : RegNum} {k : Half} {s : State} (goes : userStops s = false) (hd : d.val < s.cfg.ngpr)
  (ha : a.val < s.cfg.ngpr) (reads : mfsprValue (numberOf s a k) s = sprReadNumber (numberOf s a k) s)
  (unnamed : sprOf s.cfg (numberOf s a k) = none)
include goes hd ha reads unnamed

theorem exec_lMfspr_unnamed_refused (policy : s.cfg.unmappedSpr = .refuse) :
    exec (.lMfspr d a k) s =
      if s.cfg.slotWrite = .refuse ∧ pendingReg s = some d then .refused .slotWritesJumpRegister
      else .refused .sprOutOfScope :=
  exec_lMfspr_refused goes hd ha (reads.trans (sprReadNumber_unnamed_refused unnamed policy))

theorem exec_lMfspr_unnamed (policy : s.cfg.unmappedSpr ≠ .refuse) :
    ∃ v, WritesResult (d, v) s (exec (.lMfspr d a k) s) ∧ (s.cfg.unmappedSpr = .zero → v = 0) := by
  obtain ⟨v, read, zero⟩ := sprReadNumber_unnamed unnamed policy
  exact ⟨v, exec_lMfspr_writesResult goes hd ha (reads.trans read), zero⟩

end ReadUnnamed

/-- Settles O23: `SprRead` and `SprWrite` of such a number by log 8's policy, the read written to rD. -/
theorem sprNumbersOutsideTheMap : Obligations.SprNumbersOutsideTheMap := by
  intro d a b k s sm hd ha hb unnamed
  have goes := userStops_of_sm sm
  have reads : mfsprValue (numberOf s a k) s = sprReadNumber (numberOf s a k) s := if_pos sm
  rw [exec_lMtspr_writes sm ha hb]
  refine ⟨fun policy => ⟨?_, exec_lMfspr_unnamed_refused goes hd ha reads unnamed policy⟩,
    fun policy => ⟨exec_lMfspr_unnamed goes hd ha reads unnamed policy, ?_⟩⟩
  · rw [sprWriteNumber_unnamed_refused unnamed policy]
    rfl
  · rw [sprWriteNumber_unnamed unnamed policy]
    exact ⟨_, rfl, advanced_advance rfl rfl, advance_frame s⟩

/-! ### User mode -/

theorem userReadable_iff (s : State) (p : Spr) : userReadable s p = true ↔ UserMayRead s p := by
  cases p <;> simp [userReadable, UserMayRead]

section UserMode

variable {s : State} (user : s.sr.sm = false)
include user

theorem exec_spr_user_stopped (d a b : RegNum) (k : Half) (policy : s.cfg.userPriv = .refuse ∨ s.cfg.userPriv = .illegal) :
    exec (.lMfspr d a k) s = commit (privilegeEffect s) ∧ exec (.lMtspr a b k) s = commit (privilegeEffect s) := by
  have stops : userStops s = true := by simpa [userStops, user] using policy
  simp [exec, execLMfspr, execLMtspr, effectLMfspr, effectLMtspr, stops]

theorem mfsprValue_user (n : Half) : mfsprValue n s = userSprRead n s := by simp [mfsprValue, user]

theorem mtsprWrite_user (a b : RegNum) (k : Half) : mtsprWrite a b k s = .ok s := by simp [mtsprWrite, user]

end UserMode

section UserRead

variable {n : Half} {s : State}

theorem userSprRead_closed (h : ¬ (s.cfg.userPriv = .sumra ∧ s.sr.sumra = true)) : userSprRead n s = .ok 0 := if_neg h

variable (policy : s.cfg.userPriv = .sumra) (opened : s.sr.sumra = true)
include policy opened

/-- What SR[SUMRA] gives of a register (GK12, R250). -/
theorem userSprRead_named {p : Spr} (hp : sprOf s.cfg n = some p) :
    userSprRead n s = .ok (if userReadable s p = true then sprRead p s else 0) := by
  rw [userSprRead, if_pos ⟨policy, opened⟩, hp]
  exact (apply_ite Except.ok _ _ _).symm

theorem userSprRead_unnamed (unnamed : sprOf s.cfg n = none) : userSprRead n s = sprReadNumber n s := by
  rw [userSprRead, if_pos ⟨policy, opened⟩, unnamed]

end UserRead

/-- Settles O24: the policies that stop both instructions; under the others l.mfspr is the write of what user mode reads, and
l.mtspr nothing. -/
theorem sprAccessInUserMode : Obligations.SprAccessInUserMode := by
  intro d a b k s user
  refine ⟨fun policy => ?_, fun policy room => ?_, fun closed hd ha => ?_, fun policy opened hd ha => ?_,
    fun policy ha hb => ?_⟩
  · obtain ⟨mfspr, mtspr⟩ := exec_spr_user_stopped user d a b k (.inl policy)
    rw [mfspr, mtspr, privilegeEffect, policy]
    exact ⟨rfl, rfl⟩
  · obtain ⟨mfspr, mtspr⟩ := exec_spr_user_stopped user d a b k (.inr policy)
    rw [mfspr, mtspr, privilegeEffect_illegal (by simp [policy]), ← epcrValue_current (e := .illegalInsn) rfl]
    obtain ⟨t, next, enters⟩ := commit_raises_enters .illegalInsn s.pc room
    exact ⟨t, next, next, enters⟩
  · have goes : userStops s = false := userStops_of_policy (closed.imp_right And.left)
    have zero : userSprRead (numberOf s a k) s = .ok 0 := userSprRead_closed fun ⟨policy, opened⟩ => by
      simp [policy, opened] at closed
    exact exec_lMfspr_writesResult goes hd ha ((mfsprValue_user user _).trans zero)
  · have goes : userStops s = false := userStops_of_policy (.inr policy)
    have reads := mfsprValue_user user (numberOf s a k)
    refine ⟨fun p hp => ?_, fun unnamed => ?_⟩
    · refine ⟨_, exec_lMfspr_writesResult goes hd ha (reads.trans (userSprRead_named policy opened hp)), ?_, ?_⟩
      · intro may
        rw [if_pos ((userReadable_iff s p).2 may)]
        exact sprHolds_sprRead p s
      · intro mayNot
        exact if_neg (mt (userReadable_iff s p).1 mayNot)
    · have reads := reads.trans (userSprRead_unnamed policy opened unnamed)
      exact ⟨exec_lMfspr_unnamed_refused goes hd ha reads unnamed, exec_lMfspr_unnamed goes hd ha reads unnamed⟩
  · rw [exec_lMtspr_goes (userStops_of_policy policy) ha hb, mtsprWrite_user user]
    exact ⟨_, rfl, advanced_advance rfl rfl, advance_frame s⟩

end Sys2Proof.Machine
end

section
/-! PROOFS. Illegal words (R174), and the loads and stores (R170, R85): the exceptions that their accesses raise in order, the
bytes that a load receives and those that a store leaves. -/

namespace Sys2Proof.Machine

/-! ### Illegal words -/

/-- Past its fetch a step decodes and executes what it fetched (R223). -/
theorem step_of_fetchGives {s : State} {bs : List Byte} (h : FetchGives s bs) :
    step s = stepBytes (nextInputs s) bs (beginStep s) := by
  obtain ⟨reset, order, aligned, fetched⟩ := h
  have runs : ¬ (s.sr.lee = true ∧ s.cfg.littleEndian = .refuse) := by
    rintro ⟨lee, refuse⟩
    simp [lee, refuse] at order
  simp [step, stepWith, reset, runs, (aligned4_iff _).2 aligned, fetched]

/-- Settles O37: the step comes to `stepOther`, which enters Illegal Instruction. -/
theorem illegalWordRaises : Obligations.IllegalWordRaises := by
  intro s b0 b1 b2 b3 fetched room undecoded illegal
  rw [step_of_fetchGives fetched, stepBytes_of_not_decoded undecoded, stepOther_illegal (s := beginStep s) illegal]
  have enters := commit_raises_enters .illegalInsn s.pc (s := beginStep s) room
  rw [epcrValue_current rfl] at enters
  exact enters

/-! ### An access that raises (R85) -/

section AccessRaises

variable {kind : AccessKind} {ea : Word} {n : Nat} {s : State} {busError : Bool}

theorem memAccess_misaligned (odd : ea.toNat % n ≠ 0) : memAccess kind ea n busError s = .raises .alignment := if_pos odd

variable (aligned : ea.toNat % n = 0)
include aligned

theorem memAccess_tlbMiss (on : translates kind s = true) (missing : mmuLookup kind ea s.sr.sm s.mmu = none) :
    memAccess kind ea n busError s = .raises .dtlbMiss := by
  simp [memAccess, aligned, translateAddress, on, missing]

theorem memAccess_pageFault (on : translates kind s = true)
    (fault : mmuLookup kind ea s.sr.sm s.mmu = some .pageFault) :
    memAccess kind ea n busError s = .raises .dataPageFault := by
  simp [memAccess, aligned, translateAddress, on, fault]

theorem memAccess_busError (reaches : translates kind s = false ∨ ∃ pa, mmuLookup kind ea s.sr.sm s.mmu = some (.ok pa)) :
    memAccess kind ea n true s = .raises .busError := by
  have translated : ∃ pa, translateAddress kind ea s = .ok pa := by
    cases on : translates kind s with
    | false => exact ⟨ea, translateAddress_off on ea⟩
    | true =>
      obtain ⟨pa, hit⟩ := reaches.resolve_left (by simp [on])
      exact ⟨pa, by simp [translateAddress, on, hit]⟩
  obtain ⟨pa, translated⟩ := translated
  simp [memAccess, aligned, translated]

end AccessRaises

/-- A load or store whose access raises has written nothing (R170). -/
theorem effectPresented_access_raises {busError : Bool} {ea v : Word} {width : Width} {regs : List RegNum} {dest : RegNum}
    {signed : Bool} {s : State} {p : Presented} {kind : AccessKind} {e : Exc}
    (hp : (p = .load ea width regs dest signed ∧ kind = .load) ∨ (p = .store ea width regs v ∧ kind = .store))
    (regsIn : ∀ r ∈ p.regFields, r.val < s.cfg.ngpr) (h : memAccess kind ea width.bytes busError s = .raises e) :
    effectPresented busError p s = .raises e ea s := by
  have implemented := (regsImplemented_iff s.cfg _).2 regsIn
  rcases hp with ⟨rfl, rfl⟩ | ⟨rfl, rfl⟩
  all_goals exact (if_pos implemented).trans (by rw [h])

/-- Settles O39: what `memAccess` raises is entered from the state before the instruction, with EEAR the effective address. -/
theorem dataAccessFaultsInOrder : Obligations.DataAccessFaultsInOrder := by
  intro busError ea v width regs dest signed s p kind hp regsIn room on entry ok
  have enters {e : Exc} (current : savesNext e = false) (eear : writesEear s.cfg e = true)
      (h : memAccess kind ea width.bytes busError s = .raises e) :
      ∃ t, commit (effectPresented busError p s) = .next t ∧ EntersAs (vectorOffset e) (currentEpcr s) ea s t := by
    rw [effectPresented_access_raises hp regsIn h]
    exact enterException_currentWithEear room current eear ea
  have mmu : translates kind s = on := by rcases hp with ⟨-, rfl⟩ | ⟨-, rfl⟩ <;> rfl
  refine ⟨fun odd => ?_, fun aligned enabled missing => ?_, fun aligned enabled fault => ?_,
    fun aligned reaches bus => ?_⟩
  · exact enters (e := .alignment) rfl rfl (memAccess_misaligned odd)
  · exact enters (e := .dtlbMiss) rfl rfl (memAccess_tlbMiss aligned (mmu.trans enabled) missing)
  · exact enters (e := .dataPageFault) rfl rfl (memAccess_pageFault aligned (mmu.trans enabled) fault)
  · have reached : translates kind s = false ∨ ∃ pa, entry = some (.ok pa) := mmu.symm ▸ reaches
    exact enters (e := .busError) rfl rfl (bus ▸ memAccess_busError aligned reached)

/-! ### The order of bytes (R72) -/

theorem inOrder_eq (s : State) (bs : List Byte) :
    inOrder s bs = if s.cfg.bigEndian = true ∧ s.sr.lee = false then bs else bs.reverse := by
  simp [inOrder, isBigEndian]

theorem inOrder_inOrder (s : State) (bs : List Byte) : inOrder s (inOrder s bs) = bs := by
  unfold inOrder
  split <;> simp

/-! ### Loads -/

theorem readBytes_unwritten {m : Memory} {a : Word} {n : Nat} (h : ∃ x ∈ addresses a n, readByte x m = none) :
    readBytes m a n = none := by
  obtain ⟨x, mem, missing⟩ := h
  induction n generalizing a with
  | zero => simp [addresses] at mem
  | succ n ih =>
    rw [readBytes]
    rcases List.mem_cons.1 mem with rfl | later
    · rw [missing]
    · rw [ih later]
      cases readByte a.toNat m <;> rfl

theorem readBytes_length {m : Memory} {a : Word} {n : Nat} {bs : List Byte} (h : readBytes m a n = some bs) :
    bs.length = n := by
  induction n generalizing a bs with
  | zero =>
    cases h
    rfl
  | succ n ih =>
    rw [readBytes] at h
    split at h
    · rename_i b rest _ read
      cases h
      rw [List.length_cons, ih read]
    · cases h

/-- A load of a byte that nothing has written (R48). -/
theorem effectPresented_load_unwritten {ea pa : Word} {width : Width} {regs : List RegNum} {dest : RegNum} {signed : Bool}
    {s : State} (regsIn : ∀ q ∈ dest :: regs, q.val < s.cfg.ngpr) (aligned : ea.toNat % width.bytes = 0)
    (translated : translateAddress .load ea s = .ok pa) (unwritten : readBytes s.mem pa width.bytes = none) :
    effectPresented false (.load ea width regs dest signed) s = .faults .unwrittenMemory := by
  have implemented := (regsImplemented_iff s.cfg _).2 regsIn
  simp [effectPresented, effectLoad, implemented, memAccess_reaches aligned translated, unwritten]

theorem wordOfBytes_one (b : Byte) : (wordOfBytes [b]).setWidth 8 = b := by simp [wordOfBytes]

theorem wordOfBytes_two (b c : Byte) : (wordOfBytes [b, c]).setWidth 16 = b ++ c := by
  ext j hj
  simp only [wordOfBytes, ← BitVec.getLsbD_eq_getElem, BitVec.getLsbD_append, List.foldl]
  interval_cases j <;> simp

section Extend

variable {width : Width} (signed : Bool)

theorem extendLoaded_one (h : width.bytes = 1) (b : Byte) :
    extendLoaded width signed (wordOfBytes [b]) = if signed then b.signExtend 32 else b.setWidth 32 := by
  cases width with
  | byte => rw [extendLoaded, wordOfBytes_one]
  | half | word => cases h

theorem extendLoaded_two (h : width.bytes = 2) (b c : Byte) :
    extendLoaded width signed (wordOfBytes [b, c]) =
      if signed then (b ++ c).signExtend 32 else (b ++ c).setWidth 32 := by
  cases width with
  | half => rw [extendLoaded, wordOfBytes_two]
  | byte | word => cases h

theorem extendLoaded_four (h : width.bytes = 4) (b c d e : Byte) :
    extendLoaded width signed (wordOfBytes [b, c, d, e]) = b ++ c ++ d ++ e := by
  cases width with
  | word => exact wordOfBytes_four b c d e
  | byte | half => cases h

end Extend

/-- Settles O40: the number of bytes read is the width's, which says how the value is extended. -/
theorem loadCompletes : Obligations.LoadCompletes := by
  intro ea pa width regs dest signed s regsIn aligned translated out
  refine ⟨fun unwritten => ?_, fun bs read => ?_⟩
  · show commit _ = _
    rw [effectPresented_load_unwritten regsIn aligned translated (readBytes_unwritten unwritten)]
    rfl
  · rw [← inOrder_eq] at read
    have width_eq : bs.length = width.bytes := (inOrder_length s bs).symm.trans (readBytes_length read)
    have loads : out = commit (advancing (setGpr dest (extendLoaded width signed (wordOfBytes bs)) s)) := by
      show commit _ = _
      rw [effectPresented_load_reads regsIn aligned translated read, inOrder_inOrder]
    rw [loads]
    refine ⟨_, writesResult_setGpr (dest, _) s, ?_, ?_, ?_⟩
    · rintro b rfl
      exact extendLoaded_one signed width_eq.symm b
    · rintro b c rfl
      exact extendLoaded_two signed width_eq.symm b c
    · rintro b c d e rfl
      exact extendLoaded_four signed width_eq.symm b c d e

/-! ### Stores -/

theorem mem_addresses {a : Word} {n x : Nat} (h : x ∈ addresses a n) : ∃ k < n, x = (a.toNat + k) % 2 ^ 32 := by
  induction n generalizing a with
  | zero => simp [addresses] at h
  | succ n ih =>
    rcases List.mem_cons.1 h with rfl | later
    · exact ⟨0, Nat.succ_pos n, (Nat.mod_eq_of_lt a.isLt).symm⟩
    · obtain ⟨k, hk, rfl⟩ := ih later
      refine ⟨k + 1, Nat.succ_lt_succ hk, ?_⟩
      rw [BitVec.toNat_add, Nat.mod_add_mod, Nat.add_assoc, Nat.add_comm k 1]
      rfl

/-- Fewer than 2^32 addresses from `a + 1` up do not wrap around to `a` (R8). -/
theorem not_mem_addresses_succ {a : Word} {n : Nat} (few : n < 2 ^ 32) : a.toNat ∉ addresses (a + 1) n := by
  intro h
  obtain ⟨k, hk, same⟩ := mem_addresses h
  bv_omega

/-- Bytes written are the bytes read back, where they do not wrap around onto themselves. -/
theorem readBytes_writeBytes (a : Word) (bs : List Byte) (m : Memory) (few : bs.length ≤ 2 ^ 32) :
    readBytes (writeBytes a bs m) a bs.length = some bs := by
  induction bs generalizing a m with
  | nil => rfl
  | cons b bs ih =>
    have first : readByte a.toNat (writeBytes (a + 1) bs (writeByte a.toNat b m)) = some b := by
      rw [readByte_writeBytes_outside _ _ _ _ (not_mem_addresses_succ few), readByte_writeByte_same]
    rw [List.length_cons, readBytes, writeBytes, first, ih (a + 1) _ (Nat.le_of_succ_le few)]

theorem readBytes_storeBytes (pa : Word) (width : Width) (v : Word) (s : State) :
    readBytes (storeBytes pa width v s).mem pa width.bytes = some (inOrder s (bytesOfWord v width.bytes)) := by
  have length : (inOrder s (bytesOfWord v width.bytes)).length = width.bytes := by
    rw [inOrder_length, bytesOfWord_length]
  have few : width.bytes ≤ 2 ^ 32 := by cases width <;> decide
  have back := readBytes_writeBytes pa (inOrder s (bytesOfWord v width.bytes)) s.mem (length.symm ▸ few)
  rwa [length] at back

theorem bytesOfWord_succ (v : Word) (n : Nat) : bytesOfWord v (n + 1) = v.extractLsb' (8 * n) 8 :: bytesOfWord v n := by
  rfl

/-- A store past its checks (R170). -/
theorem effectPresented_store_completes {ea pa : Word} {width : Width} {regs : List RegNum} {s : State}
    (regsIn : ∀ r ∈ regs, r.val < s.cfg.ngpr) (aligned : ea.toNat % width.bytes = 0)
    (translated : translateAddress .store ea s = .ok pa) (v : Word) :
    effectPresented false (.store ea width regs v) s = .completes (advance (storeBytes pa width v s)) := by
  have implemented := (regsImplemented_iff s.cfg _).2 regsIn
  simp [effectPresented, effectStore, implemented, memAccess_reaches aligned translated]

/-- Settles O41: the store is `storeBytes`, whose bytes are read back and which leaves every other byte. -/
theorem storeCompletes : Obligations.StoreCompletes := by
  intro ea pa v width regs s regsIn aligned translated low
  have bytes : bytesOfWord v width.bytes = low := by
    cases width <;> simp only [Width.bytes, bytesOfWord_succ, bytesOfWord] <;> rfl
  rw [effectPresented_store_completes regsIn aligned translated v]
  refine ⟨advance (storeBytes pa width v s), rfl, advanced_advance rfl rfl, ?_, fun a outside => ?_, ?_, ?_⟩
  · rw [advance_mem, readBytes_storeBytes, bytes, inOrder_eq]
  · rw [advance_mem, storeBytes_outside a pa width v s outside]
  · rw [advance_stored, storeBytes_stored]
  · rw [advance_mem, advance_stored]
    exact advance_frame _

end Sys2Proof.Machine
end

section
/-! PROOFS. The classes that make result writes and do not jump (R171, R172, R175): floating point and arithmetic, by what
their flags raise, and plain instructions. -/

namespace Sys2Proof.Machine

/-! ### States that differ from the start in registers only -/

/-- Entry after register writes (R233), FPCSR or SR[OV] written too, for a type that does not write EEAR: EPCR and EEAR are
those of the state before the instruction. -/
theorem commit_raises_afterWrites {e : Exc} {regs : List RegNum} {s w u : State} (written : OnlyRegsWritten regs s w)
    {fpcsr : Word} {ov : Bool} (frame : u = { s with ctx := w.ctx, fpcsr := fpcsr, sr := { s.sr with ov := ov } })
    (room : cidOverflows s = false) (noEear : writesEear s.cfg e = false) (ea : Word) :
    ∃ t, commit (.raises e ea u) = .next t ∧ EntersAs (vectorOffset e) (epcrValue e s) (currentEear s) u t := by
  have roomAfter : cidOverflows u = false := by rw [frame]; exact room
  have noEearAfter : writesEear u.cfg e = false := by rw [frame]; exact noEear
  have epcr : epcrValue e u = epcrValue e s := by rw [frame]; rfl
  have eear : currentEear u = currentEear s := by
    rw [frame]
    show (context w (cur s)).eear = _
    rw [written.sameContext]
    rfl
  have enters := commit_raises_enters e ea roomAfter
  rwa [noEearAfter, epcr, if_neg Bool.false_ne_true, eear] at enters

theorem ResultsWritten.advance {ws : List RegWrite} {s t : State} (h : ResultsWritten ws s t) :
    ResultsWritten ws s (advance t) := by
  rw [advance_frame]
  exact h.goesTo _ _

/-! ### Floating point (R171, R233) -/

/-- The state with the result writes made and the flags set, before `pc` moves. -/
def withFlags (flags : BitVec 9) (s t : State) : State := { t with fpcsr := orFpFlags flags s.fpcsr }

section FloatingPoint

variable {regs : List RegNum} {ws : List RegWrite} {flags : BitVec 9} {s t : State}
  (regsIn : ∀ r ∈ regs ++ ws.map Prod.fst, r.val < s.cfg.ngpr) (made : setGprs ws s = .ok t)
  (frame : t = { s with ctx := t.ctx }) (be : Bool)
include regsIn made

theorem effectPresented_floatingPoint_noFpu (absent : s.cfg.hasFpu = false) :
    effectPresented be (.floatingPoint regs ws flags) s = .completes (advance t) := by
  have implemented := (regsImplemented_iff s.cfg _).2 regsIn
  simp [effectPresented, effectFloatingPoint, implemented, made, absent]

include frame

theorem effectPresented_floatingPoint (present : s.cfg.hasFpu = true) :
    effectPresented be (.floatingPoint regs ws flags) s =
      if fpRaises (Config.freeStickyCounts s.draws) flags s.fpcsr then .raises .floatingPoint 0 (withFlags flags s t)
      else .completes (advance (withFlags flags s t)) := by
  have implemented := (regsImplemented_iff s.cfg _).2 regsIn
  have kept : t.fpcsr = s.fpcsr := by rw [frame]
  simp [effectPresented, effectFloatingPoint, implemented, made, present, withFlags, kept]

end FloatingPoint

section FpRaises

variable {sticky : Bool} {flags : BitVec 9} {fpcsr : Word}

/-- A flag that the instruction itself sets. -/
theorem fpRaises_of_set (enabled : fpcsr.getLsbD 0 = true) (set : flags ≠ 0) : fpRaises sticky flags fpcsr = true := by
  rw [fpRaises, fpee, enabled, decide_eq_true set]
  rfl

/-- No flag set at all. -/
theorem fpRaises_of_clear (clear : flags = 0) (left : fpcsr.extractLsb' 3 9 = 0) : fpRaises sticky flags fpcsr = false := by
  simp [fpRaises, fpFlags, clear, left]

theorem fpRaises_of_disabled (disabled : fpcsr.getLsbD 0 = false) : fpRaises sticky flags fpcsr = false := by
  rw [fpRaises, fpee, disabled, Bool.false_and]

end FpRaises

/-- Settles O42: `fpRaises` decides between entry from, and completion of, the state with results and flags written; where
only an earlier flag is left set it may be either (U14). -/
theorem floatingPointWritesThenRaises : Obligations.FloatingPointWritesThenRaises := by
  intro regs ws flags s regsIn allowed room
  obtain ⟨w, made, frame, written⟩ := setGprs_allowed allowed
  have hpc : w.pc = s.pc := by rw [frame]
  have hds : w.ds = s.ds := by rw [frame]
  refine ⟨w, written, hpc, hds, ?_⟩
  intro u out raised completed
  have effect (present : s.cfg.hasFpu = true) :=
    effectPresented_floatingPoint (flags := flags) regsIn made frame false present
  have raises (present : s.cfg.hasFpu = true) (h : fpRaises (Config.freeStickyCounts s.draws) flags s.fpcsr = true) :
      raised := by
    have enters : out = commit (.raises .floatingPoint 0 u) := congrArg commit ((effect present).trans (if_pos h))
    obtain ⟨t, next, entered⟩ := commit_raises_afterWrites (e := .floatingPoint) (ov := s.sr.ov) written.frame
      (congrArg (withFlags flags s) frame) room rfl 0
    rw [epcrValue_next rfl] at entered
    exact ⟨t, enters.trans next, entered⟩
  have completes (present : s.cfg.hasFpu = true)
      (h : fpRaises (Config.freeStickyCounts s.draws) flags s.fpcsr = false) : completed := by
    have goesOn : out = commit (.completes (advance u)) :=
      congrArg commit ((effect present).trans (if_neg (by simp [h])))
    exact ⟨advance u, goesOn, advanced_advance hpc hds, advance_frame u⟩
  refine ⟨fun present enabled set => ?_, fun present enabled clear left => ?_, fun present enabled clear left => ?_,
    fun present disabled => ?_, fun absent => ?_⟩
  · exact raises present (fpRaises_of_set enabled set)
  · exact completes present (fpRaises_of_clear clear left)
  · cases h : fpRaises (Config.freeStickyCounts s.draws) flags s.fpcsr with
    | true => exact .inl (raises present h)
    | false => exact .inr (completes present h)
  · exact completes present (fpRaises_of_disabled disabled)
  · exact ⟨advance w, congrArg commit (effectPresented_floatingPoint_noFpu regsIn made false absent),
      advanced_advance hpc hds, advance_frame w⟩

/-! ### Arithmetic (R172) -/

theorem OnlyRegsWritten.refl (regs : List RegNum) (s : State) : OnlyRegsWritten regs s s where
  otherRegs _ _ := rfl
  sameContext := rfl
  otherContexts _ _ := rfl
  memory _ := rfl
  rest := rfl

/-- One more register of the list written. -/
theorem OnlyRegsWritten.store {regs : List RegNum} {s t : State} (h : OnlyRegsWritten regs s t) {r : RegNum}
    (hr : r ∈ regs) (v : Word) : OnlyRegsWritten regs s (storeGpr (cur s) r v t) where
  otherRegs q hq := by
    have other : q ≠ r := fun e => hq (e ▸ hr)
    rw [storeGpr_read, if_neg other, h.otherRegs q hq]
  sameContext := by
    rw [storeGpr, context_updateContext_same, h.sameContext]
  otherContexts e he := (context_updateContext_other he _ t).trans (h.otherContexts e he)
  memory := h.memory
  rest := congrArg (fun u : State => { u with ctx := (storeGpr (cur s) r v t).ctx }) h.rest

/-- The open values of U15 go to the destinations. -/
theorem onlyRegsWritten_openResults (ws : List RegWrite) (s : State) :
    OnlyRegsWritten (ws.map Prod.fst) s (openResults ws s) := by
  unfold openResults
  refine List.foldlRecOn ws _ (.refl _ s) fun t written w hw => ?_
  split
  · exact written
  · exact written.store (List.mem_map_of_mem hw) _

/-- The state from which Range is entered by an arithmetic flag, its destinations and SR[OV] open (U15). -/
def withOpenResults (ws : List RegWrite) (s : State) : State :=
  { openResults ws s with sr := { s.sr with ov := Config.freeRangeOv s.draws } }

theorem withOpenResults_frame (ws : List RegWrite) (s : State) :
    withOpenResults ws s =
      { s with ctx := (openResults ws s).ctx, sr := { s.sr with ov := Config.freeRangeOv s.draws } } :=
  congrArg (fun t : State => { t with sr := { s.sr with ov := Config.freeRangeOv s.draws } }) (openResults_frame ws s)

section Arith

variable {regs : List RegNum} {ws : List RegWrite} {ov cy f : Option Bool} {s t : State}
  (regsIn : ∀ r ∈ regs ++ ws.map Prod.fst, r.val < s.cfg.ngpr) (made : setGprs ws s = .ok t) (be : Bool)
include regsIn made

theorem effectPresented_arith_raises (overflow : ov = some true) (enabled : s.sr.ove = true) :
    effectPresented be (.arith regs ws ov cy f) s =
      .raises .range 0 (withOpenResults ws s) := by
  have implemented := (regsImplemented_iff s.cfg _).2 regsIn
  simp [effectPresented, effectArith, implemented, made, rangeByFlag, overflow, enabled, withOpenResults]

theorem effectPresented_arith_completes (h : ov ≠ some true ∨ s.sr.ove = false) :
    effectPresented be (.arith regs ws ov cy f) s =
      .completes (advance { t with sr := arithSr ov cy f t.sr }) := by
  have implemented := (regsImplemented_iff s.cfg _).2 regsIn
  have quiet : rangeByFlag ov s.sr = false := by
    rcases h with h | h <;> simp [rangeByFlag, h]
  simp [effectPresented, effectArith, implemented, made, quiet]

end Arith

/-- Settles O43: Range from the state with the open values of U15, else the results and flags. -/
theorem arithmeticRangeByFlag : Obligations.ArithmeticRangeByFlag := by
  intro regs ws ov cy f s regsIn allowed room out
  obtain ⟨w, made, frame, written⟩ := setGprs_allowed allowed
  refine ⟨fun overflow enabled => ?_, fun quiet => ?_⟩
  · have opened := onlyRegsWritten_openResults ws s
    have hpc : (openResults ws s).pc = s.pc := by rw [openResults_frame]
    have hds : (openResults ws s).ds = s.ds := by rw [openResults_frame]
    obtain ⟨t, next, entered⟩ := commit_raises_afterWrites (e := .range) opened (withOpenResults_frame ws s) room rfl 0
    have raises : out = commit _ := congrArg commit (effectPresented_arith_raises regsIn made false overflow enabled)
    rw [epcrValue_current rfl] at entered
    exact ⟨t, openResults ws s, raises.trans next, opened, hpc, hds, _, entered⟩
  · have hsr : w.sr = s.sr := by rw [frame]
    have completes : out = commit (.completes (advance { w with sr := arithSr ov cy f w.sr })) :=
      congrArg commit (effectPresented_arith_completes regsIn made false quiet)
    refine ⟨_, w, completes, written, advanced_advance (by rw [frame]) (by rw [frame]), ?_⟩
    rw [hsr]
    exact advance_frame _

/-! ### Plain instructions (R175) -/

theorem effectPresented_plain {regs : List RegNum} {ws : List RegWrite} {s : State}
    (regsIn : ∀ r ∈ regs ++ ws.map Prod.fst, r.val < s.cfg.ngpr) (be : Bool) :
    effectPresented be (.plain regs ws) s = advancing (setGprs ws s) :=
  if_pos ((regsImplemented_iff s.cfg _).2 regsIn)

/-- Settles O45: its result writes and `advance`; an unimplemented register is checked first. -/
theorem plainClassWritesOrRaisesRange : Obligations.PlainClassWritesOrRaisesRange := by
  intro regs ws s out
  refine ⟨fun regsIn allowed => ?_, fun missing room => ?_⟩
  · obtain ⟨t, made, frame, written⟩ := setGprs_allowed allowed
    have completes : out = commit (.completes (advance t)) :=
      congrArg commit ((effectPresented_plain regsIn false).trans (congrArg advancing made))
    exact ⟨_, completes, written.advance, advanced_advance (by rw [frame]) (by rw [frame])⟩
  · have raises : out = commit (.raises .range 0 s) :=
      congrArg commit (effectPresented_unimplemented (p := .plain regs ws) missing (fun jump => nomatch jump) false)
    rw [raises, ← epcrValue_current (e := .range) rfl]
    exact commit_raises_enters .range 0 room

end Sys2Proof.Machine
end

section
/-! PROOFS. The jump class (R173): a jump in a delay slot (R145), one to an aligned target (R141), a branch that is not taken
(U16). -/

namespace Sys2Proof.Machine

theorem effectPresented_jump_inSlot {s : State} (slot : s.ds ≠ .none) (be : Bool) (regs : List RegNum) (taken : Bool)
    (target : Word) (tr : Option RegNum) (ws : List RegWrite) :
    effectPresented be (.jump regs taken target tr ws) s = .refuses .jumpInDelaySlot :=
  if_pos (by simp [inDelaySlot_eq, slot])

/-- Settles O44: its result writes and then the jump to a target that `checkTarget` takes as it is. -/
theorem jumpClassSetsDelaySlot : Obligations.JumpClassSetsDelaySlot := by
  intro regs target tr ws s out
  refine ⟨fun taken slot => congrArg commit (effectPresented_jump_inSlot slot false regs taken target tr ws),
    fun hds regsIn allowed aligned => ?_⟩
  obtain ⟨t, made, frame, written⟩ := setGprs_allowed allowed
  have hcfg : t.cfg = s.cfg := by rw [frame]
  have hpc : t.pc = s.pc := by rw [frame]
  have htds : t.ds = .none := by rw [frame]; exact hds
  show ∃ u, commit _ = .next u ∧ _
  rw [effectPresented_jump_taken hds regsIn made, jumpTo_of_goes tr (checkTarget_of_aligned aligned)]
  refine ⟨_, rfl, ?_, fun slots => ?_, fun noSlots => ?_⟩
  · split
    · exact written.goesTo _ t.ds
    · exact written.goesTo _ _
  · simp [hcfg, hpc, slots]
  · simp [hcfg, htds, noSlots]

/-- A branch of the class that is not taken makes its result writes and goes on (R173). -/
theorem effectPresented_jump_untaken {regs : List RegNum} {target : Word} {tr : Option RegNum} {ws : List RegWrite}
    {s t : State} (hds : s.ds = .none) (regsIn : ∀ r ∈ tr.toList ++ regs ++ ws.map Prod.fst, r.val < s.cfg.ngpr)
    (made : setGprs ws s = .ok t) (be : Bool) :
    effectPresented be (.jump regs false target tr ws) s = .completes (untakenBranch t) := by
  have implemented := (regsImplemented_iff s.cfg _).2 regsIn
  simp only [effectPresented, effectJump, inDelaySlot_none hds, implemented, made, Bool.false_eq_true, if_false, if_true]

/-- The two readings of U16 for the delay slot of an untaken branch. -/
theorem untakenBranch_cases (s : State) :
    ∃ ds, untakenBranch s = { s with pc := s.pc + 4, ds := ds } ∧
      (ds = s.ds ∨ s.cfg.nd = false ∧ ds = .target (s.pc + 8) none) := by
  unfold untakenBranch
  split
  · exact ⟨s.ds, rfl, .inl rfl⟩
  · rename_i slots
    split
    · exact ⟨_, rfl, .inr ⟨by simpa using slots, rfl⟩⟩
    · exact ⟨s.ds, rfl, .inl rfl⟩

/-- Settles O57: its result writes and `untakenBranch`, whose delay slot is either of U16's. -/
theorem untakenBranchGoesOn : Obligations.UntakenBranchGoesOn := by
  intro regs target tr ws s hds regsIn allowed
  obtain ⟨t, made, frame, written⟩ := setGprs_allowed allowed
  obtain ⟨ds, goesOn, slot⟩ := untakenBranch_cases t
  have hcfg : t.cfg = s.cfg := by rw [frame]
  have hpc : t.pc = s.pc := by rw [frame]
  have htds : t.ds = .none := by rw [frame]; exact hds
  rw [effectPresented_jump_untaken hds regsIn made, goesOn]
  refine ⟨_, rfl, written.goesTo _ ds, congrArg (· + 4) hpc, ?_⟩
  rwa [hcfg, hpc, htds] at slot

end Sys2Proof.Machine
end

section
/-! PROOFS. Exception entry for every type, with fast context switching on and off, and where SR[CID] has no room (R224 to R232,
R241 to R244, log 10); reset (R280 to R282); the tables of types (R202, R219). -/

namespace Sys2Proof.Machine

/-! ### The tables of types -/

/-- Settles O27: the tables themselves. -/
theorem vectorsAndPriorities : Obligations.VectorsAndPriorities :=
  ⟨rfl, fun _ => rfl, rfl, rfl⟩

/-- The types that write EEAR (R229, C4). -/
theorem writesEear_iff (cfg : Config) (e : Exc) :
    writesEear cfg e = true ↔ e = .busError ∨ e = .dataPageFault ∨ e = .insnPageFault ∨ e = .alignment ∨ e = .itlbMiss ∨
      e = .dtlbMiss ∨ (e = .illegalInsn ∧ cfg.illegalWritesEear = true) := by
  cases e <;> simp [writesEear]

/-- Settles O26: `entersAs_entered`, EPCR and EEAR by the tables of types. -/
theorem entryFollowsItsRule : Obligations.EntryFollowsItsRule := by
  intro e ea s _ room
  refine ⟨entered e ea s, enterException_of_room room, ?_⟩
  rw [← epcrValue_eq, ← if_congr (writesEear_iff s.cfg e) rfl rfl]
  exact entersAs_entered e ea room

/-! ### Fast context switching on, with room for the new CID -/

theorem gprAt_entered (e : Exc) (ea : Word) (s : State) (r : RegNum) :
    gprAt (entered e ea s) (cur s) r = gprAt s (cur s) r := by
  rw [gprAt, context_entered_same]
  rfl

/-- The increment does not wrap where there is room (R35, R241). -/
theorem entered_cid_toNat {s : State} (few : s.cfg.nctx ≤ 16) (on : switching s = true) (room : cidOverflows s = false)
    (e : Exc) (ea : Word) : (entered e ea s).sr.cid.toNat = s.sr.cid.toNat + 1 := by
  have inRange : s.sr.cid.toNat + 1 < s.cfg.nctx := by simpa [cidOverflows, on] using room
  rw [entered_cid room, if_pos on]
  bv_omega

/-- CCRS keeps the old CID, with room for the new one and without (R244, log 10). -/
theorem entered_ccrs_toNat {s : State} (on : switching s = true) (e : Exc) (ea : Word) :
    (entered e ea s).ccrs.toNat = s.sr.cid.toNat := by
  rw [entered_ccrs_eq, if_pos ((switching_iff s).1 on)]
  exact BitVec.toNat_setWidth_of_le (by decide)

/-- Settles O28: the new context is another one than the one that entry saves to. -/
theorem fastEntrySwitchesContext : Obligations.FastEntrySwitchesContext := by
  intro e ea s t inv many ce room h
  obtain rfl : entered e ea s = t := by simpa [enterException_of_room room] using h
  obtain ⟨-, ⟨-, few⟩, -, -⟩ := (wellFormed_iff s.cfg).1 inv.cfg
  have on : switching s = true := (switching_iff s).2 ⟨many, ce⟩
  have cid := entered_cid_toNat few on room e ea
  have next : (cur (entered e ea s)).val = (cur s).val + 1 := by
    rw [cur_of_switching (s := entered e ea s) on, cur_of_switching on]
    exact cid
  have other : cur (entered e ea s) ≠ cur s := fun same => by rw [same] at next; omega
  exact ⟨next, cid, entered_ccrs_toNat on e ea, gprAt_entered e ea s, context_entered_other other e ea⟩

/-! ### No room for the new CID (R242, log 10) -/

section Overflow

variable {s : State} (full : cidOverflows s = true)
include full

theorem enterException_full_refused (policy : s.cfg.cidOverflow = .refuse) (e : Exc) (ea : Word) :
    enterException e ea s = .refused .cidOverflow := by
  simp [enterException, full, policy]

theorem enterException_full (policy : s.cfg.cidOverflow = .execute) (e : Exc) (ea : Word) :
    enterException e ea s = .next (entered .range 0 s) := by
  simp [enterException, full, policy]

theorem entryCid_full : entryCid s = s.sr.cid := by simp [entryCid, full]

end Overflow

/-- Settles O29: Range, which is of the `current` class and does not write EEAR, entered with the CID as it is. -/
theorem cidOverflowPolicies : Obligations.CidOverflowPolicies := by
  intro e ea s _ many ce noRoom
  have on : switching s = true := (switching_iff s).2 ⟨many, ce⟩
  have full : cidOverflows s = true := by simp [cidOverflows, on, noRoom]
  refine ⟨fun policy => enterException_full_refused full policy e ea, fun policy => ?_⟩
  refine ⟨entered .range 0 s, enterException_full full policy e ea, rfl, rfl, ?_, fun h => (Bool.and_eq_true_iff.1 h).1,
    entered_ccrs_toNat on .range 0, ?_, fun _ other => context_entered_other other .range 0, fun _ => by rw [entered_mem], rfl⟩
  · rw [entered_sr, entryCid_full full, inDelaySlot_eq]
    rfl
  · rw [context_entered_same, savedContext, epcrValue_current rfl]
    rfl

/-! ### Fast context switching off -/

section NotSwitching

variable {s : State} (off : switching s = false)
include off

theorem cidOverflows_of_not_switching : cidOverflows s = false := by simp [cidOverflows, off]

theorem enterException_of_not_switching (e : Exc) (ea : Word) : enterException e ea s = .next (entered e ea s) :=
  enterException_of_room (cidOverflows_of_not_switching off)

theorem cur_entered_of_not_switching (e : Exc) (ea : Word) : cur (entered e ea s) = cur s := by
  rw [cur, entered_cid (cidOverflows_of_not_switching off), off, if_neg Bool.false_ne_true]
  rfl

end NotSwitching

/-- Settles O56: neither entry changes the context, and the second starts outside a delay slot at the first one's vector. -/
theorem nestedEntryOverwrites : Obligations.NestedEntryOverwrites := by
  intro e e' ea ea' s t u single first second
  have off : switching s = false := by simpa [switching, hasContexts] using single
  obtain rfl : entered e ea s = t := by simpa [enterException_of_not_switching off] using first
  have offAgain : switching (entered e ea s) = false := off
  obtain rfl : entered e' ea' (entered e ea s) = u := by
    simpa [enterException_of_not_switching offAgain] using second
  have kept : cur (entered e ea s) = cur s := cur_entered_of_not_switching off e ea
  have saved := context_entered_same e' ea' (entered e ea s)
  rw [kept] at saved
  refine ⟨(cur_entered_of_not_switching offAgain e' ea').trans kept, ?_, ?_, rfl⟩
  · rw [saved]
    rfl
  · rw [saved]
    exact epcrValue_eq e' (entered e ea s)

/-! ### Reset -/

theorem step_of_reset {s : State} (h : (nextInputs s).reset = true) : step s = .next (enterReset (beginStep s)) := if_pos h

/-- Settles O30: reset is looked at before anything else, and `enterReset` writes registers, `pc` and the delay slot only. -/
theorem resetWinsOverEverything : Obligations.ResetWinsOverEverything := fun s h =>
  ⟨enterReset (beginStep s), step_of_reset h, rfl, rfl, rfl, rfl, rfl, rfl, rfl, rfl, rfl, rfl, rfl, fun _ => rfl, rfl⟩

end Sys2Proof.Machine
end

section
/-! PROOFS. What a step comes to past its fetch (R217, R220 to R223): the instruction's own outcome, or an interrupt or the
debug unit's Trap in its place. -/

namespace Sys2Proof.Machine

/-! ### The step past its fetch -/

theorem step_of_nextIs {s : State} {i : Instr} (h : NextIs s i) :
    step s = settleStep (nextInputs s) (effect i (beginStep s)) (exec i (beginStep s)) (beginStep s) := by
  obtain ⟨bs, gives, decoded⟩ := h
  rw [step_of_fetchGives gives, stepBytes, decoded]

/-- A word of a class with an instruction of that class presented (R105). -/
theorem stepOther_of_class {inp : Inputs} {w : Word} {s : State} {p : Presented}
    (h : classOf w s.cfg.classify = some (.other p.insnClass)) (presented : inp.presented = some p) :
    stepOther inp w s =
      settleStep inp (effectPresented inp.dataBusError p s) (commit (effectPresented inp.dataBusError p s)) s := by
  have found : presentedOfClass p.insnClass inp.presented = some p := by simp [presentedOfClass, presented, Option.filter]
  simp [stepOther, h, found]

/-- One of the six or an instruction of a class: either is settled in the same way. -/
theorem step_of_nextHas {s : State} {eff : Effect} {out : Host.Outcome State Fault Refusal} (h : NextHas s eff out) :
    step s = settleStep (nextInputs s) eff out (beginStep s) := by
  rcases h with ⟨i, is, rfl, rfl⟩ | ⟨b0, b1, b2, b3, p, gives, undecoded, classed, presented, rfl, rfl⟩
  · exact step_of_nextIs is
  · rw [step_of_fetchGives gives, stepBytes_of_not_decoded undecoded]
    exact stepOther_of_class classed presented

section Settle

variable {inp : Inputs} {eff : Effect} {s : State}

theorem settleStep_kept (h : replacement inp eff s = none) (out : Host.Outcome State Fault Refusal) :
    settleStep inp eff out s = out := by
  simp [settleStep, h]

theorem settleStep_replaced {e : Exc} (h : replacement inp eff s = some e) (out : Host.Outcome State Fault Refusal) :
    settleStep inp eff out s = enterException e 0 s := by
  simp [settleStep, h]

end Settle

section InPlace

variable {s : State} {eff : Effect} {out : Host.Outcome State Fault Refusal} (has : NextHas s eff out)
include has

theorem step_kept (h : replacement (nextInputs s) eff (beginStep s) = none) : step s = out :=
  (step_of_nextHas has).trans (settleStep_kept h out)

/-- An exception of the `current` class that does not write EEAR, entered in place of the instruction (R208, R211, R217). -/
theorem step_enters_in_place {e : Exc} (h : replacement (nextInputs s) eff (beginStep s) = some e)
    (room : cidOverflows s = false) (current : savesNext e = false) (noEear : writesEear s.cfg e = false) :
    ∃ t, step s = .next t ∧ EntersAs (vectorOffset e) (currentEpcr s) (currentEear s) (beginStep s) t := by
  rw [step_of_nextHas has, settleStep_replaced h]
  have enters := commit_raises_enters e 0 (s := beginStep s) room
  rwa [epcrValue_current current, beginStep_cfg, noEear, if_neg Bool.false_ne_true] at enters

end InPlace

/-! ### Interrupts (R252, R253) -/

section Interrupts

variable {s : State}

theorem tickPending_iff : TickPending s ↔ (s.cfg.hasTick && (nextInputs s).tickIrq && s.sr.tee) = true := by
  simp [TickPending, and_assoc]

theorem extPending_iff : ExtPending s ↔ (s.cfg.hasPic && (nextInputs s).extIrq && s.sr.iee) = true := by
  simp [ExtPending, and_assoc]

theorem interruptTaken_none (tick : ¬ TickPending s) (ext : ¬ ExtPending s) :
    interruptTaken (nextInputs s) (beginStep s) = none := by
  rw [tickPending_iff, Bool.not_eq_true] at tick
  rw [extPending_iff, Bool.not_eq_true] at ext
  simp [interruptTaken, tick, ext]

theorem interruptTaken_tick (tick : TickPending s) (ext : ¬ ExtPending s) :
    interruptTaken (nextInputs s) (beginStep s) = some .tickTimer := by
  rw [tickPending_iff] at tick
  rw [extPending_iff, Bool.not_eq_true] at ext
  simp only [interruptTaken, beginStep_cfg, beginStep_sr, tick, ext]
  rfl

theorem interruptTaken_ext (tick : ¬ TickPending s) (ext : ExtPending s) :
    interruptTaken (nextInputs s) (beginStep s) = some .externalInterrupt := by
  rw [tickPending_iff, Bool.not_eq_true] at tick
  rw [extPending_iff] at ext
  simp only [interruptTaken, beginStep_cfg, beginStep_sr, tick, ext]
  rfl

/-- With both pending one of the two is taken (R221, D6). -/
theorem interruptTaken_both (tick : TickPending s) (ext : ExtPending s) :
    interruptTaken (nextInputs s) (beginStep s) = some .tickTimer ∨
      interruptTaken (nextInputs s) (beginStep s) = some .externalInterrupt := by
  rw [tickPending_iff] at tick
  rw [extPending_iff] at ext
  simp only [interruptTaken, beginStep_cfg, beginStep_sr, tick, ext]
  cases Config.freeTickFirst (beginStep s).draws
  · exact .inr rfl
  · exact .inl rfl

/-- Without a debug trap only an interrupt takes the place of an instruction that completes. -/
theorem replacement_completes (calm : NoDebugTrap s) (v : State) :
    replacement (nextInputs s) (.completes v) (beginStep s) = interruptTaken (nextInputs s) (beginStep s) := by
  have quiet : debugAsserted (nextInputs s) (beginStep s) = false := calm
  simp [replacement, quiet]

/-- Nor does anything take the place of one that raises. -/
theorem replacement_raises (calm : NoDebugTrap s) (e : Exc) (ea : Word) (v : State) :
    replacement (nextInputs s) (.raises e ea v) (beginStep s) = none := by
  have quiet : debugAsserted (nextInputs s) (beginStep s) = false := calm
  simp [replacement, quiet]

theorem replacement_masked (calm : NoDebugTrap s) (tick : ¬ TickPending s) (ext : ¬ ExtPending s) (eff : Effect) :
    replacement (nextInputs s) eff (beginStep s) = none := by
  cases eff with
  | completes v => rw [replacement_completes calm, interruptTaken_none tick ext]
  | raises e ea v => exact replacement_raises calm e ea v
  | faults f => rfl
  | refuses r => rfl

end Interrupts

/-- Settles O34: the interrupt taken is entered in place of the instruction. -/
theorem interruptReplacesInstruction : Obligations.InterruptReplacesInstruction := by
  intro s v out has calm room
  have tickEntered (taken : interruptTaken (nextInputs s) (beginStep s) = some .tickTimer) :=
    step_enters_in_place has ((replacement_completes calm v).trans taken) room rfl rfl
  have extEntered (taken : interruptTaken (nextInputs s) (beginStep s) = some .externalInterrupt) :=
    step_enters_in_place has ((replacement_completes calm v).trans taken) room rfl rfl
  refine ⟨fun tick ext => tickEntered (interruptTaken_tick tick ext),
    fun ext tick => extEntered (interruptTaken_ext tick ext), fun tick ext => ?_⟩
  rcases interruptTaken_both tick ext with taken | taken
  · exact (tickEntered taken).imp fun _ => And.imp_right .inl
  · exact (extEntered taken).imp fun _ => And.imp_right .inr

/-- Settles O35: in both cases nothing takes the instruction's place. -/
theorem maskedOrLateInterruptWaits : Obligations.MaskedOrLateInterruptWaits := by
  intro s eff out has calm h
  rcases h with ⟨e, ea, v, rfl⟩ | ⟨tick, ext⟩
  · exact step_kept has (replacement_raises calm e ea v)
  · exact step_kept has (replacement_masked calm tick ext eff)

/-! ### The debug unit's Trap (R217, log 25) -/

section DebugTrap

variable {inp : Inputs} {s : State} {e : Exc}

theorem debugWins_of_larger (h : 7 < priority false e) : debugWins e s = true := by
  have trap : priority false .trap = 7 := rfl
  simp [debugWins, trap, h]

theorem debugWins_of_smaller (h : priority false e < 7) : debugWins e s = false := by
  have trap : priority false .trap = 7 := rfl
  simp [debugWins, trap, h.le, h.ne]

theorem replacement_debug_completes (asserted : debugAsserted inp s = true) (v : State) :
    replacement inp (.completes v) s = some .trap := by
  simp [replacement, asserted]

theorem replacement_debug_raises (asserted : debugAsserted inp s = true) (ea : Word) (v : State) :
    replacement inp (.raises e ea v) s = if debugWins e s then some .trap else none := by
  simp [replacement, asserted]

end DebugTrap

/-- Settles O36: `debugWins` compares the priority numbers, and draws where they are equal. -/
theorem debugTrapByPriority : Obligations.DebugTrapByPriority := by
  intro s eff out has debug line room trapped
  have asserted : debugAsserted (nextInputs s) (beginStep s) = true := Bool.and_eq_true_iff.2 ⟨debug, line⟩
  have traps (h : replacement (nextInputs s) eff (beginStep s) = some .trap) : trapped :=
    step_enters_in_place has h room rfl rfl
  refine ⟨fun v completes => traps ?_, fun e ea v raises larger => traps ?_, fun e ea v raises smaller => ?_,
    fun e ea v raises _ => ?_⟩
  · rw [completes, replacement_debug_completes asserted]
  · rw [raises, replacement_debug_raises asserted, debugWins_of_larger larger, if_pos rfl]
  · refine step_kept has ?_
    rw [raises, replacement_debug_raises asserted, debugWins_of_smaller smaller, if_neg Bool.false_ne_true]
  · have either := replacement_debug_raises (e := e) asserted ea v
    rw [← raises] at either
    split at either
    · exact .inr (traps either)
    · exact .inl (step_kept has either)

/-! ### The step in its plainest setting -/

section Plain

variable {s : State} (empty : s.inputs = [])
include empty

theorem nextInputs_of_empty : nextInputs s = .quiet := by simp [nextInputs, empty]

theorem beginStep_of_empty : beginStep s = { s with draws := s.draws + 1 } := by
  simp [beginStep, nextInputs_of_empty empty, empty, Inputs.quiet]

/-- Where no input is left nothing takes an instruction's place (log 2). -/
theorem replacement_of_empty (eff : Effect) : replacement (nextInputs s) eff (beginStep s) = none :=
  replacement_masked (by simp [NoDebugTrap, nextInputs_of_empty empty, Inputs.quiet])
    (by simp [TickPending, nextInputs_of_empty empty, Inputs.quiet])
    (by simp [ExtPending, nextInputs_of_empty empty, Inputs.quiet]) eff

end Plain

/-- Untranslated, in big-endian order and with nothing stored the fetch is the four bytes at `pc` (R72, R82, R84). -/
theorem fetch_plain {s : State} {bs : List Byte} (ime : s.sr.ime = false) (lee : s.sr.lee = false)
    (order : s.cfg.bigEndian = true) (stored : s.stored = []) (read : readBytes s.mem s.pc 4 = some bs) :
    fetch false s = .bytes bs := by
  rw [fetch_untranslated ime]
  simp [fetchBytes, storedSinceLaunch, stored, read, inOrder, isBigEndian, order, lee]

/-- Settles O32: the first clause is `settleStep`'s two outcomes; in the second nothing takes the instruction's place. -/
theorem stepRunsDecodedInstruction : Obligations.StepRunsDecodedInstruction := by
  refine ⟨fun s i is => ⟨fun kept => ?_, fun e replaced => ?_⟩,
    fun s bs i empty ime lee order aligned stored read decoded => ?_⟩
  · exact (step_of_nextIs is).trans (settleStep_kept kept _)
  · exact (step_of_nextIs is).trans (settleStep_replaced replaced _)
  · have quiet : nextInputs s = .quiet := nextInputs_of_empty empty
    have fetched : fetch (nextInputs s).fetchBusError (beginStep s) = .bytes bs := by
      rw [quiet]
      exact fetch_plain (s := beginStep s) ime lee order stored read
    have is : NextIs s i := ⟨bs, ⟨by rw [quiet]; rfl, .inl lee, aligned, fetched⟩, decoded⟩
    rw [step_of_nextIs is, settleStep_kept (replacement_of_empty empty _), beginStep_of_empty empty]

end Sys2Proof.Machine
end

section
/-! PROOFS. User mode (R247, R249, R250): an instruction executed in it keeps all privileged state or is an exception entry,
and a step leaves it only by an entry or by reset. -/

namespace Sys2Proof.Machine

/-! ### The six instructions -/

/-- SR, CCRS, FPCSR, the other contexts and the exception registers of the current one are in `t` as in `s`. -/
structure PrivilegedKept (s t : State) : Prop where
  sr : t.sr = s.sr
  ccrs : t.ccrs = s.ccrs
  fpcsr : t.fpcsr = s.fpcsr
  otherContexts : ∀ c, c ≠ cur s → context t c = context s c
  current : context t (cur s) = { context s (cur s) with gpr := (context t (cur s)).gpr }

theorem privilegedKept_goesTo (s : State) (pc : Word) (ds : DelaySlot) : PrivilegedKept s { s with pc := pc, ds := ds } :=
  ⟨rfl, rfl, rfl, fun _ _ => rfl, rfl⟩

theorem PrivilegedKept.advance {s t : State} (h : PrivilegedKept s t) : PrivilegedKept s (advance t) := by
  obtain ⟨sr, ccrs, fpcsr, otherContexts, current⟩ := h
  exact ⟨by rwa [advance_sr], by rwa [advance_ccrs], by rwa [advance_fpcsr],
    fun c other => (context_advance t c).trans (otherContexts c other), by rwa [context_advance]⟩

theorem privilegedKept_setGpr {r : RegNum} {v : Word} {s t : State} (h : setGpr r v s = .ok t) : PrivilegedKept s t := by
  obtain ⟨frame, otherContexts, current⟩ := setGprAt_frame h
  exact ⟨by rw [frame], by rw [frame], by rw [frame], otherContexts, current⟩

/-- l.rfe and the write of l.mtspr are supervisor mode's; all that is left is `pc`, the delay slot and a register (R123, R153). -/
theorem privilegedKept_of_completes {i : Instr} {s u : State} (user : s.sr.sm = false) (h : effect i s = .completes u) :
    PrivilegedKept s u := by
  rcases effect_completes h with rfl | ⟨-, sm, -⟩ | ⟨a, r, -, rfl⟩ | ⟨d, v, t, ht, rfl⟩ | ⟨sm, -⟩
  · exact (privilegedKept_goesTo s s.pc s.ds).advance
  · simp [user] at sm
  · split
    · exact privilegedKept_goesTo s a s.ds
    · exact privilegedKept_goesTo s _ _
  · exact (privilegedKept_setGpr ht).advance
  · simp [user] at sm

/-- Settles O50: an instruction with a next state completes or is entered as an exception. -/
theorem userModeWritesNoPrivilegedState : Obligations.UserModeWritesNoPrivilegedState := by
  intro i s t user h
  rcases exec_next h with completes | entry
  · obtain ⟨sr, ccrs, fpcsr, otherContexts, current⟩ := privilegedKept_of_completes user completes
    exact .inr ⟨sr, ccrs, fpcsr, otherContexts, current⟩
  · exact .inl entry

/-! ### The abstract classes -/

theorem setGprs_sr {ws : List RegWrite} {s t : State} (h : setGprs ws s = .ok t) : t.sr = s.sr := by
  rw [(setGprs_frame h).1]

/-- No class changes the mode by completing: arithmetic writes flags only (R172). -/
theorem effectPresented_completes_sm {be : Bool} {p : Presented} {s u : State} (h : effectPresented be p s = .completes u) :
    u.sr.sm = s.sr.sm := by
  rcases effectPresented_completes h with ⟨pa, w, v, rfl⟩ | ⟨ws, t, made, hu⟩
  · rw [advance_sr, storeBytes_sr]
  · rw [← setGprs_sr made]
    rcases hu with ⟨w, rfl⟩ | ⟨ov, cy, f, rfl⟩ | ⟨-, rfl | ⟨a, r, -, rfl⟩⟩
    · rw [advance_sr]
    · rw [advance_sr]
      rfl
    · obtain ⟨ds, goesOn, -⟩ := untakenBranch_cases t
      rw [goesOn]
    · split <;> rfl

/-- Nor does what a class writes before it raises move the vector base (R77, R171, R172). -/
theorem effectPresented_raises_eph {be : Bool} {p : Presented} {s u : State} {e : Exc} {ea : Word}
    (h : effectPresented be p s = .raises e ea u) : u.sr.eph = s.sr.eph := by
  rcases effectPresented_raises h with rfl | ⟨ws, t, made, w, rfl⟩ | ⟨ws, o, rfl⟩
  · rfl
  · rw [← setGprs_sr made]
  · rfl

/-! ### The step -/

/-- An entry leaves no delay slot and `pc` at the address of a vector (R231). -/
theorem enterException_atVector {e : Exc} {ea : Word} {s t : State} (h : enterException e ea s = .next t) :
    t.ds = .none ∧ ∃ e', t.pc = vectorBaseOf s.cfg s.sr.eph + vectorOffset e' := by
  obtain ⟨e', ea', rfl⟩ := enterException_entered h
  exact ⟨rfl, e', rfl⟩

/-- Settles O49: what completes in user mode stays in it, so the step is reset or an entry. -/
theorem supervisorOnlyByException : Obligations.SupervisorOnlyByException := by
  intro s t user h sm
  have entry {e : Exc} {ea : Word} {u : State} (he : enterException e ea u = .next t) (cfg : u.cfg = s.cfg)
      (eph : u.sr.eph = s.sr.eph) : t.ds = .none ∧ ∃ e', t.pc = vectorBaseOf s.cfg s.sr.eph + vectorOffset e' ∨
        (e' = .reset ∧ t.pc = vectorBaseOf s.cfg false + vectorOffset e') := by
    rw [← cfg, ← eph]
    exact (enterException_atVector he).imp_right fun ⟨e', at'⟩ => ⟨e', .inl at'⟩
  rcases step_cases h with rfl | ⟨e, ea, he⟩ | ⟨bs, i, -, -, -, -, -, hi⟩ | ⟨be, p, hp⟩
  · exact ⟨rfl, .reset, .inr ⟨rfl, rfl⟩⟩
  · exact entry he rfl rfl
  · rw [exec_eq_commit] at hi
    rcases commit_next hi with completes | ⟨e, ea, u, raises, he⟩
    · have kept : t.sr = s.sr := (privilegedKept_of_completes (s := beginStep s) user completes).sr
      simp [kept, user] at sm
    · obtain ⟨rfl, -⟩ := effect_raises raises
      exact entry he rfl rfl
  · rcases commit_next hp with completes | ⟨e, ea, u, raises, he⟩
    · have kept : t.sr.sm = s.sr.sm := effectPresented_completes_sm (s := beginStep s) completes
      simp [kept, user] at sm
    · exact entry he (sameRun_effectPresented_raises raises).cfg (effectPresented_raises_eph (s := beginStep s) raises)

end Sys2Proof.Machine
end

section
/-! PROOFS. The state after a power-on reset (R281, 10_state.md section 9). -/

namespace Sys2Proof.Machine

/-- The power-on configuration has the vectors at address 0 (R5), so the Reset vector is its offset 0x100 (R231). -/
theorem vectorAddress_reset : vectorAddress .reset State.reset = State.reset.pc := by
  have base : vectorBaseOf State.reset.cfg State.reset.sr.eph = 0 := rfl
  rw [vectorAddress, base]
  decide

/-- Both halves of CXR are 0 (R40): SR[CID], widened, and CCRS. -/
theorem cxrWord_reset : cxrWord State.reset = 0 := by
  have cid : State.reset.sr.cid = 0 := rfl
  have ccrs : State.reset.ccrs = 0 := rfl
  rw [cxrWord, cid, ccrs]
  decide

/-- Settles O31: `pc` and CXR by the two lemmas; the other eight are fields of `State.reset`. -/
theorem resetStateOfTheSpec : Obligations.ResetStateOfTheSpec :=
  ⟨vectorAddress_reset.symm, rfl, rfl, rfl, rfl, rfl, rfl, rfl, rfl, cxrWord_reset⟩

end Sys2Proof.Machine
end

section
/-! PROOFS. The words that the spec writes out (95_test_vectors.md section 2.7). -/

namespace Sys2Proof.Machine

/-- Settles O3: a word decodes to an instruction exactly when it is its encoding, and each of the eight encodings computes to
the word that the spec writes. -/
theorem specWordsDecode : Obligations.SpecWordsDecode := by
  unfold Obligations.SpecWordsDecode
  simp only [decode_eq_ok_iff]
  decide

end Sys2Proof.Machine
end
